-- ==== Sys2Proof/Word.lean ====
section
/-! DEFINITION. The machine's words: 8-bit data, 14-bit program words, program addresses (spec/10_state.md R21, R22, R32). -/

namespace Sys2Proof

/-- One 8-bit unit of data: W, a register of either plane (R21, R30, R31). -/
abbrev Byte := BitVec 8

/-- One word of program memory: an instruction is one 14-bit word (R1, R70). -/
abbrev ProgWord := BitVec 14

/-- A program-memory word address. PC and a stack entry have PCW bits, 12 to 16 (R4, R22). The model holds
them in 16 bits and keeps every bit above PCW zero. -/
abbrev PAddr := BitVec 16

end Sys2Proof
end

