-- ==== Sys2Proof/Config.lean ====
section
/-! DEFINITION. What the part fixes (spec/00_scope.md R2, R4; spec/92_eei_decisions.md) and the free values of a reset
event. A part is plain data and stands in State, so a statement about every state holds for every part (log 1). -/

namespace Sys2Proof

/-- `ISET`: which of the two instruction sets the part decodes (R2, R4, R80). -/
inductive ISet where
  | a   -- INSTA
  | b   -- INSTB
  deriving DecidableEq, Repr

/-- `PCW`: the width of PC and of a stack entry, one of 12 to 16 (R4, D3). -/
inductive PcWidth where
  | w12 | w13 | w14 | w15 | w16
  deriving DecidableEq, Repr

/-- The number of bits a `PcWidth` stands for. -/
def PcWidth.bits : PcWidth → Nat
  | .w12 => 12
  | .w13 => 13
  | .w14 => 14
  | .w15 => 15
  | .w16 => 16

/-- What a plane's map says of an address (R4, R30, R31, D7). -/
inductive AddrClass where
  | plain           -- storage: holds the last byte written, no side effect
  | special         -- a special-function register, which the spec does not describe
  | unimplemented   -- nothing is there
  deriving DecidableEq, Repr

/-- The IC bodies (part series) the spec names (R2); `other` is every other TM57 body. -/
inductive Body where
  | tm57fla80 | tm56ma40 | tm57ml40 | tm57ma40 | tm57ma41 | other
  deriving DecidableEq, Repr

/-- Which set a body implements: INSTB for the three named series, INSTA for every other body (R2). -/
def Body.iset : Body → ISet
  | .tm57fla80 => .b
  | .tm56ma40 => .b
  | .tm57ml40 => .b
  | .tm57ma40 => .a
  | .tm57ma41 => .a
  | .other => .a

/-- The series for which the spec says that TBLWL and TBLWH exist (R2 (c), R81). For a body not named there
HAS_DPTR is open. -/
def Body.namedForDptr : Body → Bool
  | .tm56ma40 => true
  | .tm57ma40 => true
  | .tm57ma41 => true
  | .tm57fla80 => false
  | .tm57ml40 => false
  | .other => false

/-- The implementation parameters of R4, which never change at run time. The two maps list the addresses that are
not Plain; an address not listed is Plain, so every map of R4 can be written. PC_HIGH_ON_JUMP is written as its
exceptions to decision D3 (log 12). FLAG_ALIAS is none (D8, log 13). -/
structure Part where
  /-- ISET -/
  iset : ISet
  /-- HAS_DPTR: TBLWL and TBLWH exist (R81). -/
  hasDptr : Bool
  /-- PCW -/
  pcw : PcWidth
  /-- ROM_SIZE: implemented program words are at 0 .. romSize - 1. -/
  romSize : Nat
  /-- STACK_DEPTH -/
  stackDepth : Nat
  /-- DPTR_MSB: the index of DPTR's top bit, 8 to 15 (D6). -/
  dptrMsb : Nat
  /-- DPH_ADDR -/
  dphAddr : BitVec 7
  /-- DPL_ADDR -/
  dplAddr : BitVec 7
  /-- FPLANE_MAP, its addresses that are not Plain. -/
  fplaneMap : List (BitVec 7 × AddrClass)
  /-- RPLANE_MAP, its addresses that are not Plain. -/
  rplaneMap : List (BitVec 8 × AddrClass)
  /-- RESET_VECTOR -/
  resetVector : PAddr
  /-- INT_VECTOR -/
  intVector : PAddr
  /-- GIE_RESET: a bit, or none for "unspecified" (D11). -/
  gieReset : Option Bool
  /-- WDTW: the width of the watchdog counter (D12). -/
  wdtw : Nat
  /-- WDT_ENABLED (D12). -/
  wdtEnabled : Bool
  /-- PC_HIGH_ON_JUMP, its exceptions to D3: for (address of the jump, k) the target's bits 15..12, of which the
  part uses those below PCW. -/
  pcHighOnJump : List ((PAddr × BitVec 12) × BitVec 4)
  deriving DecidableEq, Repr

/-- What a reset event leaves without a specified value (R210). -/
inductive Element where
  | w
  | fplane (a : BitVec 7)
  | rplane (a : BitVec 8)
  | z | c | dc | toFlag | pdFlag
  | gie          -- where GIE_RESET is unspecified (D11)
  | wdt
  deriving DecidableEq, Repr

/-- FREE VALUE (log 6): the byte an element holds after the reset event number `event`. -/
opaque Config.freeByte : (event : Nat) → Element → Byte

/-- FREE VALUE (log 6): the bit an element holds after the reset event number `event`. -/
opaque Config.freeBit : (event : Nat) → Element → Bool

/-- FREE VALUE (log 6): what the watchdog counter holds after the reset event number `event`, of which it
keeps WDTW bits. -/
opaque Config.freeCount : (event : Nat) → Nat

/-- The part of the reset state. DESIGN CHOICE (log 2): ISET and HAS_DPTR are those of the TM56MA40 series (R2), the
one named series that has every mnemonic of the list. PCW, ROM_SIZE, STACK_DEPTH, DPTR_MSB, DPH_ADDR, DPL_ADDR and the two
vectors are the ones the spec's own test vectors assume (95_test_vectors.md); every address is Plain, as there.
No statement about every state rests on it. -/
def Config.resetPart : Part where
  iset := Body.iset .tm56ma40
  hasDptr := Body.namedForDptr .tm56ma40
  pcw := .w12
  romSize := 0x1000
  stackDepth := 2
  dptrMsb := 11
  dphAddr := 0x2E
  dplAddr := 0x2F
  fplaneMap := []
  rplaneMap := []
  resetVector := 0x000
  intVector := 0x001
  gieReset := none
  wdtw := 8
  wdtEnabled := true
  pcHighOnJump := []

end Sys2Proof
end

