-- ==== Sys2Proof/Syntax.lean ====
section
/-! DEFINITION. The instructions: one constructor per row of spec/opcode_table.json, in the table's order
(spec/00_scope.md R3; spec/30_encoding.md R71, R72). -/

namespace Sys2Proof

/-- The `d` operand: where the result of a byte-oriented instruction goes (R72, R100). -/
inductive Dest where
  | w      -- d = 0: the W register
  | file   -- d = 1: the addressed F-plane register
  deriving DecidableEq, Repr

/-- One constructor per row of the opcode table. MOVWR, CLRWDT, SLEEP and XORLW have a row for each set (R3), whose
constructors end in A and B (log 11). -/
inductive Instr where
  -- byte-oriented file register instructions
  | addwf (f : BitVec 7) (d : Dest)
  | andwf (f : BitVec 7) (d : Dest)
  | clrf (f : BitVec 7)
  | clrw
  | comf (f : BitVec 7) (d : Dest)
  | decf (f : BitVec 7) (d : Dest)
  | decfsz (f : BitVec 7) (d : Dest)
  | incf (f : BitVec 7) (d : Dest)
  | incfsz (f : BitVec 7) (d : Dest)
  | iorwf (f : BitVec 7) (d : Dest)
  | movfw (f : BitVec 7)
  | movwf (f : BitVec 7)
  | movwrA (r : BitVec 6)
  | movwrB (r : BitVec 8)
  | rlf (f : BitVec 7) (d : Dest)
  | rrf (f : BitVec 7) (d : Dest)
  | subwf (f : BitVec 7) (d : Dest)
  | movrw (r : BitVec 8)
  | swapf (f : BitVec 7) (d : Dest)
  | testz (f : BitVec 7)
  | xorwf (f : BitVec 7) (d : Dest)
  -- bit-oriented file register instructions
  | bcf (f : BitVec 6) (b : BitVec 3)
  | bsf (f : BitVec 6) (b : BitVec 3)
  | btfsc (f : BitVec 6) (b : BitVec 3)
  | btfss (f : BitVec 6) (b : BitVec 3)
  -- literal and control instructions
  | addlw (k : BitVec 8)
  | andlw (k : BitVec 8)
  | call (k : BitVec 12)
  | clrwdtA
  | clrwdtB
  | goto (k : BitVec 12)
  | iorlw (k : BitVec 8)
  | movlw (k : BitVec 8)
  | nop
  | ret
  | reti
  | retlw (k : BitVec 8)
  | tblwl
  | tblwh
  | sleepA
  | sleepB
  | xorlwA (k : BitVec 8)
  | xorlwB (k : BitVec 8)
  deriving DecidableEq, Repr

end Sys2Proof
end

