-- ==== Sys2Proof/WellFormed.lean ====
section
/-! DEFINITION. Which instructions a part has, and which operands its encodings admit (spec/30_encoding.md R76, R81, R82).
The width checks of R86 are in the operands' types; its other range check is `Instr.assemblable`. -/

namespace Sys2Proof

/-- The instruction exists on a part with this ISET and HAS_DPTR and has a word of its own there: the row's set
column holds ISET (R77, R78), TBLWL and TBLWH need HAS_DPTR (R81), and MOVWR has no word for the r values whose
words are NOP, SLEEP and CLRWDT (R76, R82 (a)). -/
def Instr.wellFormed (iset : ISet) (hasDptr : Bool) : Instr → Bool
  | .movwrA r => iset == .a && r != 0x00 && r != 0x03 && r != 0x04
  | .movwrB r => iset == .b && r != 0x03 && r != 0x04
  | .movrw _ => iset == .b
  | .clrwdtA => iset == .a
  | .clrwdtB => iset == .b
  | .sleepA => iset == .a
  | .sleepB => iset == .b
  | .xorlwA _ => iset == .a
  | .xorlwB _ => iset == .b
  | .tblwl => hasDptr
  | .tblwh => hasDptr
  | .addwf _ _ | .andwf _ _ | .clrf _ | .clrw | .comf _ _ | .decf _ _ | .decfsz _ _ | .incf _ _ | .incfsz _ _
  | .iorwf _ _ | .movfw _ | .movwf _ | .rlf _ _ | .rrf _ _ | .subwf _ _ | .swapf _ _ | .testz _ | .xorwf _ _
  | .bcf _ _ | .bsf _ _ | .btfsc _ _ | .btfss _ _
  | .addlw _ | .andlw _ | .call _ | .goto _ | .iorlw _ | .movlw _ | .nop | .ret | .reti | .retlw _ => true

/-- The range an assembler must check beyond the widths of the operands: MOVRW's r is 20h..FFh (R82 (b), R86). A
word with a lower r still decodes and runs (D20). -/
def Instr.assemblable : Instr → Bool
  | .movrw r => decide (0x20 ≤ r.toNat)
  | .addwf _ _ | .andwf _ _ | .clrf _ | .clrw | .comf _ _ | .decf _ _ | .decfsz _ _ | .incf _ _ | .incfsz _ _
  | .iorwf _ _ | .movfw _ | .movwf _ | .movwrA _ | .movwrB _ | .rlf _ _ | .rrf _ _ | .subwf _ _ | .swapf _ _
  | .testz _ | .xorwf _ _ | .bcf _ _ | .bsf _ _ | .btfsc _ _ | .btfss _ _ | .addlw _ | .andlw _ | .call _
  | .clrwdtA | .clrwdtB | .goto _ | .iorlw _ | .movlw _ | .nop | .ret | .reti | .retlw _ | .tblwl | .tblwh
  | .sleepA | .sleepB | .xorlwA _ | .xorlwB _ => true

end Sys2Proof
end

