-- ==== Sys2Proof/Decode.lean ====
section
/-! DEFINITION. Decoding a 14-bit word and encoding an instruction (spec/30_encoding.md R70 to R82). `decode` follows the
opcode maps of R77 and R78; `decodeByTable` follows R76 over the rows of spec/opcode_table.json. -/

namespace Sys2Proof

/-- Why a word is no instruction. Both are safe: the step stops where the spec gives the word no effect (R79). -/
inductive DecodeError where
  | notOneWord (bits : Nat)         -- more than the 14 bits of an instruction (R70)
  | unassigned (word : ProgWord)    -- no row of the part's set matches (R79)
  deriving DecidableEq, Repr

/-! ### Fields (R71, R72, R74) -/

/-- `d`, bit 7: 0 is W, 1 is the register (R72). -/
def dField (w : ProgWord) : Dest := if w.getLsbD 7 then .file else .w
/-- `f` of formats BD and BF, bits 6..0. -/
def fField (w : ProgWord) : BitVec 7 := w.extractLsb' 0 7
/-- `f` of format BIT, bits 5..0. -/
def bitFField (w : ProgWord) : BitVec 6 := w.extractLsb' 0 6
/-- `b` of format BIT, bits 8..6. -/
def bField (w : ProgWord) : BitVec 3 := w.extractLsb' 6 3
/-- `r` of format R6, bits 5..0. -/
def r6Field (w : ProgWord) : BitVec 6 := w.extractLsb' 0 6
/-- `r` of format R8, bits 7..0. -/
def r8Field (w : ProgWord) : BitVec 8 := w.extractLsb' 0 8
/-- `k` of format K8, bits 7..0. -/
def k8Field (w : ProgWord) : BitVec 8 := w.extractLsb' 0 8
/-- `k` of format K12, bits 11..0. -/
def k12Field (w : ProgWord) : BitVec 12 := w.extractLsb' 0 12

/-! ### The decoder -/

/-- Words 0000h..00FFh (R77, R78). -/
def decodePage00 (iset : ISet) (hasDptr : Bool) (w : ProgWord) : Except DecodeError Instr :=
  if w.getLsbD 7 then .ok (.movwf (fField w))
  else if w = 0x0000 then .ok .nop
  else if w = 0x0040 then .ok .ret
  else if w = 0x0060 then .ok .reti
  else if w = 0x0050 then (if hasDptr then .ok .tblwl else .error (.unassigned w))
  else if w = 0x0058 then (if hasDptr then .ok .tblwh else .error (.unassigned w))
  else if w.getLsbD 6 then .error (.unassigned w)
  else match iset with
    | .a =>
      if w = 0x0003 then .ok .sleepA
      else if w = 0x0004 then .ok .clrwdtA
      else .ok (.movwrA (r6Field w))
    | .b => .error (.unassigned w)

/-- Words 0100h..01FFh (R77). -/
def decodePage01 (w : ProgWord) : Except DecodeError Instr :=
  if w.getLsbD 7 then .ok (.clrf (fField w))
  else if w = 0x0140 then .ok .clrw
  else .error (.unassigned w)

/-- Words 1D00h..1FFFh, where the two sets differ (R77, R78); `op` is bits 9..8. -/
def decodePage1D (iset : ISet) (op : BitVec 2) (w : ProgWord) : Except DecodeError Instr :=
  match iset with
  | .a => if op = 0b11#2 then .ok (.xorlwA (k8Field w)) else .error (.unassigned w)
  | .b =>
    if op = 0b01#2 then .ok (.xorlwB (k8Field w))
    else if op = 0b11#2 then .ok (.movrw (r8Field w))
    else if w = 0x1E03 then .ok .sleepB
    else if w = 0x1E04 then .ok .clrwdtB
    else .ok (.movwrB (r8Field w))

/-- The instruction a word is on a part with this ISET and HAS_DPTR, or the reason it is none: the opcode maps of
R77 and R78, read by bits 13..12 and then bits 13..8. -/
def decode (iset : ISet) (hasDptr : Bool) (w : ProgWord) : Except DecodeError Instr :=
  match w.extractLsb' 12 2 with
  | 0b10#2 => .ok (.call (k12Field w))
  | 0b11#2 => .ok (.goto (k12Field w))
  | _ =>
    match w.extractLsb' 8 5 with
    | 0b00000#5 => decodePage00 iset hasDptr w
    | 0b00001#5 => decodePage01 w
    | 0b00010#5 => .ok (.subwf (fField w) (dField w))
    | 0b00011#5 => .ok (.decf (fField w) (dField w))
    | 0b00100#5 => .ok (.iorwf (fField w) (dField w))
    | 0b00101#5 => .ok (.andwf (fField w) (dField w))
    | 0b00110#5 => .ok (.xorwf (fField w) (dField w))
    | 0b00111#5 => .ok (.addwf (fField w) (dField w))
    | 0b01000#5 => if w.getLsbD 7 then .ok (.testz (fField w)) else .ok (.movfw (fField w))
    | 0b01001#5 => .ok (.comf (fField w) (dField w))
    | 0b01010#5 => .ok (.incf (fField w) (dField w))
    | 0b01011#5 => .ok (.decfsz (fField w) (dField w))
    | 0b01100#5 => .ok (.rrf (fField w) (dField w))
    | 0b01101#5 => .ok (.rlf (fField w) (dField w))
    | 0b01110#5 => .ok (.swapf (fField w) (dField w))
    | 0b01111#5 => .ok (.incfsz (fField w) (dField w))
    | 0b10000#5 => .ok (.bcf (bitFField w) (bField w))
    | 0b10001#5 => .ok (.bcf (bitFField w) (bField w))
    | 0b10010#5 => .ok (.bsf (bitFField w) (bField w))
    | 0b10011#5 => .ok (.bsf (bitFField w) (bField w))
    | 0b10100#5 => .ok (.btfsc (bitFField w) (bField w))
    | 0b10101#5 => .ok (.btfsc (bitFField w) (bField w))
    | 0b10110#5 => .ok (.btfss (bitFField w) (bField w))
    | 0b10111#5 => .ok (.btfss (bitFField w) (bField w))
    | 0b11000#5 => .ok (.retlw (k8Field w))
    | 0b11001#5 => .ok (.movlw (k8Field w))
    | 0b11010#5 => .ok (.iorlw (k8Field w))
    | 0b11011#5 => .ok (.andlw (k8Field w))
    | 0b11100#5 => .ok (.addlw (k8Field w))
    | op => decodePage1D iset (op.extractLsb' 0 2) w

/-- `decode` for an instruction given as a number: an instruction has 14 bits and no more (R70). -/
def decodeBits (iset : ISet) (hasDptr : Bool) (bits : Nat) : Except DecodeError Instr :=
  if bits < 2 ^ 14 then decode iset hasDptr (BitVec.ofNat 14 bits) else .error (.notOneWord bits)

/-- The word is an instruction of the set, on a part that has TBLWL and TBLWH. -/
def assigned (iset : ISet) (w : ProgWord) : Bool :=
  match decode iset true w with
  | .ok _ => true
  | .error _ => false

/-- The other instruction set. -/
def ISet.other : ISet → ISet
  | .a => .b
  | .b => .a

/-- A set in which a word is an instruction: the set asked for where the word is one there, else the other set. A
part never changes its set (R80); this chooses the part that runs a given word (log 23). -/
def setFor (iset : ISet) (w : ProgWord) : ISet :=
  if assigned iset w then iset else if assigned iset.other w then iset.other else iset

/-- The instruction the decoder reads from a row's bits, for the host (log 23). One word is 14 bits, so nothing of it
lies above `nbits`. The word is read in the reset part's set where that set has it, else in the other set. -/
def decodeTableWord (_nbits w : Nat) : Option Instr :=
  match decodeBits (setFor Config.resetPart.iset (BitVec.ofNat 14 w)) true w with
  | .ok i => some i
  | .error _ => none

/-! ### The encoder -/

/-- The `d` bit (R72). -/
def Dest.bit : Dest → BitVec 1
  | .w => 0b0#1
  | .file => 0b1#1

/-- The word of an instruction: the OP-Code strings of the list, most significant bit first (R5, R71). -/
def encode : Instr → ProgWord
  | .addwf f d => 0b000111#6 ++ d.bit ++ f
  | .andwf f d => 0b000101#6 ++ d.bit ++ f
  | .clrf f => 0b0000011#7 ++ f
  | .clrw => 0b00000101000000#14
  | .comf f d => 0b001001#6 ++ d.bit ++ f
  | .decf f d => 0b000011#6 ++ d.bit ++ f
  | .decfsz f d => 0b001011#6 ++ d.bit ++ f
  | .incf f d => 0b001010#6 ++ d.bit ++ f
  | .incfsz f d => 0b001111#6 ++ d.bit ++ f
  | .iorwf f d => 0b000100#6 ++ d.bit ++ f
  | .movfw f => 0b0010000#7 ++ f
  | .movwf f => 0b0000001#7 ++ f
  | .movwrA r => 0b00000000#8 ++ r
  | .movwrB r => 0b011110#6 ++ r
  | .rlf f d => 0b001101#6 ++ d.bit ++ f
  | .rrf f d => 0b001100#6 ++ d.bit ++ f
  | .subwf f d => 0b000010#6 ++ d.bit ++ f
  | .movrw r => 0b011111#6 ++ r
  | .swapf f d => 0b001110#6 ++ d.bit ++ f
  | .testz f => 0b0010001#7 ++ f
  | .xorwf f d => 0b000110#6 ++ d.bit ++ f
  | .bcf f b => 0b01000#5 ++ b ++ f
  | .bsf f b => 0b01001#5 ++ b ++ f
  | .btfsc f b => 0b01010#5 ++ b ++ f
  | .btfss f b => 0b01011#5 ++ b ++ f
  | .addlw k => 0b011100#6 ++ k
  | .andlw k => 0b011011#6 ++ k
  | .call k => 0b10#2 ++ k
  | .clrwdtA => 0b00000000000100#14
  | .clrwdtB => 0b01111000000100#14
  | .goto k => 0b11#2 ++ k
  | .iorlw k => 0b011010#6 ++ k
  | .movlw k => 0b011001#6 ++ k
  | .nop => 0b00000000000000#14
  | .ret => 0b00000001000000#14
  | .reti => 0b00000001100000#14
  | .retlw k => 0b011000#6 ++ k
  | .tblwl => 0b00000001010000#14
  | .tblwh => 0b00000001011000#14
  | .sleepA => 0b00000000000011#14
  | .sleepB => 0b01111000000011#14
  | .xorlwA k => 0b011111#6 ++ k
  | .xorlwB k => 0b011101#6 ++ k

/-! ### The opcode table and the rule that reads it (R76) -/

/-- One row of spec/opcode_table.json: it matches a word when `word & mask = match`; `fixed` marks a FIX row, which
wins over a MOVWR row that matches the same word (R76, D13). -/
structure OpcodeRow where
  mnemonic : String
  pattern : Nat
  mask : Nat
  setA : Bool
  setB : Bool
  needsDptr : Bool
  fixed : Bool
  instr : ProgWord → Instr

/-- The rows of the byte-oriented file register instructions (40_byte_oriented.md). -/
def byteRows : List OpcodeRow := [
  ⟨"ADDWF", 0x0700, 0x3F00, true, true, false, false, fun w => .addwf (fField w) (dField w)⟩,
  ⟨"ANDWF", 0x0500, 0x3F00, true, true, false, false, fun w => .andwf (fField w) (dField w)⟩,
  ⟨"CLRF", 0x0180, 0x3F80, true, true, false, false, fun w => .clrf (fField w)⟩,
  ⟨"CLRW", 0x0140, 0x3FFF, true, true, false, true, fun _ => .clrw⟩,
  ⟨"COMF", 0x0900, 0x3F00, true, true, false, false, fun w => .comf (fField w) (dField w)⟩,
  ⟨"DECF", 0x0300, 0x3F00, true, true, false, false, fun w => .decf (fField w) (dField w)⟩,
  ⟨"DECFSZ", 0x0B00, 0x3F00, true, true, false, false, fun w => .decfsz (fField w) (dField w)⟩,
  ⟨"INCF", 0x0A00, 0x3F00, true, true, false, false, fun w => .incf (fField w) (dField w)⟩,
  ⟨"INCFSZ", 0x0F00, 0x3F00, true, true, false, false, fun w => .incfsz (fField w) (dField w)⟩,
  ⟨"IORWF", 0x0400, 0x3F00, true, true, false, false, fun w => .iorwf (fField w) (dField w)⟩,
  ⟨"MOVFW", 0x0800, 0x3F80, true, true, false, false, fun w => .movfw (fField w)⟩,
  ⟨"MOVWF", 0x0080, 0x3F80, true, true, false, false, fun w => .movwf (fField w)⟩,
  ⟨"MOVWR", 0x0000, 0x3FC0, true, false, false, false, fun w => .movwrA (r6Field w)⟩,
  ⟨"MOVWR", 0x1E00, 0x3F00, false, true, false, false, fun w => .movwrB (r8Field w)⟩,
  ⟨"RLF", 0x0D00, 0x3F00, true, true, false, false, fun w => .rlf (fField w) (dField w)⟩,
  ⟨"RRF", 0x0C00, 0x3F00, true, true, false, false, fun w => .rrf (fField w) (dField w)⟩,
  ⟨"SUBWF", 0x0200, 0x3F00, true, true, false, false, fun w => .subwf (fField w) (dField w)⟩,
  ⟨"MOVRW", 0x1F00, 0x3F00, false, true, false, false, fun w => .movrw (r8Field w)⟩,
  ⟨"SWAPF", 0x0E00, 0x3F00, true, true, false, false, fun w => .swapf (fField w) (dField w)⟩,
  ⟨"TESTZ", 0x0880, 0x3F80, true, true, false, false, fun w => .testz (fField w)⟩,
  ⟨"XORWF", 0x0600, 0x3F00, true, true, false, false, fun w => .xorwf (fField w) (dField w)⟩]

/-- The rows of the bit-oriented file register instructions (41_bit_oriented.md). -/
def bitRows : List OpcodeRow := [
  ⟨"BCF", 0x1000, 0x3E00, true, true, false, false, fun w => .bcf (bitFField w) (bField w)⟩,
  ⟨"BSF", 0x1200, 0x3E00, true, true, false, false, fun w => .bsf (bitFField w) (bField w)⟩,
  ⟨"BTFSC", 0x1400, 0x3E00, true, true, false, false, fun w => .btfsc (bitFField w) (bField w)⟩,
  ⟨"BTFSS", 0x1600, 0x3E00, true, true, false, false, fun w => .btfss (bitFField w) (bField w)⟩]

/-- The rows of the literal and control instructions (42_literal_control.md). -/
def literalRows : List OpcodeRow := [
  ⟨"ADDLW", 0x1C00, 0x3F00, true, true, false, false, fun w => .addlw (k8Field w)⟩,
  ⟨"ANDLW", 0x1B00, 0x3F00, true, true, false, false, fun w => .andlw (k8Field w)⟩,
  ⟨"CALL", 0x2000, 0x3000, true, true, false, false, fun w => .call (k12Field w)⟩,
  ⟨"CLRWDT", 0x0004, 0x3FFF, true, false, false, true, fun _ => .clrwdtA⟩,
  ⟨"CLRWDT", 0x1E04, 0x3FFF, false, true, false, true, fun _ => .clrwdtB⟩,
  ⟨"GOTO", 0x3000, 0x3000, true, true, false, false, fun w => .goto (k12Field w)⟩,
  ⟨"IORLW", 0x1A00, 0x3F00, true, true, false, false, fun w => .iorlw (k8Field w)⟩,
  ⟨"MOVLW", 0x1900, 0x3F00, true, true, false, false, fun w => .movlw (k8Field w)⟩,
  ⟨"NOP", 0x0000, 0x3FFF, true, true, false, true, fun _ => .nop⟩,
  ⟨"RET", 0x0040, 0x3FFF, true, true, false, true, fun _ => .ret⟩,
  ⟨"RETI", 0x0060, 0x3FFF, true, true, false, true, fun _ => .reti⟩,
  ⟨"RETLW", 0x1800, 0x3F00, true, true, false, false, fun w => .retlw (k8Field w)⟩,
  ⟨"TBLWL", 0x0050, 0x3FFF, true, true, true, true, fun _ => .tblwl⟩,
  ⟨"TBLWH", 0x0058, 0x3FFF, true, true, true, true, fun _ => .tblwh⟩,
  ⟨"SLEEP", 0x0003, 0x3FFF, true, false, false, true, fun _ => .sleepA⟩,
  ⟨"SLEEP", 0x1E03, 0x3FFF, false, true, false, true, fun _ => .sleepB⟩,
  ⟨"XORLW", 0x1F00, 0x3F00, true, false, false, false, fun w => .xorlwA (k8Field w)⟩,
  ⟨"XORLW", 0x1D00, 0x3F00, false, true, false, false, fun w => .xorlwB (k8Field w)⟩]

/-- All 43 rows. -/
def opcodeRows : List OpcodeRow := byteRows ++ bitRows ++ literalRows

/-- The row belongs to the part's set, and the part has what the row needs (R76). -/
def OpcodeRow.considered (row : OpcodeRow) (iset : ISet) (hasDptr : Bool) : Bool :=
  (match iset with
    | .a => row.setA
    | .b => row.setB) && (!row.needsDptr || hasDptr)

/-- `word & mask = match` (R76). -/
def OpcodeRow.matchesWord (row : OpcodeRow) (w : ProgWord) : Bool := w.toNat &&& row.mask == row.pattern

/-- The rows of the part's set that match a word. -/
def matchingRows (iset : ISet) (hasDptr : Bool) (w : ProgWord) : List OpcodeRow :=
  opcodeRows.filter fun row => row.matchesWord w && row.considered iset hasDptr

/-- Decoding as R76 words it: no matching row, the word is unassigned; one, that is the instruction; more than one,
the FIX row wins. -/
def decodeByTable (iset : ISet) (hasDptr : Bool) (w : ProgWord) : Except DecodeError Instr :=
  match matchingRows iset hasDptr w with
  | [] => .error (.unassigned w)
  | [row] => .ok (row.instr w)
  | rows =>
    match rows.find? OpcodeRow.fixed with
    | some row => .ok (row.instr w)
    | none => .error (.unassigned w)

end Sys2Proof
end

