-- ==== Sys2Proof/Machine/State.lean ====
section
/-! DEFINITION. The machine's state, all of it plain data, the reasons a step can stop, and the state after reset
(spec/10_state.md R20 to R36; spec/60_exceptions.md R181). -/

namespace Sys2Proof.Machine

/-- The run mode (R29): "CPU RUN" and "CPU STOP". -/
inductive Mode where
  | run
  | sleep
  deriving DecidableEq, Repr

/-- The two register planes (R30, R31). -/
inductive Plane where
  | f
  | r
  deriving DecidableEq, Repr

/-- Whether an access reads or writes (R181 records it). -/
inductive Access where
  | read
  | write
  deriving DecidableEq, Repr

/-- A sparse memory: (address, value) pairs. In its canonical form (`Memory.wf`) the addresses rise strictly and no
entry holds 0, which is what an unlisted address reads as (log 4, log 5). `Memory 8` is a list of `Host.Cell`. -/
abbrev Memory (width : Nat) := List (Nat × BitVec width)

/-- What the environment presents at one instruction boundary (R186, R190, R192, R194, log 7, log 8). -/
structure Input where
  /-- A reset event (R210). -/
  reset : Bool
  /-- A watchdog event, which a part with WDT_ENABLED can have (R192). -/
  watchdog : Bool
  /-- `IrqRequest` (R186). -/
  irq : Bool
  /-- A wake-up event (R194). -/
  wake : Bool
  /-- What the watchdog's own counting has brought WDT to, or none where it left WDT alone (R28, R192). -/
  wdtCount : Option Nat
  deriving DecidableEq, Repr

/-- The boundary at which nothing is asserted. -/
def Input.quiet : Input := ⟨false, false, false, false, none⟩

/-- The machine's whole state. -/
structure State where
  /-- The part's parameters (R4). No step changes them (R80, log 1). -/
  part : Part
  /-- ROM, program memory (R32). No instruction writes it (R53, R62). -/
  rom : Memory 14
  /-- W, the working register (R21). -/
  w : Byte
  /-- PC; its bits from PCW up are zero (R22). -/
  pc : PAddr
  /-- STK, the stack of return addresses, head = TOS (R23). -/
  stk : List PAddr
  /-- Z, the zero flag (R24). -/
  z : Bool
  /-- C, the carry flag (R24). -/
  c : Bool
  /-- DC, the decimal carry flag (R24). -/
  dc : Bool
  /-- TO (R25). -/
  toFlag : Bool
  /-- PD (R25). -/
  pdFlag : Bool
  /-- GIE, the global interrupt enable (R26). -/
  gie : Bool
  /-- WDT, the watchdog's counter, below 2^WDTW (R28). -/
  wdt : Nat
  /-- The run mode (R29). -/
  mode : Mode
  /-- The F-plane, addresses 00h..7Fh (R30). DPH and DPL are the bytes at DPH_ADDR and DPL_ADDR (R33). -/
  fplane : Memory 8
  /-- The R-plane, addresses 00h..FFh (R31). -/
  rplane : Memory 8
  /-- What the environment presents at the coming boundaries, the next one first. After the list's end nothing is
  asserted (log 7). -/
  env : List Input
  /-- The model's own field (log 6): how many reset events have happened, which selects the free values the next
  one leaves. -/
  resetCount : Nat
  deriving DecidableEq, Repr

/-- Why a step stops. These are the faults of the spec's model (R180, R181); the hardware has no handler for them,
and a faulting step writes nothing (R183). All are safe: the model stops where the spec gives no effect. -/
inductive Fault where
  /-- Instruction fetch, when PC is not below ROM_SIZE (R52, D4). Safe. -/
  | fetchOutOfRange (pc : PAddr)
  /-- Decoding, when the fetched word is unassigned for the part (R79, D2). Safe. -/
  | illegalInstruction (pc : PAddr) (word : ProgWord)
  /-- An access to a plane address that the part's map calls Special or Unimplemented (R50, R51, D7). Safe. -/
  | registerNotModelled (plane : Plane) (addr : Nat) (access : Access)
  /-- TBLWL and TBLWH, when DPTR is not below ROM_SIZE (R52, D4). Safe. -/
  | romReadOutOfRange (addr : PAddr)
  /-- CALL and interrupt entry, when the stack holds STACK_DEPTH entries (R23, D5). Safe. -/
  | stackOverflow (pc : PAddr)
  /-- RET, RETI and RETLW, when the stack is empty (R23, D5). Safe. -/
  | stackUnderflow (pc : PAddr)
  deriving DecidableEq, Repr

/-- Why an instruction has no meaning. -/
inductive Refusal where
  /-- Raised by an arm of `exec` whose instruction has no meaning yet; none is left. Safe. -/
  | notModelled (mnemonic : String)
  deriving DecidableEq, Repr

/-- The outcome of a step. -/
abbrev Out := Host.Outcome State Fault Refusal

/-- The machine right after reset (R36, R210): PC at RESET_VECTOR, the stack empty, mode Run, as the spec says. The
spec leaves W, the flags, GIE, WDT and both planes unspecified; the model's values are zero (DESIGN CHOICE, log 3,
log 4). The part is log 2, the memory with nothing listed log 5, the quiet environment log 7. -/
def State.reset : State where
  part := Config.resetPart
  rom := []
  w := 0
  pc := Config.resetPart.resetVector
  stk := []
  z := false
  c := false
  dc := false
  toFlag := false
  pdFlag := false
  gie := false
  wdt := 0
  mode := .run
  fplane := []
  rplane := []
  env := []
  resetCount := 0

end Sys2Proof.Machine
end

