-- ==== Sys2Proof/Machine/Flags.lean ====
section
/-! DEFINITION. Every flag computation of the spec (spec/00_scope.md R9; spec/10_state.md R24, R25). -/

namespace Sys2Proof.Machine

/-- The result of `Add8` (R9). -/
structure Sum8 where
  res : Byte
  c : Bool
  dc : Bool
  deriving DecidableEq, Repr

/-- `Add8(a, b, cin)` (R9): C is the carry out of the 9-bit sum, DC that of the 5-bit sum of the low nibbles. -/
def add8 (a b : Byte) (cin : BitVec 1) : Sum8 :=
  let s9 : BitVec 9 := a.zeroExtend 9 + b.zeroExtend 9 + cin.zeroExtend 9
  let s5 : BitVec 5 := (a.extractLsb' 0 4).zeroExtend 5 + (b.extractLsb' 0 4).zeroExtend 5 + cin.zeroExtend 5
  { res := s9.extractLsb' 0 8, c := s9.getLsbD 8, dc := s5.getLsbD 4 }

/-- a - b by the two's complement method, `Add8(a, ~b, 1)` (R9, R117). -/
def sub8 (a b : Byte) : Sum8 := add8 a (~~~b) 1#1

/-- `Z <- (v = 0)` (R101). -/
def isZero (v : Byte) : Bool := v == 0

/-- Which of Z, C and DC an instruction writes, and with what; `none` leaves the flag unchanged (R24, R101). -/
structure FlagWrite where
  z : Option Bool
  c : Option Bool
  dc : Option Bool
  deriving DecidableEq, Repr

/-- No flag is written. -/
def FlagWrite.nothing : FlagWrite := ⟨none, none, none⟩

/-- Z alone, by the result (R24). -/
def FlagWrite.zero (res : Byte) : FlagWrite := ⟨some (isZero res), none, none⟩

/-- C alone, as RLF and RRF write it (R24). -/
def FlagWrite.carry (c : Bool) : FlagWrite := ⟨none, some c, none⟩

/-- Z, C and DC of an addition or subtraction (R24). -/
def FlagWrite.arith (s : Sum8) : FlagWrite := ⟨some (isZero s.res), some s.c, some s.dc⟩

end Sys2Proof.Machine
end

