-- ==== Sys2Proof/Machine/Ops.lean ====
section
/-! DEFINITION. The named operations over memory, registers, PC and the stack, and interrupt entry with its return
(spec/20_memory.md R50 to R52; spec/10_state.md R22, R23; spec/60_exceptions.md R187). -/

namespace Sys2Proof.Machine

/-! ### Sparse memory -/

/-- What an address holds; an unlisted address reads as 0 (log 4, log 5). -/
def Memory.read {n : Nat} : Memory n → Nat → BitVec n
  | [], _ => 0#n
  | (k, v) :: m, a => if k = a then v else Memory.read m a

/-- Put an entry before the first entry of a higher address; a zero is not listed. -/
def Memory.insert {n : Nat} : Memory n → Nat → BitVec n → Memory n
  | [], a, v => if v = 0#n then [] else [(a, v)]
  | (k, x) :: m, a, v =>
    if a < k then (if v = 0#n then (k, x) :: m else (a, v) :: (k, x) :: m)
    else (k, x) :: Memory.insert m a v

/-- Store a value; the canonical form is kept. -/
def Memory.write {n : Nat} (m : Memory n) (a : Nat) (v : BitVec n) : Memory n :=
  Memory.insert (m.filter fun cell => cell.1 != a) a v

/-- Strictly rising addresses from `lo` on, all below `size`, and no entry that holds 0. -/
def Memory.wfFrom {n : Nat} : Memory n → (lo size : Nat) → Bool
  | [], _, _ => true
  | (k, v) :: m, lo, size => decide (lo ≤ k) && decide (k < size) && v != 0#n && Memory.wfFrom m (k + 1) size

/-- The canonical form of a memory of `size` addresses. -/
def Memory.wf {n : Nat} (m : Memory n) (size : Nat) : Bool := Memory.wfFrom m 0 size

/-- The canonical memory that holds `g a` at each address `lo ≤ a < lo + count`. -/
def Memory.ofFun {n : Nat} (g : Nat → BitVec n) : (lo count : Nat) → Memory n
  | _, 0 => []
  | lo, count + 1 =>
    if g lo = 0#n then Memory.ofFun g (lo + 1) count else (lo, g lo) :: Memory.ofFun g (lo + 1) count

/-! ### Single updates of the state -/

/-- W <- v. -/
def State.setW (s : State) (v : Byte) : State := { s with w := v }
/-- PC <- a. -/
def State.setPc (s : State) (a : PAddr) : State := { s with pc := a }
/-- STK <- l. -/
def State.setStk (s : State) (l : List PAddr) : State := { s with stk := l }
/-- Write the flags an instruction writes and leave the others (R101). -/
def State.setFlags (s : State) (u : FlagWrite) : State :=
  { s with z := u.z.getD s.z, c := u.c.getD s.c, dc := u.dc.getD s.dc }
/-- TO <- t; PD <- p (R25). -/
def State.setToPd (s : State) (t p : Bool) : State := { s with toFlag := t, pdFlag := p }
/-- GIE <- b. -/
def State.setGie (s : State) (b : Bool) : State := { s with gie := b }
/-- WDT <- n. -/
def State.setWdt (s : State) (n : Nat) : State := { s with wdt := n }
/-- mode <- m. -/
def State.setMode (s : State) (m : Mode) : State := { s with mode := m }
/-- F[a] <- v, the storage alone. -/
def State.setF (s : State) (a : BitVec 7) (v : Byte) : State := { s with fplane := Memory.write s.fplane a.toNat v }
/-- R[a] <- v, the storage alone. -/
def State.setR (s : State) (a : BitVec 8) (v : Byte) : State := { s with rplane := Memory.write s.rplane a.toNat v }

/-! ### The register planes (R50, R51) -/

/-- The byte F[a] holds. -/
def State.f (s : State) (a : BitVec 7) : Byte := Memory.read s.fplane a.toNat

/-- The byte R[a] holds. -/
def State.r (s : State) (a : BitVec 8) : Byte := Memory.read s.rplane a.toNat

/-- What an F-plane address is: DPH_ADDR and DPL_ADDR are storage whatever FPLANE_MAP says (R50). -/
def State.fClass (s : State) (a : BitVec 7) : AddrClass :=
  if a = s.part.dphAddr ∨ a = s.part.dplAddr then .plain
  else (s.part.fplaneMap.lookup a).getD .plain

/-- What an R-plane address is (R51). -/
def State.rClass (s : State) (a : BitVec 8) : AddrClass := (s.part.rplaneMap.lookup a).getD .plain

/-- `FRead(a)`, then `k` with the byte read (R50). -/
def State.fRead (s : State) (a : BitVec 7) (k : Byte → Out) : Out :=
  match s.fClass a with
  | .plain => k (s.f a)
  | .special => .fault (.registerNotModelled .f a.toNat .read)
  | .unimplemented => .fault (.registerNotModelled .f a.toNat .read)

/-- `FWrite(a, v)`, then `k` with the state written (R50). -/
def State.fWrite (s : State) (a : BitVec 7) (v : Byte) (k : State → Out) : Out :=
  match s.fClass a with
  | .plain => k (s.setF a v)
  | .special => .fault (.registerNotModelled .f a.toNat .write)
  | .unimplemented => .fault (.registerNotModelled .f a.toNat .write)

/-- `RRead(a)`, then `k` with the byte read (R51). -/
def State.rRead (s : State) (a : BitVec 8) (k : Byte → Out) : Out :=
  match s.rClass a with
  | .plain => k (s.r a)
  | .special => .fault (.registerNotModelled .r a.toNat .read)
  | .unimplemented => .fault (.registerNotModelled .r a.toNat .read)

/-- `RWrite(a, v)`, then `k` with the state written (R51). -/
def State.rWrite (s : State) (a : BitVec 8) (v : Byte) (k : State → Out) : Out :=
  match s.rClass a with
  | .plain => k (s.setR a v)
  | .special => .fault (.registerNotModelled .r a.toNat .write)
  | .unimplemented => .fault (.registerNotModelled .r a.toNat .write)

/-! ### Program memory (R52) and PC (R22) -/

/-- The word at a program address. -/
def State.romWord (s : State) (a : PAddr) : ProgWord := Memory.read s.rom a.toNat

/-- The low PCW bits of a number, as a program address. -/
def State.toPAddr (s : State) (n : Nat) : PAddr := BitVec.ofNat 16 (n % 2 ^ s.part.pcw.bits)

/-- PC + n modulo 2^PCW (R22, D14). -/
def State.pcPlus (s : State) (n : Nat) : PAddr := s.toPAddr (s.pc.toNat + n)

/-- `pc <- PC + 1` (R22). -/
def State.advance (s : State) : State := s.setPc (s.pcPlus 1)

/-- A skip instruction's end: PC + 2 when the skip is taken, PC + 1 when not. The skipped word is not read (R140,
D19). -/
def State.advanceSkip (s : State) (skip : Bool) : State := s.setPc (s.pcPlus (if skip then 2 else 1))

/-- The target of CALL or GOTO (R153, R155): k in bits 11..0; above them PC_HIGH_ON_JUMP, which keeps the bits of
the jump's own address unless the part says otherwise (D3, log 12). -/
def State.jumpTarget (s : State) (k : BitVec 12) : PAddr :=
  let high : BitVec 4 := (s.part.pcHighOnJump.lookup (s.pc, k)).getD (s.pc.extractLsb' 12 4)
  s.toPAddr (high ++ k).toNat

/-! ### The stack (R23) -/

/-- `Push(a)`, then `k` with the state pushed. -/
def State.push (s : State) (a : PAddr) (k : State → Out) : Out :=
  if s.part.stackDepth ≤ s.stk.length then .fault (.stackOverflow s.pc) else k (s.setStk (a :: s.stk))

/-- `Pop()`, then `k` with the address popped and the state after it. -/
def State.pop (s : State) (k : PAddr → State → Out) : Out :=
  match s.stk with
  | [] => .fault (.stackUnderflow s.pc)
  | a :: rest => k a (s.setStk rest)

/-! ### Interrupt entry and the returns (R159, R160, R187) -/

/-- Interrupt entry (R187): the address of the instruction that would have run next is pushed, GIE is cleared, PC
goes to INT_VECTOR; nothing else changes (R188). -/
def interruptEntry (s : State) : Out := s.push s.pc fun t => .next ((t.setGie false).setPc t.part.intVector)

/-- `pc <- Pop()` (R159): the return of RET, RETLW and RETI; `k` does what else the instruction does. -/
def State.popPc (s : State) (k : State → State) : Out := s.pop fun a t => .next (k (t.setPc a))

end Sys2Proof.Machine
end

