-- ==== Sys2Proof/Machine/Operands.lean ====
section
/-! DEFINITION. The operand forms and the shapes of an instruction that its operands give
(spec/40_byte_oriented.md R100; spec/41_bit_oriented.md R139; spec/42_literal_control.md R150; spec/10_state.md R33). -/

namespace Sys2Proof.Machine

/-- `Dest(d, f) <- v`, then `k` (R100): the register not chosen keeps its value. -/
def State.toDest (s : State) (d : Dest) (f : BitVec 7) (v : Byte) (k : State → Out) : Out :=
  match d with
  | .w => k (s.setW v)
  | .file => s.fWrite f v k

/-- A byte-oriented instruction of format BD: read F[f], put `res` where d says, write the flags, `pc <- PC + 1`
(R100, R101). -/
def State.byteOriented (s : State) (f : BitVec 7) (d : Dest) (res : Byte → Byte) (flags : Byte → FlagWrite) : Out :=
  s.fRead f fun v => s.toDest d f (res v) fun t => .next ((t.setFlags (flags v)).advance)

/-- DECFSZ and INCFSZ: as `byteOriented` with no flag written, and the next instruction is skipped when the result
is 0 (R108, R110). -/
def State.byteSkip (s : State) (f : BitVec 7) (d : Dest) (res : Byte → Byte) : Out :=
  s.fRead f fun v => s.toDest d f (res v) fun t => .next (t.advanceSkip (isZero (res v)))

/-- The F-plane address of a bit instruction's 6-bit `f` (R139). -/
def bitAddr (f : BitVec 6) : BitVec 7 := f.zeroExtend 7

/-- `1 << b` (R141, R142). -/
def bitMask (b : BitVec 3) : Byte := 1#8 <<< b.toNat

/-- BCF and BSF: read the register and write it back whole with `op` of it (R56, R141, R142). -/
def State.bitWrite (s : State) (f : BitVec 6) (op : Byte → Byte) : Out :=
  s.fRead (bitAddr f) fun v => s.fWrite (bitAddr f) (op v) fun t => .next t.advance

/-- BTFSC and BTFSS: read the register and skip when bit b is `skipOn` (R140, R143, R144). -/
def State.bitTest (s : State) (f : BitVec 6) (b : BitVec 3) (skipOn : Bool) : Out :=
  s.fRead (bitAddr f) fun v => .next (s.advanceSkip (v.getLsbD b.toNat == skipOn))

/-- A literal instruction that ends in W: `W <- res`, the flags, `pc <- PC + 1` (R150). -/
def State.literal (s : State) (res : Byte) (flags : FlagWrite) : Out :=
  .next (((s.setW res).setFlags flags).advance)

/-- `RWrite(r, W)` (R114). -/
def State.moveWToR (s : State) (r : BitVec 8) : Out := s.rWrite r s.w fun t => .next t.advance

/-- DPTR of the bytes of DPH and DPL (R33): DPL is the low byte, the low DPTR_MSB - 7 bits of DPH are above it; a
DPTR wider than PC keeps its low PCW bits (R52). -/
def State.dptr (s : State) (dph dpl : Byte) : PAddr :=
  s.toPAddr ((dph.toNat % 2 ^ (s.part.dptrMsb - 7)) * 256 + dpl.toNat)

/-- TBLWL and TBLWH: read DPH and DPL, read the program word at DPTR, put `pick` of it into W (R162, R163). -/
def State.tableRead (s : State) (pick : ProgWord → Byte) : Out :=
  s.fRead s.part.dphAddr fun dph => s.fRead s.part.dplAddr fun dpl =>
    let a := s.dptr dph dpl
    if a.toNat < s.part.romSize then .next ((s.setW (pick (s.romWord a))).advance)
    else .fault (.romReadOutOfRange a)

/-- CLRWDT (R154). -/
def State.clearWatchdog (s : State) : Out := .next (((s.setWdt 0).setToPd false false).advance)

/-- SLEEP (R164): PC already points at the following instruction when the core stops (D17); WDT is not written
(D24). -/
def State.enterSleep (s : State) : Out := .next (((s.setToPd false true).setMode .sleep).advance)

/-- XORLW (R165). -/
def State.xorLiteral (s : State) (k : Byte) : Out := s.literal (s.w ^^^ k) (.zero (s.w ^^^ k))

end Sys2Proof.Machine
end

