-- ==== Sys2Proof/Machine/BitOriented.lean ====
section
/-! DEFINITION. The meanings of the bit-oriented file register instructions (spec/41_bit_oriented.md R139 to R144). -/

namespace Sys2Proof.Machine

/-- BCF f,b (R141). -/
def execBcf (f : BitVec 6) (b : BitVec 3) (s : State) : Out := s.bitWrite f fun v => v &&& ~~~(bitMask b)

/-- BSF f,b (R142). -/
def execBsf (f : BitVec 6) (b : BitVec 3) (s : State) : Out := s.bitWrite f fun v => v ||| bitMask b

/-- BTFSC f,b (R143): skip if clear. -/
def execBtfsc (f : BitVec 6) (b : BitVec 3) (s : State) : Out := s.bitTest f b false

/-- BTFSS f,b (R144): skip if set. -/
def execBtfss (f : BitVec 6) (b : BitVec 3) (s : State) : Out := s.bitTest f b true

end Sys2Proof.Machine
end

