-- ==== Sys2Proof/Machine/ByteOriented.lean ====
section
/-! DEFINITION. The meanings of the byte-oriented file register instructions (spec/40_byte_oriented.md R102 to R121). -/

namespace Sys2Proof.Machine

/-- ADDWF f,d (R102). -/
def execAddwf (f : BitVec 7) (d : Dest) (s : State) : Out :=
  s.byteOriented f d (fun v => (add8 v s.w 0#1).res) fun v => .arith (add8 v s.w 0#1)

/-- ANDWF f,d (R103). -/
def execAndwf (f : BitVec 7) (d : Dest) (s : State) : Out :=
  s.byteOriented f d (fun v => s.w &&& v) fun v => .zero (s.w &&& v)

/-- CLRF f (R104): the register is not read. -/
def execClrf (f : BitVec 7) (s : State) : Out :=
  s.fWrite f 0 fun t => .next ((t.setFlags (.zero 0)).advance)

/-- CLRW (R105). -/
def execClrw (s : State) : Out := s.literal 0 (.zero 0)

/-- COMF f,d (R106). -/
def execComf (f : BitVec 7) (d : Dest) (s : State) : Out :=
  s.byteOriented f d (fun v => ~~~v) fun v => .zero (~~~v)

/-- DECF f,d (R107). -/
def execDecf (f : BitVec 7) (d : Dest) (s : State) : Out :=
  s.byteOriented f d (fun v => v - 1) fun v => .zero (v - 1)

/-- DECFSZ f,d (R108). -/
def execDecfsz (f : BitVec 7) (d : Dest) (s : State) : Out := s.byteSkip f d fun v => v - 1

/-- INCF f,d (R109). -/
def execIncf (f : BitVec 7) (d : Dest) (s : State) : Out :=
  s.byteOriented f d (fun v => v + 1) fun v => .zero (v + 1)

/-- INCFSZ f,d (R110). -/
def execIncfsz (f : BitVec 7) (d : Dest) (s : State) : Out := s.byteSkip f d fun v => v + 1

/-- IORWF f,d (R111). -/
def execIorwf (f : BitVec 7) (d : Dest) (s : State) : Out :=
  s.byteOriented f d (fun v => s.w ||| v) fun v => .zero (s.w ||| v)

/-- MOVFW f (R112): no flag. -/
def execMovfw (f : BitVec 7) (s : State) : Out := s.fRead f fun v => .next ((s.setW v).advance)

/-- MOVWF f (R113): no flag, the register is not read. -/
def execMovwf (f : BitVec 7) (s : State) : Out := s.fWrite f s.w fun t => .next t.advance

/-- MOVWR r of set A, a 6-bit r (R114). -/
def execMovwrA (r : BitVec 6) (s : State) : Out := s.moveWToR (r.zeroExtend 8)

/-- MOVWR r of set B, an 8-bit r (R114). -/
def execMovwrB (r : BitVec 8) (s : State) : Out := s.moveWToR r

/-- RLF f,d (R115): the old C enters bit 0, the old bit 7 becomes C. -/
def execRlf (f : BitVec 7) (d : Dest) (s : State) : Out :=
  s.byteOriented f d (fun v => v.extractLsb' 0 7 ++ BitVec.ofBool s.c) fun v => .carry (v.getLsbD 7)

/-- RRF f,d (R116): the old C enters bit 7, the old bit 0 becomes C. -/
def execRrf (f : BitVec 7) (d : Dest) (s : State) : Out :=
  s.byteOriented f d (fun v => BitVec.ofBool s.c ++ v.extractLsb' 1 7) fun v => .carry (v.getLsbD 0)

/-- SUBWF f,d (R117): f - W. -/
def execSubwf (f : BitVec 7) (d : Dest) (s : State) : Out :=
  s.byteOriented f d (fun v => (sub8 v s.w).res) fun v => .arith (sub8 v s.w)

/-- MOVRW r of set B (R118): an r below 20h behaves by RPLANE_MAP like any other (R82 (b), D20). -/
def execMovrw (r : BitVec 8) (s : State) : Out := s.rRead r fun v => .next ((s.setW v).advance)

/-- SWAPF f,d (R119): no flag. -/
def execSwapf (f : BitVec 7) (d : Dest) (s : State) : Out :=
  s.byteOriented f d (fun v => v.extractLsb' 0 4 ++ v.extractLsb' 4 4) fun _ => .nothing

/-- TESTZ f (R120): Z is cleared where the register is not zero (D15, log 16). -/
def execTestz (f : BitVec 7) (s : State) : Out := s.fRead f fun v => .next ((s.setFlags (.zero v)).advance)

/-- XORWF f,d (R121). -/
def execXorwf (f : BitVec 7) (d : Dest) (s : State) : Out :=
  s.byteOriented f d (fun v => s.w ^^^ v) fun v => .zero (s.w ^^^ v)

end Sys2Proof.Machine
end

