-- ==== Sys2Proof/Machine/LiteralControl.lean ====
section
/-! DEFINITION. The meanings of the literal and control instructions (spec/42_literal_control.md R151 to R165). -/

namespace Sys2Proof.Machine

/-- ADDLW k (R151). -/
def execAddlw (k : BitVec 8) (s : State) : Out := s.literal (add8 s.w k 0#1).res (.arith (add8 s.w k 0#1))

/-- ANDLW k (R152). -/
def execAndlw (k : BitVec 8) (s : State) : Out := s.literal (s.w &&& k) (.zero (s.w &&& k))

/-- CALL k (R153): the return address is computed and pushed before PC changes. -/
def execCall (k : BitVec 12) (s : State) : Out := s.push (s.pcPlus 1) fun t => .next (t.setPc (s.jumpTarget k))

/-- CLRWDT of set A (R154). -/
def execClrwdtA (s : State) : Out := s.clearWatchdog

/-- CLRWDT of set B (R154). -/
def execClrwdtB (s : State) : Out := s.clearWatchdog

/-- GOTO k (R155). -/
def execGoto (k : BitVec 12) (s : State) : Out := .next (s.setPc (s.jumpTarget k))

/-- IORLW k (R156). -/
def execIorlw (k : BitVec 8) (s : State) : Out := s.literal (s.w ||| k) (.zero (s.w ||| k))

/-- MOVLW k (R157): no flag. -/
def execMovlw (k : BitVec 8) (s : State) : Out := s.literal k .nothing

/-- NOP (R158). -/
def execNop (s : State) : Out := .next s.advance

/-- RET (R159). -/
def execRet (s : State) : Out := s.popPc fun t => t

/-- RETI (R160): the return from an interrupt, which also sets GIE. -/
def execReti (s : State) : Out := s.popPc fun t => t.setGie true

/-- RETLW k (R161): on an empty stack W is not written either. -/
def execRetlw (k : BitVec 8) (s : State) : Out := s.popPc fun t => t.setW k

/-- TBLWL (R162): bits 7..0 of the program word. -/
def execTblwl (s : State) : Out := s.tableRead fun w => w.extractLsb' 0 8

/-- TBLWH (R163): bits 13..8 of the program word, with W's bits 7..6 zero (R54). -/
def execTblwh (s : State) : Out := s.tableRead fun w => (w.extractLsb' 8 6).zeroExtend 8

/-- SLEEP of set A (R164). -/
def execSleepA (s : State) : Out := s.enterSleep

/-- SLEEP of set B (R164). -/
def execSleepB (s : State) : Out := s.enterSleep

/-- XORLW k of set A (R165). -/
def execXorlwA (k : BitVec 8) (s : State) : Out := s.xorLiteral k

/-- XORLW k of set B (R165). -/
def execXorlwB (k : BitVec 8) (s : State) : Out := s.xorLiteral k

end Sys2Proof.Machine
end

