-- ==== Sys2Proof/Machine/Dispatch.lean ====
section
/-! DEFINITION. The dispatch: one arm per constructor of Instr, each one direct call of the instruction's meaning. -/

namespace Sys2Proof.Machine

/-- The meaning of an instruction: the next state, or the fault it stops with. -/
def exec (i : Instr) (s : State) : Host.Outcome State Fault Refusal :=
  match i with
  | .addwf f d => Sys2Proof.Machine.execAddwf f d s
  | .andwf f d => Sys2Proof.Machine.execAndwf f d s
  | .clrf f => Sys2Proof.Machine.execClrf f s
  | .clrw => Sys2Proof.Machine.execClrw s
  | .comf f d => Sys2Proof.Machine.execComf f d s
  | .decf f d => Sys2Proof.Machine.execDecf f d s
  | .decfsz f d => Sys2Proof.Machine.execDecfsz f d s
  | .incf f d => Sys2Proof.Machine.execIncf f d s
  | .incfsz f d => Sys2Proof.Machine.execIncfsz f d s
  | .iorwf f d => Sys2Proof.Machine.execIorwf f d s
  | .movfw f => Sys2Proof.Machine.execMovfw f s
  | .movwf f => Sys2Proof.Machine.execMovwf f s
  | .movwrA r => Sys2Proof.Machine.execMovwrA r s
  | .movwrB r => Sys2Proof.Machine.execMovwrB r s
  | .rlf f d => Sys2Proof.Machine.execRlf f d s
  | .rrf f d => Sys2Proof.Machine.execRrf f d s
  | .subwf f d => Sys2Proof.Machine.execSubwf f d s
  | .movrw r => Sys2Proof.Machine.execMovrw r s
  | .swapf f d => Sys2Proof.Machine.execSwapf f d s
  | .testz f => Sys2Proof.Machine.execTestz f s
  | .xorwf f d => Sys2Proof.Machine.execXorwf f d s
  | .bcf f b => Sys2Proof.Machine.execBcf f b s
  | .bsf f b => Sys2Proof.Machine.execBsf f b s
  | .btfsc f b => Sys2Proof.Machine.execBtfsc f b s
  | .btfss f b => Sys2Proof.Machine.execBtfss f b s
  | .addlw k => Sys2Proof.Machine.execAddlw k s
  | .andlw k => Sys2Proof.Machine.execAndlw k s
  | .call k => Sys2Proof.Machine.execCall k s
  | .clrwdtA => Sys2Proof.Machine.execClrwdtA s
  | .clrwdtB => Sys2Proof.Machine.execClrwdtB s
  | .goto k => Sys2Proof.Machine.execGoto k s
  | .iorlw k => Sys2Proof.Machine.execIorlw k s
  | .movlw k => Sys2Proof.Machine.execMovlw k s
  | .nop => Sys2Proof.Machine.execNop s
  | .ret => Sys2Proof.Machine.execRet s
  | .reti => Sys2Proof.Machine.execReti s
  | .retlw k => Sys2Proof.Machine.execRetlw k s
  | .tblwl => Sys2Proof.Machine.execTblwl s
  | .tblwh => Sys2Proof.Machine.execTblwh s
  | .sleepA => Sys2Proof.Machine.execSleepA s
  | .sleepB => Sys2Proof.Machine.execSleepB s
  | .xorlwA k => Sys2Proof.Machine.execXorlwA k s
  | .xorlwB k => Sys2Proof.Machine.execXorlwB k s

end Sys2Proof.Machine
end

