-- ==== Sys2Proof/Machine/Events.lean ====
section
/-! DEFINITION. What happens at an instruction boundary before an instruction runs: reset, watchdog, wake-up and interrupt
entry, in that order (spec/60_exceptions.md R186 to R194; spec/70_reset_and_hazards.md R210). -/

namespace Sys2Proof.Machine

/-- What the environment presents at this boundary. -/
def State.input (s : State) : Input := s.env.headD Input.quiet

/-- The boundary is passed: its input is consumed, and WDT is what the watchdog's own counting has made it (R28,
R36, log 8). -/
def State.arrive (s : State) : State :=
  { s with
    env := s.env.tail
    wdt := match s.input.wdtCount with
      | none => s.wdt
      | some n => n % 2 ^ s.part.wdtw }

/-- The reset event (R210): PC to RESET_VECTOR, the stack empty, mode Run, GIE to GIE_RESET; every element the rule
leaves without a value holds a free value (log 6). -/
def State.resetEvent (s : State) : State :=
  { s with
    pc := s.part.resetVector
    stk := []
    mode := .run
    gie := s.part.gieReset.getD (Config.freeBit s.resetCount .gie)
    w := Config.freeByte s.resetCount .w
    z := Config.freeBit s.resetCount .z
    c := Config.freeBit s.resetCount .c
    dc := Config.freeBit s.resetCount .dc
    toFlag := Config.freeBit s.resetCount .toFlag
    pdFlag := Config.freeBit s.resetCount .pdFlag
    wdt := Config.freeCount s.resetCount % 2 ^ s.part.wdtw
    fplane := Memory.ofFun (fun a => Config.freeByte s.resetCount (.fplane (BitVec.ofNat 7 a))) 0 128
    rplane := Memory.ofFun (fun a => Config.freeByte s.resetCount (.rplane (BitVec.ofNat 8 a))) 0 256
    resetCount := s.resetCount + 1 }

/-- The watchdog event (R192): the effect of a reset event, with TO and PD left unspecified, as a reset event leaves
them too (D12). -/
def State.watchdogEvent (s : State) : State := s.resetEvent

/-- The wake-up event (R194): `mode <- Run`, everything else unchanged. The boundary stays, without the wake-up, so
that an interrupt request at that boundary comes before the next instruction (log 10). -/
def State.wakeEvent (s : State) (i : Input) : State :=
  { s with mode := .run, env := { i with wake := false, wdtCount := none } :: s.env }

/-- What a boundary leads to. -/
inductive Boundary where
  | event (o : Out)         -- an event, or the core asleep: no instruction runs in this step
  | runs (s : State)        -- the next instruction runs, from this state
  deriving Repr

/-- The order at a boundary (R190, D27): reset, else watchdog event, else in Sleep wake-up or nothing, else in Run
interrupt entry when GIE = 1 and IrqRequest holds (R187), else the next instruction. In Sleep without an event the
state keeps its value (R194, log 9). -/
def State.boundary (s : State) : Boundary :=
  if s.input.reset then .event (.next s.arrive.resetEvent)
  else if s.input.watchdog && s.part.wdtEnabled then .event (.next s.arrive.watchdogEvent)
  else match s.mode with
    | .sleep =>
      if s.input.wake then .event (.next (s.arrive.wakeEvent s.input)) else .event (.next s.arrive)
    | .run =>
      if s.gie && s.input.irq then .event (interruptEntry s.arrive) else .runs s.arrive

end Sys2Proof.Machine
end

