-- ==== Sys2Proof/Machine/Fetch.lean ====
section
/-! DEFINITION. Fetching and decoding the instruction at PC (spec/00_scope.md R10; spec/20_memory.md R52;
spec/30_encoding.md R76, R79), and placing a word where the next fetch reads it. -/

namespace Sys2Proof.Machine

/-- `RomRead(PC)`, decoded for the part: the checks come in the order fetch, decode (R182). -/
def State.fetch (s : State) : Except Fault Instr :=
  if s.pc.toNat < s.part.romSize then
    match decode s.part.iset s.part.hasDptr (s.romWord s.pc) with
    | .ok i => .ok i
    | .error _ => .error (.illegalInstruction s.pc (s.romWord s.pc))
  else .error (.fetchOutOfRange s.pc)

/-- The words of TBLWL and TBLWH (R162, R163). -/
def isTableReadWord (w : ProgWord) : Bool := w == 0x0050 || w == 0x0058

/-- The state in which the next step fetches and runs exactly this word (log 5, log 23): the word stands in program
memory at PC, PC is within ROM_SIZE, the core runs, nothing is asserted at the boundary, and the part has the word's
instruction where a part of the series has it: its own set if the word is one there, else the other set, and
HAS_DPTR for the words of TBLWL and TBLWH. -/
def State.placeWord (s : State) (bits : Nat) : State :=
  let w : ProgWord := BitVec.ofNat 14 bits
  { s with
    rom := Memory.write s.rom s.pc.toNat w
    mode := .run
    env := []
    part := { s.part with
      iset := setFor s.part.iset w
      hasDptr := s.part.hasDptr || isTableReadWord w
      romSize := max s.part.romSize (s.pc.toNat + 1) } }

end Sys2Proof.Machine
end

