-- ==== Sys2Proof/Machine/Step.lean ====
section
/-! DEFINITION. One step of the machine (spec/00_scope.md R10). -/

namespace Sys2Proof.Machine

/-- One step (R10): an event of the boundary, else the instruction at PC. -/
def step (s : State) : Host.Outcome State Fault Refusal :=
  match s.boundary with
  | .event o => o
  | .runs t =>
    match t.fetch with
    | .ok i => exec i t
    | .error e => .fault e

/-- `s` with an instruction word where the next step fetches (log 5, log 23). An instruction is one 14-bit word (R70),
so nothing of it lies above `nbits`. -/
def State.withFetchWord (s : State) (_nbits w : Nat) : State := s.placeWord w

end Sys2Proof.Machine
end

