-- ==== Sys2Proof/Machine/Assembler.lean ====
section
/-! DEFINITION. The assembler syntax (spec/00_scope.md R6; spec/30_encoding.md R83 to R86): a line of text to an instruction,
and a listing to the words of program memory. What the spec does not show is log 25. -/

namespace Sys2Proof.Machine

/-- Why a text is refused. -/
inductive AsmError where
  | syntaxError                          -- not a statement of R83
  | unknownMnemonic (m : List Char)      -- no instruction of the list (R85)
  | notOnPart (m : List Char)            -- MOVRW in set A, TBLWL or TBLWH without HAS_DPTR (R81, R86)
  | operandCount (m : List Char)         -- an operand is omitted, d and b too (R84, D23), or there is one too many
  | operandRange (m : List Char)         -- an operand outside its range (R86)
  | undefinedSymbol (s : List Char)
  | duplicateLabel (s : List Char)
  deriving DecidableEq, Repr

/-! ### Numbers and symbols (R6, R83) -/

/-- The value of a hexadecimal digit. -/
def hexDigit (c : Char) : Option Nat :=
  if '0' ≤ c ∧ c ≤ '9' then some (c.toNat - 48)
  else if 'A' ≤ c ∧ c ≤ 'F' then some (c.toNat - 55)
  else if 'a' ≤ c ∧ c ≤ 'f' then some (c.toNat - 87)
  else none

/-- Digits of a base, most significant first, onto `acc`. -/
def digits (base : Nat) : (acc : Nat) → List Char → Option Nat
  | acc, [] => some acc
  | acc, c :: cs =>
    match hexDigit c with
    | some d => if d < base then digits base (acc * base + d) cs else none
    | none => none

/-- A number needs at least one digit. -/
def digits1 (base : Nat) (cs : List Char) : Option Nat := if cs = [] then none else digits base 0 cs

/-- A group of a binary string: four binary digits (R6). -/
def isGroup (cs : List Char) : Bool := cs.length == 4 && cs.all fun c => c == '0' || c == '1'

/-- The groups of a binary string, one blank between two of them, onto `acc` (R6). -/
def binaryGroups : (acc : Nat) → List Char → Option Nat
  | acc, a :: b :: c :: d :: rest =>
    match digits 2 acc [a, b, c, d] with
    | none => none
    | some n =>
      match rest with
      | [] => some n
      | sep :: groups => if sep = ' ' then binaryGroups n groups else none
  | _, _ => none

/-- A number (R6): binary where it is a string of groups of four (`1110 0110`), hexadecimal after `0x` or `0X` or before
`h` or `H`, else decimal. DESIGN CHOICE (log 25): a string has two groups or more; one group alone is decimal. -/
def number (cs : List Char) : Option Nat :=
  if cs.contains ' ' then binaryGroups 0 cs
  else
    match cs with
    | '0' :: 'x' :: rest => digits1 16 rest
    | '0' :: 'X' :: rest => digits1 16 rest
    | _ =>
      match cs.getLast? with
      | some 'h' => digits1 16 cs.dropLast
      | some 'H' => digits1 16 cs.dropLast
      | _ => digits1 10 cs

/-- What symbols stand for: register addresses, given from outside, and program addresses of labels (R83). -/
abbrev Symbols := List (List Char × Nat)

/-- An operand's value: that of a symbol, else that of a number. -/
def operandValue (syms : Symbols) (cs : List Char) : Except AsmError Nat :=
  match syms.lookup cs with
  | some n => .ok n
  | none =>
    match number cs with
    | some n => .ok n
    | none => .error (.undefinedSymbol cs)

/-! ### Instructions (R83, R84, R86) -/

/-- The syntax of a mnemonic (R83): its operands and the instruction they make. -/
inductive AsmForm where
  | fd (mk : BitVec 7 → Dest → Instr)
  | f (mk : BitVec 7 → Instr)
  | r6 (mk : BitVec 6 → Instr)
  | r8 (mk : BitVec 8 → Instr)
  | fb (mk : BitVec 6 → BitVec 3 → Instr)
  | k8 (mk : BitVec 8 → Instr)
  | k12 (mk : BitVec 12 → Instr)
  | bare (i : Instr)

/-- MOVWR of set A: the r values whose words are NOP, SLEEP and CLRWDT give those (R85). -/
def asmMovwrA (r : BitVec 6) : Instr :=
  if r = 0x00 then .nop else if r = 0x03 then .sleepA else if r = 0x04 then .clrwdtA else .movwrA r

/-- MOVWR of set B: the r values whose words are SLEEP and CLRWDT give those (R85). -/
def asmMovwrB (r : BitVec 8) : Instr :=
  if r = 0x03 then .sleepB else if r = 0x04 then .clrwdtB else .movwrB r

/-- The mnemonics that are the same in both sets, with their syntax (R83). -/
def commonForms : List (String × AsmForm) := [
  ("ADDWF", .fd .addwf), ("ANDWF", .fd .andwf), ("CLRF", .f .clrf), ("CLRW", .bare .clrw), ("COMF", .fd .comf),
  ("DECF", .fd .decf), ("DECFSZ", .fd .decfsz), ("INCF", .fd .incf), ("INCFSZ", .fd .incfsz), ("IORWF", .fd .iorwf),
  ("MOVFW", .f .movfw), ("MOVWF", .f .movwf), ("RLF", .fd .rlf), ("RRF", .fd .rrf), ("SUBWF", .fd .subwf),
  ("SWAPF", .fd .swapf), ("TESTZ", .f .testz), ("XORWF", .fd .xorwf),
  ("BCF", .fb .bcf), ("BSF", .fb .bsf), ("BTFSC", .fb .btfsc), ("BTFSS", .fb .btfss),
  ("ADDLW", .k8 .addlw), ("ANDLW", .k8 .andlw), ("CALL", .k12 .call), ("GOTO", .k12 .goto), ("IORLW", .k8 .iorlw),
  ("MOVLW", .k8 .movlw), ("NOP", .bare .nop), ("RET", .bare .ret), ("RETI", .bare .reti), ("RETLW", .k8 .retlw),
  ("TBLWL", .bare .tblwl), ("TBLWH", .bare .tblwh)]

/-- The mnemonics whose code or operand depends on the set (R2). -/
def setForms : ISet → List (String × AsmForm)
  | .a => [("MOVWR", .r6 asmMovwrA), ("CLRWDT", .bare .clrwdtA), ("SLEEP", .bare .sleepA), ("XORLW", .k8 .xorlwA)]
  | .b => [("MOVWR", .r8 asmMovwrB), ("CLRWDT", .bare .clrwdtB), ("SLEEP", .bare .sleepB), ("XORLW", .k8 .xorlwB),
    ("MOVRW", .r8 .movrw)]

/-- The syntax of a mnemonic in a set. -/
def formOf (iset : ISet) (m : List Char) : Option AsmForm :=
  ((commonForms ++ setForms iset).find? fun row => row.1.toList == m).map Prod.snd

/-- A mnemonic of the list, in either set (R3). -/
def isMnemonic (m : List Char) : Bool := (formOf .a m).isSome || (formOf .b m).isSome

/-- d in 0, 1 (R86). -/
def asmDest (d : Nat) : Option Dest := if d = 0 then some .w else if d = 1 then some .file else none

/-- A number that fits a field of `n` bits (R86). -/
def field (n v : Nat) : Option (BitVec n) := if v < 2 ^ n then some (BitVec.ofNat n v) else none

/-- The instruction of a form and its operand values; none when one is out of range. -/
def AsmForm.build (form : AsmForm) (ops : List Nat) : Option (Option Instr) :=
  match form, ops with
  | .fd mk, [a, d] => some (match field 7 a, asmDest d with | some a, some d => some (mk a d) | _, _ => none)
  | .f mk, [a] => some ((field 7 a).map mk)
  | .r6 mk, [a] => some ((field 6 a).map mk)
  | .r8 mk, [a] => some ((field 8 a).map mk)
  | .fb mk, [a, b] => some (match field 6 a, field 3 b with | some a, some b => some (mk a b) | _, _ => none)
  | .k8 mk, [k] => some ((field 8 k).map mk)
  | .k12 mk, [k] => some ((field 12 k).map mk)
  | .bare i, [] => some (some i)
  | _, _ => none

/-- The instruction of a mnemonic and its operand values on a part, with the checks of R84 and R86. -/
def assembleInstr (iset : ISet) (hasDptr : Bool) (m : List Char) (ops : List Nat) : Except AsmError Instr :=
  match formOf iset m with
  | none => if isMnemonic m then .error (.notOnPart m) else .error (.unknownMnemonic m)
  | some form =>
    match form.build ops with
    | none => .error (.operandCount m)
    | some none => .error (.operandRange m)
    | some (some i) =>
      if !i.wellFormed iset hasDptr then .error (.notOnPart m)
      else if !i.assemblable then .error (.operandRange m)
      else .ok i

/-! ### Lines (R83) -/

/-- The tokens of a line. -/
inductive Token where
  | word (cs : List Char)
  | comma
  | colon
  deriving DecidableEq, Repr

/-- The word read so far as a token, where there is one; it is held in reverse. -/
def flushWord (acc : List Char) : List Token := if acc = [] then [] else [.word acc.reverse]

/-- The tokens of a line; a comment runs from `;` to the end of the line. -/
def tokens : (acc : List Char) → List Char → List Token
  | acc, [] => flushWord acc
  | acc, c :: cs =>
    if c = ';' then flushWord acc
    else if c = ' ' ∨ c = '\t' then flushWord acc ++ tokens [] cs
    else if c = ',' then flushWord acc ++ .comma :: tokens [] cs
    else if c = ':' then flushWord acc ++ .colon :: tokens [] cs
    else tokens (c :: acc) cs

/-- A line: an optional label, and an optional mnemonic (or ORG) with its operands. -/
structure Line where
  label : Option (List Char)
  body : Option (List Char × List (List Char))
  deriving DecidableEq, Repr

/-- The one directive that appears (R83). -/
def orgWord : List Char := "ORG".toList

/-- The label at the start of a line, with a colon or without one, and what follows it. -/
def splitLabel : List Token → Option (List Char) × List Token
  | .word l :: .colon :: rest => (some l, rest)
  | .word l :: rest => if isMnemonic l || l == orgWord then (none, .word l :: rest) else (some l, rest)
  | toks => (none, toks)

/-- The words before the first comma, and what follows that comma, where there is one. -/
def splitComma : List Token → Option (List (List Char) × Option (List Token))
  | [] => some ([], none)
  | .comma :: rest => some ([], some rest)
  | .colon :: _ => none
  | .word w :: rest => (splitComma rest).map fun split => (w :: split.1, split.2)

/-- The text of an operand: one word, or the groups of a binary string (R6), joined with one blank. -/
def operandText : List (List Char) → Option (List Char)
  | [] => none
  | [w] => some w
  | w :: ws => if (w :: ws).all isGroup then some (List.intercalate [' '] (w :: ws)) else none

/-- The operands after a mnemonic: none, one, or two with a comma between them (R83). -/
def parseOperands (toks : List Token) : Except AsmError (List (List Char)) :=
  match splitComma toks with
  | some ([], none) => .ok []
  | some (a, none) =>
    match operandText a with
    | some a => .ok [a]
    | none => .error .syntaxError
  | some (a, some rest) =>
    match operandText a, splitComma rest with
    | some a, some (b, none) =>
      match operandText b with
      | some b => .ok [a, b]
      | none => .error .syntaxError
    | _, _ => .error .syntaxError
  | none => .error .syntaxError

/-- The mnemonic and its operands. DESIGN CHOICE (log 25): a line without a mnemonic, which R83's statement does not have,
is accepted and gives no word. It is blank, or a comment, or a label alone, which then stands for the address of the next
instruction; so a word that is no mnemonic, a misspelt or lower-case one among them, is a label where it stands alone. -/
def parseBody : List Token → Except AsmError (Option (List Char × List (List Char)))
  | [] => .ok none
  | .word m :: rest =>
    match parseOperands rest with
    | .ok ops => .ok (some (m, ops))
    | .error e => .error e
  | _ => .error .syntaxError

/-- A line of text, read. -/
def parseLine (cs : List Char) : Except AsmError Line :=
  let split := splitLabel (tokens [] cs)
  match parseBody split.2 with
  | .ok body => .ok ⟨split.1, body⟩
  | .error e => .error e

/-- The values of a list of operands. -/
def operandValues (syms : Symbols) : List (List Char) → Except AsmError (List Nat)
  | [] => .ok []
  | o :: os =>
    match operandValue syms o with
    | .error e => .error e
    | .ok v =>
      match operandValues syms os with
      | .error e => .error e
      | .ok vs => .ok (v :: vs)

/-- The instruction of a statement (a mnemonic and its operand texts). -/
def assembleStatement (iset : ISet) (hasDptr : Bool) (syms : Symbols) (m : List Char) (ops : List (List Char)) :
    Except AsmError Instr :=
  match operandValues syms ops with
  | .error e => .error e
  | .ok vs => assembleInstr iset hasDptr m vs

/-! ### Listings -/

/-- What a line does to the address of the next instruction, from `here` (R83). DESIGN CHOICE (log 25): R83 and R86 name no
range for an address, so an ORG beyond the part's program space, or a listing that runs on beyond it, is accepted: the
address is neither refused nor wrapped, and the word is put there. -/
def lineNext (syms : Symbols) (here : Nat) (l : Line) : Except AsmError Nat :=
  match l.body with
  | none => .ok here
  | some (m, ops) =>
    if m = orgWord then
      match operandValues syms ops with
      | .ok [a] => .ok a
      | .ok _ => .error (.operandCount m)
      | .error e => .error e
    else .ok (here + 1)

/-- The label of a line added to the symbols; a name that is a symbol already is refused. -/
def addLabel (syms : Symbols) (here : Nat) : Option (List Char) → Except AsmError Symbols
  | none => .ok syms
  | some name => if (syms.lookup name).isSome then .error (.duplicateLabel name) else .ok ((name, here) :: syms)

/-- First pass: every line with its program address, and the symbols with every label. The addresses are fixed here, once.
DESIGN CHOICE (log 25): a label on the line of an ORG, which the spec does not show, stands for the address before that ORG
takes effect; the operand of an ORG knows the labels before it and no later one. -/
def labelPass (syms : Symbols) : (here : Nat) → List Line → Except AsmError (Symbols × List (Nat × Line))
  | _, [] => .ok (syms, [])
  | here, l :: ls =>
    match lineNext syms here l, addLabel syms here l.label with
    | .error e, _ => .error e
    | .ok _, .error e => .error e
    | .ok next, .ok syms' =>
      match labelPass syms' next ls with
      | .error e => .error e
      | .ok (all, placed) => .ok (all, (here, l) :: placed)

/-- Second pass: the words, each at the address of its line. -/
def wordPass (iset : ISet) (hasDptr : Bool) (syms : Symbols) :
    (rom : Memory 14) → List (Nat × Line) → Except AsmError (Memory 14)
  | rom, [] => .ok rom
  | rom, (here, l) :: ls =>
    match l.body with
    | none => wordPass iset hasDptr syms rom ls
    | some (m, ops) =>
      if m = orgWord then wordPass iset hasDptr syms rom ls
      else
        match assembleStatement iset hasDptr syms m ops with
        | .error e => .error e
        | .ok i => wordPass iset hasDptr syms (Memory.write rom here (encode i)) ls

/-- Read every line. -/
def parseLines : List (List Char) → Except AsmError (List Line)
  | [] => .ok []
  | cs :: rest =>
    match parseLine cs with
    | .error e => .error e
    | .ok l =>
      match parseLines rest with
      | .error e => .error e
      | .ok ls => .ok (l :: ls)

/-- A listing, one text a line, assembled for a part into program memory; `regs` gives the register symbols. DESIGN
CHOICE (log 25): a listing begins at program address 0 until an ORG says otherwise; the spec gives no address there. -/
def assemble (p : Part) (regs : Symbols) (lines : List (List Char)) : Except AsmError (Memory 14) :=
  match parseLines lines with
  | .error e => .error e
  | .ok ls =>
    match labelPass regs 0 ls with
    | .error e => .error e
    | .ok (syms, placed) => wordPass p.iset p.hasDptr syms [] placed

end Sys2Proof.Machine
end

