-- ==== Sys2Proof/Machine/Timing.lean ====
section
/-! DEFINITION. The cycle count of each instruction (spec/70_reset_and_hazards.md R214). Timing only: no state depends on it
(log 24). -/

namespace Sys2Proof.Machine

/-- 2 cycles for a skip that is taken, 1 for one that is not (R140). -/
def skipCycles (taken : Bool) : Nat := if taken then 2 else 1

/-- The instruction cycles an instruction takes when it runs in state `s` (R214). -/
def cycles (i : Instr) (s : State) : Nat :=
  match i with
  | .decfsz f _ => skipCycles (isZero (s.f f - 1))
  | .incfsz f _ => skipCycles (isZero (s.f f + 1))
  | .btfsc f b => skipCycles ((s.f (bitAddr f)).getLsbD b.toNat == false)
  | .btfss f b => skipCycles ((s.f (bitAddr f)).getLsbD b.toNat == true)
  | .call _ | .goto _ | .ret | .reti | .retlw _ | .tblwl | .tblwh => 2
  | .addwf _ _ | .andwf _ _ | .clrf _ | .clrw | .comf _ _ | .decf _ _ | .incf _ _ | .iorwf _ _ | .movfw _
  | .movwf _ | .movwrA _ | .movwrB _ | .rlf _ _ | .rrf _ _ | .subwf _ _ | .movrw _ | .swapf _ _ | .testz _
  | .xorwf _ _ | .bcf _ _ | .bsf _ _ | .addlw _ | .andlw _ | .clrwdtA | .clrwdtB | .iorlw _ | .movlw _ | .nop
  | .sleepA | .sleepB | .xorlwA _ | .xorlwB _ => 1

end Sys2Proof.Machine
end

