-- ==== Sys2Proof/Safety.lean ====
section
/-! DEFINITION. What the statements speak of: well-formed parts and states, when an instruction completes, when a run has
ended, what a state keeps, the state no instruction reads, and what an assembler statement names
(spec/00_scope.md R4; spec/30_encoding.md R83 to R86; spec/10_state.md R22 to R36; spec/20_memory.md R53; spec/70_reset_and_hazards.md R215). -/

namespace Sys2Proof

/-! ### What an instruction names and writes (R24 to R29, R53) -/

/-- The F-plane address an instruction's operand names, which it reads or writes (R53). -/
def Instr.fOperand : Instr → Option (BitVec 7)
  | .addwf f _ | .andwf f _ | .comf f _ | .decf f _ | .decfsz f _ | .incf f _ | .incfsz f _ | .iorwf f _
  | .rlf f _ | .rrf f _ | .subwf f _ | .swapf f _ | .xorwf f _ => some f
  | .clrf f | .movfw f | .movwf f | .testz f => some f
  | .bcf f _ | .bsf f _ | .btfsc f _ | .btfss f _ => some (Machine.bitAddr f)
  | .clrw | .movwrA _ | .movwrB _ | .movrw _ | .addlw _ | .andlw _ | .call _ | .clrwdtA | .clrwdtB | .goto _
  | .iorlw _ | .movlw _ | .nop | .ret | .reti | .retlw _ | .tblwl | .tblwh | .sleepA | .sleepB | .xorlwA _
  | .xorlwB _ => none

/-- The R-plane address an instruction's operand names (R53). -/
def Instr.rOperand : Instr → Option (BitVec 8)
  | .movwrA r => some (r.zeroExtend 8)
  | .movwrB r | .movrw r => some r
  | .addwf _ _ | .andwf _ _ | .clrf _ | .clrw | .comf _ _ | .decf _ _ | .decfsz _ _ | .incf _ _ | .incfsz _ _
  | .iorwf _ _ | .movfw _ | .movwf _ | .rlf _ _ | .rrf _ _ | .subwf _ _ | .swapf _ _ | .testz _ | .xorwf _ _
  | .bcf _ _ | .bsf _ _ | .btfsc _ _ | .btfss _ _ | .addlw _ | .andlw _ | .call _ | .clrwdtA | .clrwdtB
  | .goto _ | .iorlw _ | .movlw _ | .nop | .ret | .reti | .retlw _ | .tblwl | .tblwh | .sleepA | .sleepB
  | .xorlwA _ | .xorlwB _ => none

/-- The F-plane address an instruction stores to (R53): its operand's, where the form writes it. -/
def Instr.fStored : Instr → Option (BitVec 7)
  | .addwf f .file | .andwf f .file | .comf f .file | .decf f .file | .decfsz f .file | .incf f .file
  | .incfsz f .file | .iorwf f .file | .rlf f .file | .rrf f .file | .subwf f .file | .swapf f .file
  | .xorwf f .file => some f
  | .clrf f | .movwf f => some f
  | .bcf f _ | .bsf f _ => some (Machine.bitAddr f)
  | _ => none

/-- The R-plane address an instruction stores to (R53): MOVWR's. -/
def Instr.rStored : Instr → Option (BitVec 8)
  | .movwrA r => some (r.zeroExtend 8)
  | .movwrB r => some r
  | _ => none

/-- The instruction writes Z (R24). -/
def Instr.writesZ : Instr → Bool
  | .addwf _ _ | .andwf _ _ | .clrf _ | .clrw | .comf _ _ | .decf _ _ | .incf _ _ | .iorwf _ _ | .subwf _ _
  | .testz _ | .xorwf _ _ | .addlw _ | .andlw _ | .iorlw _ | .xorlwA _ | .xorlwB _ => true
  | _ => false

/-- The instruction writes C (R24). -/
def Instr.writesC : Instr → Bool
  | .addwf _ _ | .addlw _ | .subwf _ _ | .rlf _ _ | .rrf _ _ => true
  | _ => false

/-- The instruction writes DC (R24). -/
def Instr.writesDc : Instr → Bool
  | .addwf _ _ | .addlw _ | .subwf _ _ => true
  | _ => false

/-- CLRWDT, of either set. -/
def Instr.isClrwdt : Instr → Bool
  | .clrwdtA | .clrwdtB => true
  | _ => false

/-- SLEEP, of either set. -/
def Instr.isSleep : Instr → Bool
  | .sleepA | .sleepB => true
  | _ => false

/-- The instruction has W as its destination (R21). -/
def Instr.writesW : Instr → Bool
  | .addwf _ .w | .andwf _ .w | .comf _ .w | .decf _ .w | .decfsz _ .w | .incf _ .w | .incfsz _ .w | .iorwf _ .w
  | .rlf _ .w | .rrf _ .w | .subwf _ .w | .swapf _ .w | .xorwf _ .w => true
  | .clrw | .movfw _ | .movrw _ | .movlw _ | .retlw _ | .tblwl | .tblwh | .addlw _ | .andlw _ | .iorlw _
  | .xorlwA _ | .xorlwB _ => true
  | _ => false

/-- The instruction pushes or pops (R53). -/
def Instr.usesStack : Instr → Bool
  | .call _ | .ret | .reti | .retlw _ => true
  | _ => false

/-- A control transfer (R22): CALL, GOTO and the returns. -/
def Instr.isTransfer : Instr → Bool
  | .call _ | .goto _ | .ret | .reti | .retlw _ => true
  | _ => false

/-- TBLWL or TBLWH, the instructions that read program memory (R52, R53). -/
def Instr.isTableRead : Instr → Bool
  | .tblwl | .tblwh => true
  | _ => false

/-! ### What an assembler statement names (R83, R85, R86) -/

/-- The mnemonic of an instruction in the list (R3). -/
def Instr.mnemonic : Instr → String
  | .addwf _ _ => "ADDWF" | .andwf _ _ => "ANDWF" | .clrf _ => "CLRF" | .clrw => "CLRW" | .comf _ _ => "COMF"
  | .decf _ _ => "DECF" | .decfsz _ _ => "DECFSZ" | .incf _ _ => "INCF" | .incfsz _ _ => "INCFSZ"
  | .iorwf _ _ => "IORWF" | .movfw _ => "MOVFW" | .movwf _ => "MOVWF" | .movwrA _ => "MOVWR" | .movwrB _ => "MOVWR"
  | .rlf _ _ => "RLF" | .rrf _ _ => "RRF" | .subwf _ _ => "SUBWF" | .movrw _ => "MOVRW" | .swapf _ _ => "SWAPF"
  | .testz _ => "TESTZ" | .xorwf _ _ => "XORWF" | .bcf _ _ => "BCF" | .bsf _ _ => "BSF" | .btfsc _ _ => "BTFSC"
  | .btfss _ _ => "BTFSS" | .addlw _ => "ADDLW" | .andlw _ => "ANDLW" | .call _ => "CALL" | .clrwdtA => "CLRWDT"
  | .clrwdtB => "CLRWDT" | .goto _ => "GOTO" | .iorlw _ => "IORLW" | .movlw _ => "MOVLW" | .nop => "NOP"
  | .ret => "RET" | .reti => "RETI" | .retlw _ => "RETLW" | .tblwl => "TBLWL" | .tblwh => "TBLWH"
  | .sleepA => "SLEEP" | .sleepB => "SLEEP" | .xorlwA _ => "XORLW" | .xorlwB _ => "XORLW"

/-- The values of an instruction's operands, in the order a statement writes them (R83). -/
def Instr.operands : Instr → List Nat
  | .addwf f d | .andwf f d | .comf f d | .decf f d | .decfsz f d | .incf f d | .incfsz f d | .iorwf f d
  | .rlf f d | .rrf f d | .subwf f d | .swapf f d | .xorwf f d => [f.toNat, d.bit.toNat]
  | .clrf f | .movfw f | .movwf f | .testz f => [f.toNat]
  | .bcf f b | .bsf f b | .btfsc f b | .btfss f b => [f.toNat, b.toNat]
  | .movwrA r => [r.toNat]
  | .movwrB r | .movrw r => [r.toNat]
  | .addlw k | .andlw k | .iorlw k | .movlw k | .retlw k | .xorlwA k | .xorlwB k => [k.toNat]
  | .call k | .goto k => [k.toNat]
  | .clrw | .clrwdtA | .clrwdtB | .nop | .ret | .reti | .tblwl | .tblwh | .sleepA | .sleepB => []

/-- The statements `MOVWR r` whose word is that of a fixed-pattern instruction (R85). -/
def movwrAliases : List (ISet × List Nat × Instr) :=
  [(.a, [0x00], .nop), (.a, [0x03], .sleepA), (.a, [0x04], .clrwdtA), (.b, [0x03], .sleepB), (.b, [0x04], .clrwdtB)]

/-- A mnemonic and operand values name the instruction: they are its own, or one of the aliases of R85. -/
def Instr.namedBy (i : Instr) (iset : ISet) (m : List Char) (vs : List Nat) : Prop :=
  (m = i.mnemonic.toList ∧ vs = i.operands) ∨ (m = "MOVWR".toList ∧ (iset, vs, i) ∈ movwrAliases)

/-- The lowest and highest value of each operand of each mnemonic of a set (R86). -/
def operandRanges (iset : ISet) : List (String × List (Nat × Nat)) :=
  (["ADDWF", "ANDWF", "COMF", "DECF", "DECFSZ", "INCF", "INCFSZ", "IORWF", "RLF", "RRF", "SUBWF", "SWAPF", "XORWF"].map
    fun m => (m, [(0x00, 0x7F), (0, 1)]))
  ++ (["CLRF", "MOVFW", "MOVWF", "TESTZ"].map fun m => (m, [(0x00, 0x7F)]))
  ++ (["BCF", "BSF", "BTFSC", "BTFSS"].map fun m => (m, [(0x00, 0x3F), (0, 7)]))
  ++ (["ADDLW", "ANDLW", "IORLW", "MOVLW", "RETLW", "XORLW"].map fun m => (m, [(0x00, 0xFF)]))
  ++ (["CALL", "GOTO"].map fun m => (m, [(0x000, 0xFFF)]))
  ++ (["CLRW", "CLRWDT", "NOP", "RET", "RETI", "SLEEP", "TBLWL", "TBLWH"].map fun m => (m, []))
  ++ (match iset with
    | .a => [("MOVWR", [(0x00, 0x3F)])]
    | .b => [("MOVWR", [(0x00, 0xFF)]), ("MOVRW", [(0x20, 0xFF)])])

/-- As many values as ranges, each value in its range. -/
def inRanges : List (Nat × Nat) → List Nat → Bool
  | [], [] => true
  | (lo, hi) :: rs, v :: vs => decide (lo ≤ v) && decide (v ≤ hi) && inRanges rs vs
  | _, _ => false

end Sys2Proof

namespace Sys2Proof.Machine

/-- The parameters are in the ranges of R4. -/
def partWf (p : Part) : Bool :=
  decide (1 ≤ p.romSize) && decide (p.romSize ≤ 2 ^ p.pcw.bits) && decide (1 ≤ p.stackDepth)
  && decide (8 ≤ p.dptrMsb) && decide (p.dptrMsb ≤ 15) && p.dphAddr != p.dplAddr
  && decide (p.resetVector.toNat < 2 ^ p.pcw.bits) && decide (p.intVector.toNat < 2 ^ p.pcw.bits)
  && decide (1 ≤ p.wdtw)

/-- The state is one the machine can be in: the part's parameters are in range, PC and every stack entry have PCW
bits (R22, R23), the stack holds at most STACK_DEPTH entries (R23), WDT has WDTW bits (R28), and the memories are in
canonical form within their spaces (R30, R31, R32). -/
def State.wf (s : State) : Bool :=
  partWf s.part
  && decide (s.pc.toNat < 2 ^ s.part.pcw.bits)
  && decide (s.stk.length ≤ s.part.stackDepth) && s.stk.all (fun a => decide (a.toNat < 2 ^ s.part.pcw.bits))
  && decide (s.wdt < 2 ^ s.part.wdtw)
  && Memory.wf s.fplane 128 && Memory.wf s.rplane 256 && Memory.wf s.rom s.part.romSize

/-! ### Completion -/

/-- The outcome is a next state. -/
def isNext : Out → Bool
  | .next _ => true
  | .fault _ => false
  | .refused _ => false

/-- A state from which the machine steps to a next state: a safe state. -/
def State.safe (s : State) : Bool := isNext (step s)

/-- The program address that TBLWL and TBLWH read (R33, R162, R163). -/
def State.tableAddr (s : State) : PAddr := s.dptr (s.f s.part.dphAddr) (s.f s.part.dplAddr)

/-- The instruction's own accesses are all ones the spec describes: its register is storage (R50, R51), a push finds
room and a pop an entry (R23), a table read is inside program memory (R52). -/
def State.canComplete (s : State) (i : Instr) : Bool :=
  (match i.fOperand with
    | some a => s.fClass a == .plain
    | none => true)
  && (match i.rOperand with
    | some a => s.rClass a == .plain
    | none => true)
  && (match i with
    | .call _ => decide (s.stk.length < s.part.stackDepth)
    | .ret | .reti | .retlw _ => s.stk != []
    | .tblwl | .tblwh => decide (s.tableAddr.toNat < s.part.romSize)
    | _ => true)

/-! ### What a step keeps -/

/-- Everything but W, PC, Z, C, DC and the planes is as before. -/
def KeepsSystem (s t : State) : Prop :=
  t.part = s.part ∧ t.rom = s.rom ∧ t.stk = s.stk ∧ t.toFlag = s.toFlag ∧ t.pdFlag = s.pdFlag ∧ t.gie = s.gie
  ∧ t.wdt = s.wdt ∧ t.mode = s.mode ∧ t.env = s.env ∧ t.resetCount = s.resetCount

/-- Z, C and DC are as before. -/
def KeepsFlags (s t : State) : Prop := t.z = s.z ∧ t.c = s.c ∧ t.dc = s.dc

/-- Every register of both planes reads as before. -/
def KeepsPlanes (s t : State) : Prop := (∀ a, t.f a = s.f a) ∧ (∀ a, t.r a = s.r a)

/-- F[a] reads v; every other register of both planes reads as before. -/
def StoresF (s t : State) (a : BitVec 7) (v : Byte) : Prop :=
  t.f a = v ∧ (∀ x, x ≠ a → t.f x = s.f x) ∧ (∀ x, t.r x = s.r x)

/-- R[a] reads v; every other register of both planes reads as before. -/
def StoresR (s t : State) (a : BitVec 8) (v : Byte) : Prop :=
  t.r a = v ∧ (∀ x, x ≠ a → t.r x = s.r x) ∧ (∀ x, t.f x = s.f x)

/-- The result v is where d says (R100): in W with the planes as before, or in F[f] with W and every other register
as before. -/
def ResultIn (s t : State) (d : Dest) (f : BitVec 7) (v : Byte) : Prop :=
  match d with
  | .w => t.w = v ∧ KeepsPlanes s t
  | .file => t.w = s.w ∧ StoresF s t f v

/-- PC has gone n instructions on, modulo 2^PCW (R8, R22). -/
def PcPlus (s t : State) (n : Nat) : Prop := t.pc.toNat = (s.pc.toNat + n) % 2 ^ s.part.pcw.bits

/-- The outcome with program memory replaced. -/
def withRom (m : Memory 14) : Out → Out
  | .next t => .next { t with rom := m }
  | .fault e => .fault e
  | .refused r => .refused r

/-- An instruction run n times in a row. -/
def execTimes : (n : Nat) → Instr → State → Out
  | 0, _, s => .next s
  | n + 1, i, s =>
    match exec i s with
    | .next t => execTimes n i t
    | .fault e => .fault e
    | .refused r => .refused r

/-! ### The end of a run, and what no instruction reads -/

/-- The instruction at PC is a GOTO to its own address: the convention by which a program ends (R215, D26). -/
def State.atSelfJump (s : State) : Bool :=
  match s.fetch with
  | .ok (.goto k) => s.jumpTarget k == s.pc
  | _ => false

/-- A wake-up event is among the boundaries to come (R194). The environment's list is all that is admitted (log 7). -/
def State.wakeUpAdmitted (s : State) : Bool := s.env.any fun i => i.wake

/-- The run has ended (R215): asleep with no wake-up event admitted, or running and at a GOTO to its own address. A
fault ends a run too, but a faulting step has no state after it (log 26). The spec's decision D26 (log 34). -/
def State.ended (s : State) : Bool :=
  match s.mode with
  | .sleep => !s.wakeUpAdmitted
  | .run => s.atSelfJump

/-- The state without what no instruction reads: Z, DC, TO, PD, GIE and WDT (R24, R25, R26, R28). -/
def State.visible (s : State) : State :=
  { s with z := false, dc := false, toFlag := false, pdFlag := false, gie := false, wdt := 0 }

/-- Two outcomes that agree but for what no instruction reads. -/
def SameVisibly : Out → Out → Prop
  | .next s, .next t => s.visible = t.visible
  | .fault e, .fault e' => e = e'
  | .refused r, .refused r' => r = r'
  | _, _ => False

end Sys2Proof.Machine
end

