-- ==== Sys2Proof/Certificates/Slice0/Obligations.lean ====
section
/-! DEFINITION. The statements for the provers. Each docstring names the rule of spec/ it formalises, or says what of it is
the model's or the spec's own choice. -/

open Sys2Proof Sys2Proof.Machine

/-! ### Decoding and encoding -/

/-- Decoding gives back every encoded instruction of a part's set, whatever its operands (R70 to R78). -/
def Obligations.DecodeOfEncodeIsIdentity : Prop :=
  ∀ (iset : ISet) (hasDptr : Bool) (i : Instr), i.wellFormed iset hasDptr = true →
    decode iset hasDptr (encode i) = .ok i

/-- Encoding gives back every word the decoder accepts, and what it accepts is an instruction of the part's set: no
bit of an assigned word is dropped, and no two words are one instruction (R70 to R82). -/
def Obligations.EncodeOfDecodeIsIdentity : Prop :=
  ∀ (iset : ISet) (hasDptr : Bool) (w : ProgWord) (i : Instr), decode iset hasDptr w = .ok i →
    encode i = w ∧ i.wellFormed iset hasDptr = true

/-- The decoder, which reads the maps of R77 and R78, agrees on every word with R76 applied to the 43 rows of the
opcode table. Which row wins where two match is the spec's decision D13 (log 15). -/
def Obligations.DecoderAgreesWithOpcodeTable : Prop :=
  ∀ (iset : ISet) (hasDptr : Bool) (w : ProgWord), decode iset hasDptr w = decodeByTable iset hasDptr w

/-- The words that decode to no instruction are exactly those R79 lists, for each set and for parts without TBLWL and
TBLWH. -/
def Obligations.UnassignedWordsAreTheListedOnes : Prop :=
  ∀ w : ProgWord,
    (decode .a true w = .error (.unassigned w) ↔
      (0x0041 ≤ w.toNat ∧ w.toNat ≤ 0x004F) ∨ (0x0051 ≤ w.toNat ∧ w.toNat ≤ 0x0057)
      ∨ (0x0059 ≤ w.toNat ∧ w.toNat ≤ 0x005F) ∨ (0x0061 ≤ w.toNat ∧ w.toNat ≤ 0x007F)
      ∨ (0x0100 ≤ w.toNat ∧ w.toNat ≤ 0x013F) ∨ (0x0141 ≤ w.toNat ∧ w.toNat ≤ 0x017F)
      ∨ (0x1D00 ≤ w.toNat ∧ w.toNat ≤ 0x1EFF))
    ∧ (decode .b true w = .error (.unassigned w) ↔
      (0x0001 ≤ w.toNat ∧ w.toNat ≤ 0x003F)
      ∨ (0x0041 ≤ w.toNat ∧ w.toNat ≤ 0x004F) ∨ (0x0051 ≤ w.toNat ∧ w.toNat ≤ 0x0057)
      ∨ (0x0059 ≤ w.toNat ∧ w.toNat ≤ 0x005F) ∨ (0x0061 ≤ w.toNat ∧ w.toNat ≤ 0x007F)
      ∨ (0x0100 ≤ w.toNat ∧ w.toNat ≤ 0x013F) ∨ (0x0141 ≤ w.toNat ∧ w.toNat ≤ 0x017F))
    ∧ ∀ iset, (decode iset false w = .error (.unassigned w) ↔
      decode iset true w = .error (.unassigned w) ∨ w.toNat = 0x0050 ∨ w.toNat = 0x0058)

/-- Two rows of the opcode table match a word in exactly five cases (R76): 0000h, 0003h, 0004h in set A and 1E03h,
1E04h in set B. -/
def Obligations.TwoRowsMatchInExactlyFiveCases : Prop :=
  ∀ (iset : ISet) (hasDptr : Bool) (w : ProgWord),
    2 ≤ (matchingRows iset hasDptr w).length ↔
      (iset = .a ∧ (w = 0x0000 ∨ w = 0x0003 ∨ w = 0x0004)) ∨ (iset = .b ∧ (w = 0x1E03 ∨ w = 0x1E04))

/-- Words the spec writes out in hexadecimal decode to the instructions it names (a sanity statement; 42_literal_control.md,
95_test_vectors.md section 2.4). That 0003h in set A is SLEEP and not MOVWR 03h is the spec's decision D13 (log 15). -/
def Obligations.SpecWordsDecodeAsNamed : Prop :=
  decode .a true 0x1986 = .ok (.movlw 0x86) ∧ decode .a true 0x1C97 = .ok (.addlw 0x97)
  ∧ decode .a true 0x0FFF = .ok (.incfsz 0x7F .file) ∧ decode .b true 0x17FF = .ok (.btfss 0x3F 7)
  ∧ decode .b true 0x1E05 = .ok (.movwrB 0x05) ∧ decode .a true 0x0003 = .ok .sleepA
  ∧ decode .b true 0x2FFF = .ok (.call 0xFFF)

/-! ### Byte-oriented file register instructions -/

/-- ADDWF (R102): the sum of f and W where d says; C and DC are the carries out of bit 7 and bit 3, Z whether the byte
is 0; everything else is as before. -/
def Obligations.AddwfAddsWAndFile : Prop :=
  ∀ (s : State) (f : BitVec 7) (d : Dest),
    (encode (.addwf f d)).toNat = 0x0700 + 0x80 * d.bit.toNat + f.toNat ∧ cycles (.addwf f d) s = 1 ∧
    (s.fClass f = .plain → ∃ t, exec (.addwf f d) s = .next t
      ∧ ResultIn s t d f (BitVec.ofNat 8 ((s.f f).toNat + s.w.toNat))
      ∧ t.c = decide (256 ≤ (s.f f).toNat + s.w.toNat)
      ∧ t.dc = decide (16 ≤ (s.f f).toNat % 16 + s.w.toNat % 16)
      ∧ t.z = decide (((s.f f).toNat + s.w.toNat) % 256 = 0)
      ∧ PcPlus s t 1 ∧ KeepsSystem s t)

/-- SUBWF (R117): f - W modulo 256 where d says; C = 1 exactly when f >= W, DC = 1 exactly when f[3:0] >= W[3:0], Z
whether f = W; everything else is as before. -/
def Obligations.SubwfSubtractsWFromFile : Prop :=
  ∀ (s : State) (f : BitVec 7) (d : Dest),
    (encode (.subwf f d)).toNat = 0x0200 + 0x80 * d.bit.toNat + f.toNat ∧ cycles (.subwf f d) s = 1 ∧
    (s.fClass f = .plain → ∃ t, exec (.subwf f d) s = .next t
      ∧ ResultIn s t d f (BitVec.ofInt 8 ((s.f f).toNat - s.w.toNat))
      ∧ t.c = decide (s.w.toNat ≤ (s.f f).toNat)
      ∧ t.dc = decide (s.w.toNat % 16 ≤ (s.f f).toNat % 16)
      ∧ t.z = decide (s.f f = s.w)
      ∧ PcPlus s t 1 ∧ KeepsSystem s t)

/-- ANDWF, IORWF, XORWF (R103, R111, R121): W with f bit by bit, where d says; Z whether the byte is 0, C and DC as
before; everything else is as before. -/
def Obligations.LogicOfWAndFile : Prop :=
  ∀ (s : State) (f : BitVec 7) (d : Dest),
    (encode (.andwf f d)).toNat = 0x0500 + 0x80 * d.bit.toNat + f.toNat ∧ cycles (.andwf f d) s = 1 ∧
    (encode (.iorwf f d)).toNat = 0x0400 + 0x80 * d.bit.toNat + f.toNat ∧ cycles (.iorwf f d) s = 1 ∧
    (encode (.xorwf f d)).toNat = 0x0600 + 0x80 * d.bit.toNat + f.toNat ∧ cycles (.xorwf f d) s = 1 ∧
    (s.fClass f = .plain →
      (∃ t, exec (.andwf f d) s = .next t ∧ ResultIn s t d f (s.w &&& s.f f)
        ∧ t.z = decide ((s.w &&& s.f f).toNat = 0) ∧ t.c = s.c ∧ t.dc = s.dc ∧ PcPlus s t 1 ∧ KeepsSystem s t)
      ∧ (∃ t, exec (.iorwf f d) s = .next t ∧ ResultIn s t d f (s.w ||| s.f f)
        ∧ t.z = decide ((s.w ||| s.f f).toNat = 0) ∧ t.c = s.c ∧ t.dc = s.dc ∧ PcPlus s t 1 ∧ KeepsSystem s t)
      ∧ (∃ t, exec (.xorwf f d) s = .next t ∧ ResultIn s t d f (s.w ^^^ s.f f)
        ∧ t.z = decide (s.w = s.f f) ∧ t.c = s.c ∧ t.dc = s.dc ∧ PcPlus s t 1 ∧ KeepsSystem s t))

/-- COMF (R106): every bit of f inverted, where d says; Z alone is written; W is not a source. -/
def Obligations.ComfInvertsEveryBit : Prop :=
  ∀ (s : State) (f : BitVec 7) (d : Dest),
    (encode (.comf f d)).toNat = 0x0900 + 0x80 * d.bit.toNat + f.toNat ∧ cycles (.comf f d) s = 1 ∧
    (s.fClass f = .plain → ∃ t res, exec (.comf f d) s = .next t ∧ ResultIn s t d f res
      ∧ (∀ n, n < 8 → res.getLsbD n = !(s.f f).getLsbD n)
      ∧ t.z = decide (s.f f = 0xFF) ∧ t.c = s.c ∧ t.dc = s.dc ∧ PcPlus s t 1 ∧ KeepsSystem s t)

/-- INCF (R109) and DECF (R107): f + 1 and f - 1 modulo 256 where d says; Z alone is written, so the carry or borrow is
not recorded. That DECF takes 00h to FFh is a derivation that R107 marks as the spec's own. -/
def Obligations.IncfAndDecfCountModulo256 : Prop :=
  ∀ (s : State) (f : BitVec 7) (d : Dest),
    (encode (.incf f d)).toNat = 0x0A00 + 0x80 * d.bit.toNat + f.toNat ∧ cycles (.incf f d) s = 1 ∧
    (encode (.decf f d)).toNat = 0x0300 + 0x80 * d.bit.toNat + f.toNat ∧ cycles (.decf f d) s = 1 ∧
    (s.fClass f = .plain →
      (∃ t, exec (.incf f d) s = .next t ∧ ResultIn s t d f (BitVec.ofNat 8 ((s.f f).toNat + 1))
        ∧ t.z = decide (s.f f = 0xFF) ∧ t.c = s.c ∧ t.dc = s.dc ∧ PcPlus s t 1 ∧ KeepsSystem s t)
      ∧ (∃ t, exec (.decf f d) s = .next t ∧ ResultIn s t d f (BitVec.ofNat 8 ((s.f f).toNat + 255))
        ∧ t.z = decide (s.f f = 0x01) ∧ t.c = s.c ∧ t.dc = s.dc ∧ PcPlus s t 1 ∧ KeepsSystem s t))

/-- INCFSZ and DECFSZ (R108, R110): the count goes where d says; PC + 2 in 2 cycles when the result is 0, PC + 1 in 1
cycle when not; no flag is written. -/
def Obligations.IncfszAndDecfszSkipOnZero : Prop :=
  ∀ (s : State) (f : BitVec 7) (d : Dest),
    (encode (.incfsz f d)).toNat = 0x0F00 + 0x80 * d.bit.toNat + f.toNat ∧
    (encode (.decfsz f d)).toNat = 0x0B00 + 0x80 * d.bit.toNat + f.toNat ∧
    (s.fClass f = .plain →
      (∃ t, exec (.incfsz f d) s = .next t ∧ ResultIn s t d f (BitVec.ofNat 8 ((s.f f).toNat + 1))
        ∧ (s.f f = 0xFF → PcPlus s t 2 ∧ cycles (.incfsz f d) s = 2)
        ∧ (s.f f ≠ 0xFF → PcPlus s t 1 ∧ cycles (.incfsz f d) s = 1)
        ∧ KeepsFlags s t ∧ KeepsSystem s t)
      ∧ (∃ t, exec (.decfsz f d) s = .next t ∧ ResultIn s t d f (BitVec.ofNat 8 ((s.f f).toNat + 255))
        ∧ (s.f f = 0x01 → PcPlus s t 2 ∧ cycles (.decfsz f d) s = 2)
        ∧ (s.f f ≠ 0x01 → PcPlus s t 1 ∧ cycles (.decfsz f d) s = 1)
        ∧ KeepsFlags s t ∧ KeepsSystem s t))

/-- CLRF and CLRW (R104, R105): f or W is cleared and Z is set; C and DC as before. -/
def Obligations.ClrfAndClrwClearAndSetZ : Prop :=
  ∀ (s : State) (f : BitVec 7),
    (encode (.clrf f)).toNat = 0x0180 + f.toNat ∧ cycles (.clrf f) s = 1 ∧
    (encode .clrw).toNat = 0x0140 ∧ cycles .clrw s = 1 ∧
    (s.fClass f = .plain → ∃ t, exec (.clrf f) s = .next t ∧ t.w = s.w ∧ StoresF s t f 0x00
      ∧ t.z = true ∧ t.c = s.c ∧ t.dc = s.dc ∧ PcPlus s t 1 ∧ KeepsSystem s t)
    ∧ (∃ t, exec .clrw s = .next t ∧ t.w = 0x00 ∧ KeepsPlanes s t
      ∧ t.z = true ∧ t.c = s.c ∧ t.dc = s.dc ∧ PcPlus s t 1 ∧ KeepsSystem s t)

/-- MOVFW and MOVWF (R112, R113): f to W and W to f, with no flag written. -/
def Obligations.MovfwAndMovwfCopy : Prop :=
  ∀ (s : State) (f : BitVec 7),
    (encode (.movfw f)).toNat = 0x0800 + f.toNat ∧ cycles (.movfw f) s = 1 ∧
    (encode (.movwf f)).toNat = 0x0080 + f.toNat ∧ cycles (.movwf f) s = 1 ∧
    (s.fClass f = .plain →
      (∃ t, exec (.movfw f) s = .next t ∧ t.w = s.f f ∧ KeepsPlanes s t
        ∧ KeepsFlags s t ∧ PcPlus s t 1 ∧ KeepsSystem s t)
      ∧ (∃ t, exec (.movwf f) s = .next t ∧ t.w = s.w ∧ StoresF s t f s.w
        ∧ KeepsFlags s t ∧ PcPlus s t 1 ∧ KeepsSystem s t))

/-- MOVWR (R114), in the code of each set: W to R-plane register r, the 6-bit r of set A extended with zeros; no flag
is written. That the words of r = 00h, 03h, 04h in set A and of r = 03h, 04h in set B are NOP, SLEEP and CLRWDT is the
spec's decision D13 (log 15). -/
def Obligations.MovwrWritesRPlane : Prop :=
  (∀ (s : State) (r : BitVec 6),
    (encode (.movwrA r)).toNat = 0x0000 + r.toNat ∧ cycles (.movwrA r) s = 1 ∧
    (s.rClass (r.zeroExtend 8) = .plain → ∃ t, exec (.movwrA r) s = .next t ∧ t.w = s.w
      ∧ StoresR s t (r.zeroExtend 8) s.w ∧ KeepsFlags s t ∧ PcPlus s t 1 ∧ KeepsSystem s t))
  ∧ (∀ (s : State) (r : BitVec 8),
    (encode (.movwrB r)).toNat = 0x1E00 + r.toNat ∧ cycles (.movwrB r) s = 1 ∧
    (s.rClass r = .plain → ∃ t, exec (.movwrB r) s = .next t ∧ t.w = s.w
      ∧ StoresR s t r s.w ∧ KeepsFlags s t ∧ PcPlus s t 1 ∧ KeepsSystem s t))
  ∧ ∀ hasDptr, decode .a hasDptr 0x0000 = .ok .nop ∧ decode .a hasDptr 0x0003 = .ok .sleepA
    ∧ decode .a hasDptr 0x0004 = .ok .clrwdtA ∧ decode .b hasDptr 0x1E03 = .ok .sleepB
    ∧ decode .b hasDptr 0x1E04 = .ok .clrwdtB

/-- MOVRW (R118): R-plane register r to W, with no flag written. That an r below 20h runs by the map like any other
is the spec's decision D20 (log 21). -/
def Obligations.MovrwReadsRPlane : Prop :=
  ∀ (s : State) (r : BitVec 8),
    (encode (.movrw r)).toNat = 0x1F00 + r.toNat ∧ cycles (.movrw r) s = 1 ∧
    (s.rClass r = .plain → ∃ t, exec (.movrw r) s = .next t ∧ t.w = s.r r ∧ KeepsPlanes s t
      ∧ KeepsFlags s t ∧ PcPlus s t 1 ∧ KeepsSystem s t)

/-- RLF and RRF (R115, R116): a 9-bit rotation of C and f, one to the left and one to the right, where d says; C alone
of the flags is written. The rules' fault on an unwritten C has no place in the model, where C holds a value from reset
on (log 3). -/
def Obligations.RotatesGoThroughCarry : Prop :=
  ∀ (s : State) (f : BitVec 7) (d : Dest),
    (encode (.rlf f d)).toNat = 0x0D00 + 0x80 * d.bit.toNat + f.toNat ∧ cycles (.rlf f d) s = 1 ∧
    (encode (.rrf f d)).toNat = 0x0C00 + 0x80 * d.bit.toNat + f.toNat ∧ cycles (.rrf f d) s = 1 ∧
    (s.fClass f = .plain →
      (∃ t res, exec (.rlf f d) s = .next t ∧ ResultIn s t d f res
        ∧ res.toNat + 256 * t.c.toNat = 2 * (s.f f).toNat + s.c.toNat
        ∧ t.z = s.z ∧ t.dc = s.dc ∧ PcPlus s t 1 ∧ KeepsSystem s t)
      ∧ (∃ t res, exec (.rrf f d) s = .next t ∧ ResultIn s t d f res
        ∧ 2 * res.toNat + t.c.toNat = (s.f f).toNat + 256 * s.c.toNat
        ∧ t.z = s.z ∧ t.dc = s.dc ∧ PcPlus s t 1 ∧ KeepsSystem s t))

/-- SWAPF (R119): the nibbles of f exchanged, where d says; no flag is written. -/
def Obligations.SwapfExchangesNibbles : Prop :=
  ∀ (s : State) (f : BitVec 7) (d : Dest),
    (encode (.swapf f d)).toNat = 0x0E00 + 0x80 * d.bit.toNat + f.toNat ∧ cycles (.swapf f d) s = 1 ∧
    (s.fClass f = .plain → ∃ t res, exec (.swapf f d) s = .next t ∧ ResultIn s t d f res
      ∧ res.toNat / 16 = (s.f f).toNat % 16 ∧ res.toNat % 16 = (s.f f).toNat / 16
      ∧ KeepsFlags s t ∧ PcPlus s t 1 ∧ KeepsSystem s t)

/-- TESTZ (R120): Z is set where f is 0; neither f nor W is written. That Z is cleared where f is not 0 is the spec's
decision D15 (log 16). -/
def Obligations.TestzWritesZOnly : Prop :=
  ∀ (s : State) (f : BitVec 7),
    (encode (.testz f)).toNat = 0x0880 + f.toNat ∧ cycles (.testz f) s = 1 ∧
    (s.fClass f = .plain → ∃ t, exec (.testz f) s = .next t ∧ (s.f f = 0 → t.z = true) ∧ (s.f f ≠ 0 → t.z = false)
      ∧ t.w = s.w ∧ KeepsPlanes s t ∧ t.c = s.c ∧ t.dc = s.dc ∧ PcPlus s t 1 ∧ KeepsSystem s t)

/-! ### Bit-oriented file register instructions -/

/-- BCF and BSF (R141, R142): bit b of f becomes 0 or 1 and the other seven bits keep their value; W and every flag as
before. The rules' fault on an unwritten register has no place in the model, where every register holds a value (log 4). -/
def Obligations.BcfAndBsfWriteOneBit : Prop :=
  ∀ (s : State) (f : BitVec 6) (b : BitVec 3),
    (encode (.bcf f b)).toNat = 0x1000 + 0x40 * b.toNat + f.toNat ∧ cycles (.bcf f b) s = 1 ∧
    (encode (.bsf f b)).toNat = 0x1200 + 0x40 * b.toNat + f.toNat ∧ cycles (.bsf f b) s = 1 ∧
    (bitAddr f).toNat = f.toNat ∧
    (s.fClass (bitAddr f) = .plain →
      (∃ t v, exec (.bcf f b) s = .next t ∧ t.w = s.w ∧ StoresF s t (bitAddr f) v
        ∧ (∀ n, n < 8 → v.getLsbD n = if n = b.toNat then false else (s.f (bitAddr f)).getLsbD n)
        ∧ KeepsFlags s t ∧ PcPlus s t 1 ∧ KeepsSystem s t)
      ∧ (∃ t v, exec (.bsf f b) s = .next t ∧ t.w = s.w ∧ StoresF s t (bitAddr f) v
        ∧ (∀ n, n < 8 → v.getLsbD n = if n = b.toNat then true else (s.f (bitAddr f)).getLsbD n)
        ∧ KeepsFlags s t ∧ PcPlus s t 1 ∧ KeepsSystem s t))

/-- BTFSC and BTFSS (R143, R144): PC + 2 in 2 cycles when bit b of f is 0 (BTFSC) or 1 (BTFSS), PC + 1 in 1 cycle when
not; nothing else changes. -/
def Obligations.BtfscAndBtfssSkipOnTheBit : Prop :=
  ∀ (s : State) (f : BitVec 6) (b : BitVec 3),
    (encode (.btfsc f b)).toNat = 0x1400 + 0x40 * b.toNat + f.toNat ∧
    (encode (.btfss f b)).toNat = 0x1600 + 0x40 * b.toNat + f.toNat ∧
    (s.fClass (bitAddr f) = .plain →
      (∃ t, exec (.btfsc f b) s = .next t ∧ t.w = s.w ∧ KeepsPlanes s t ∧ KeepsFlags s t ∧ KeepsSystem s t
        ∧ ((s.f (bitAddr f)).getLsbD b.toNat = false → PcPlus s t 2 ∧ cycles (.btfsc f b) s = 2)
        ∧ ((s.f (bitAddr f)).getLsbD b.toNat = true → PcPlus s t 1 ∧ cycles (.btfsc f b) s = 1))
      ∧ (∃ t, exec (.btfss f b) s = .next t ∧ t.w = s.w ∧ KeepsPlanes s t ∧ KeepsFlags s t ∧ KeepsSystem s t
        ∧ ((s.f (bitAddr f)).getLsbD b.toNat = true → PcPlus s t 2 ∧ cycles (.btfss f b) s = 2)
        ∧ ((s.f (bitAddr f)).getLsbD b.toNat = false → PcPlus s t 1 ∧ cycles (.btfss f b) s = 1)))

/-! ### Literal and control instructions -/

/-- ADDLW (R151): W + k modulo 256 in W; C and DC the carries out of bit 7 and bit 3, Z whether the byte is 0. -/
def Obligations.AddlwAddsLiteral : Prop :=
  ∀ (s : State) (k : BitVec 8),
    (encode (.addlw k)).toNat = 0x1C00 + k.toNat ∧ cycles (.addlw k) s = 1 ∧
    ∃ t, exec (.addlw k) s = .next t ∧ t.w.toNat = (s.w.toNat + k.toNat) % 256
      ∧ t.c = decide (256 ≤ s.w.toNat + k.toNat) ∧ t.dc = decide (16 ≤ s.w.toNat % 16 + k.toNat % 16)
      ∧ t.z = decide ((s.w.toNat + k.toNat) % 256 = 0)
      ∧ KeepsPlanes s t ∧ PcPlus s t 1 ∧ KeepsSystem s t

/-- ANDLW, IORLW and XORLW, the last in the code of each set (R152, R156, R165): W with k bit by bit in W; Z whether the
byte is 0, C and DC as before. -/
def Obligations.LogicOfWAndLiteral : Prop :=
  ∀ (s : State) (k : BitVec 8),
    ((encode (.andlw k)).toNat = 0x1B00 + k.toNat ∧ (encode (.iorlw k)).toNat = 0x1A00 + k.toNat
      ∧ (encode (.xorlwA k)).toNat = 0x1F00 + k.toNat ∧ (encode (.xorlwB k)).toNat = 0x1D00 + k.toNat)
    ∧ (cycles (.andlw k) s = 1 ∧ cycles (.iorlw k) s = 1 ∧ cycles (.xorlwA k) s = 1 ∧ cycles (.xorlwB k) s = 1)
    ∧ (∃ t, exec (.andlw k) s = .next t ∧ t.w = s.w &&& k ∧ t.z = decide ((s.w &&& k).toNat = 0)
      ∧ t.c = s.c ∧ t.dc = s.dc ∧ KeepsPlanes s t ∧ PcPlus s t 1 ∧ KeepsSystem s t)
    ∧ (∃ t, exec (.iorlw k) s = .next t ∧ t.w = s.w ||| k ∧ t.z = decide ((s.w ||| k).toNat = 0)
      ∧ t.c = s.c ∧ t.dc = s.dc ∧ KeepsPlanes s t ∧ PcPlus s t 1 ∧ KeepsSystem s t)
    ∧ (∃ t, exec (.xorlwA k) s = .next t ∧ exec (.xorlwB k) s = .next t ∧ t.w = s.w ^^^ k ∧ t.z = decide (s.w = k)
      ∧ t.c = s.c ∧ t.dc = s.dc ∧ KeepsPlanes s t ∧ PcPlus s t 1 ∧ KeepsSystem s t)

/-- CALL and GOTO (R153, R155): k in PC bits 11..0; CALL pushes the address after it first. With PCW = 12 the target is
k; above bit 11 the target keeps the jump's own address bits, which is the spec's decision D3, unless the part's
PC_HIGH_ON_JUMP says otherwise (log 12). Nothing else changes. -/
def Obligations.CallAndGotoLoadPc : Prop :=
  ∀ (s : State) (k : BitVec 12),
    (encode (.call k)).toNat = 0x2000 + k.toNat ∧ cycles (.call k) s = 2 ∧
    (encode (.goto k)).toNat = 0x3000 + k.toNat ∧ cycles (.goto k) s = 2 ∧
    ∃ target : PAddr,
      (s.part.pcw = .w12 → target.toNat = k.toNat)
      ∧ (s.part.pcHighOnJump.lookup (s.pc, k) = none →
        target.toNat = (s.pc.toNat / 4096 * 4096 + k.toNat) % 2 ^ s.part.pcw.bits)
      ∧ (∀ h, s.part.pcHighOnJump.lookup (s.pc, k) = some h →
        target.toNat = (h.toNat * 4096 + k.toNat) % 2 ^ s.part.pcw.bits)
      ∧ exec (.goto k) s = .next { s with pc := target }
      ∧ (s.stk.length < s.part.stackDepth → ∃ ret : PAddr,
        ret.toNat = (s.pc.toNat + 1) % 2 ^ s.part.pcw.bits
        ∧ exec (.call k) s = .next { s with pc := target, stk := ret :: s.stk })

/-- CLRWDT, in the code of each set (R154): WDT, TO and PD become 0, PC goes on, and nothing else changes. -/
def Obligations.ClrwdtClearsWdtToAndPd : Prop :=
  ∀ s : State, (encode .clrwdtA).toNat = 0x0004 ∧ (encode .clrwdtB).toNat = 0x1E04
    ∧ cycles .clrwdtA s = 1 ∧ cycles .clrwdtB s = 1
    ∧ ∃ t, exec .clrwdtA s = .next t ∧ exec .clrwdtB s = .next t
      ∧ t = { s with wdt := 0, toFlag := false, pdFlag := false, pc := t.pc } ∧ PcPlus s t 1

/-- MOVLW (R157): k in W; no flag is written and nothing else changes. -/
def Obligations.MovlwLoadsLiteral : Prop :=
  ∀ (s : State) (k : BitVec 8), (encode (.movlw k)).toNat = 0x1900 + k.toNat ∧ cycles (.movlw k) s = 1
    ∧ ∃ t, exec (.movlw k) s = .next t ∧ t = { s with w := k, pc := t.pc } ∧ PcPlus s t 1

/-- NOP (R158), word 0000h: PC goes on and nothing else changes. That 0000h is NOP in set A too, and not MOVWR 00h, is
the spec's decision D13 (log 15). -/
def Obligations.NopOnlyMovesPc : Prop :=
  ∀ s : State, (encode .nop).toNat = 0x0000 ∧ cycles .nop s = 1
    ∧ (∀ iset hasDptr, decode iset hasDptr 0x0000 = .ok .nop)
    ∧ ∃ t, exec .nop s = .next t ∧ t = { s with pc := t.pc } ∧ PcPlus s t 1

/-- RET, RETI and RETLW (R159, R160, R161) on a stack that is not empty: TOS is popped into PC; RETI sets GIE, RETLW puts
k in W; nothing else changes. -/
def Obligations.ReturnsPopIntoPc : Prop :=
  ∀ (s : State) (k : BitVec 8) (a : PAddr) (rest : List PAddr), s.stk = a :: rest →
    exec .ret s = .next { s with pc := a, stk := rest }
    ∧ exec .reti s = .next { s with pc := a, stk := rest, gie := true }
    ∧ exec (.retlw k) s = .next { s with pc := a, stk := rest, w := k }
    ∧ (encode .ret).toNat = 0x0040 ∧ (encode .reti).toNat = 0x0060 ∧ (encode (.retlw k)).toNat = 0x1800 + k.toNat
    ∧ cycles .ret s = 2 ∧ cycles .reti s = 2 ∧ cycles (.retlw k) s = 2

/-- TBLWL and TBLWH (R162, R163): the two bytes of the program word that DPTR, made of DPH and DPL, addresses; no flag is
written and nothing else changes. That the high byte has two zero bits on top for every word is R54's own derivation
(DEDUCED, log 20); that DPTR takes the low DPTR_MSB - 7 bits of DPH, ignores the others and is cut to the bits of PC is
the spec's reading in R33 and R52 (DEDUCED, log 14). -/
def Obligations.TableReadsGiveTheBytesOfTheWord : Prop :=
  ∀ s : State,
    s.tableAddr.toNat
      = ((s.f s.part.dphAddr).toNat % 2 ^ (s.part.dptrMsb - 7) * 256 + (s.f s.part.dplAddr).toNat) % 2 ^ s.part.pcw.bits
    ∧ (encode .tblwl).toNat = 0x0050 ∧ (encode .tblwh).toNat = 0x0058 ∧ cycles .tblwl s = 2 ∧ cycles .tblwh s = 2
    ∧ (s.tableAddr.toNat < s.part.romSize → ∃ lo hi,
      exec .tblwl s = .next lo ∧ exec .tblwh s = .next hi
      ∧ lo.w.toNat + 256 * hi.w.toNat = (s.romWord s.tableAddr).toNat ∧ hi.w.toNat < 64
      ∧ lo = { s with w := lo.w, pc := lo.pc } ∧ PcPlus s lo 1
      ∧ hi = { s with w := hi.w, pc := hi.pc } ∧ PcPlus s hi 1)

/-- SLEEP, in the code of each set (R164): TO becomes 0, PD 1, and the core stops. That PC already points at the next
instruction and that WDT is not written are the spec's decisions D17 and D24 (log 22). -/
def Obligations.SleepStopsTheCore : Prop :=
  ∀ s : State, (encode .sleepA).toNat = 0x0003 ∧ (encode .sleepB).toNat = 0x1E03
    ∧ cycles .sleepA s = 1 ∧ cycles .sleepB s = 1
    ∧ ∃ t, exec .sleepA s = .next t ∧ exec .sleepB s = .next t
      ∧ t = { s with toFlag := false, pdFlag := true, mode := .sleep, pc := t.pc } ∧ PcPlus s t 1

/-! ### What instructions write, over the whole set -/

/-- Z, C and DC are written only by the instructions R24 lists. -/
def Obligations.FlagsAreWrittenOnlyAsListed : Prop :=
  ∀ (i : Instr) (s t : State), exec i s = .next t →
    (i.writesZ = false → t.z = s.z) ∧ (i.writesC = false → t.c = s.c) ∧ (i.writesDc = false → t.dc = s.dc)

/-- Only RETI writes GIE, only CLRWDT writes WDT, only SLEEP changes the run mode, only those two write TO and PD (R25,
R26, R28, R29). -/
def Obligations.SystemStateIsWrittenOnlyAsListed : Prop :=
  ∀ (i : Instr) (s t : State), exec i s = .next t →
    (i ≠ .reti → t.gie = s.gie) ∧ (i.isClrwdt = false → t.wdt = s.wdt) ∧ (i.isSleep = false → t.mode = s.mode)
    ∧ (i.isClrwdt = false → i.isSleep = false → t.toFlag = s.toFlag ∧ t.pdFlag = s.pdFlag)

/-- An instruction stores to no register but the one its operand and d name, to W only where W is its destination, and
only CALL and the returns touch the stack (R21, R53, R100). -/
def Obligations.RegistersAreWrittenOnlyAtTheDestination : Prop :=
  ∀ (i : Instr) (s t : State), exec i s = .next t →
    (∀ a, i.fStored ≠ some a → t.f a = s.f a) ∧ (∀ a, i.rStored ≠ some a → t.r a = s.r a)
    ∧ (i.writesW = false → t.w = s.w) ∧ (i.usesStack = false → t.stk = s.stk)

/-- Every instruction completes, in every state, exactly when its own accesses are ones the spec describes: its register
is storage, a push has room, a pop has an entry, a table read is inside program memory (R50 to R52, R101, R139, R150,
R180). That it stops otherwise is the spec's decisions D4, D5 and D7 (log 18, log 19). That nothing else is needed is the
model's choice: R101 and R150 also list a fault ReadOfUnwritten, which the model has not, because every register holds a
value from reset on (log 3, log 4). -/
def Obligations.InstructionsCompleteExactlyWhenAccessesAre : Prop :=
  ∀ (i : Instr) (s : State), (∃ t, exec i s = .next t) ↔ s.canComplete i = true

/-- An access the spec gives no meaning stops with the fault R181 names, and records the plane, the address and whether
it reads or writes; a push on a full stack, a pop of an empty one and a table read outside program memory have their own.
That the model stops there is the spec's decisions D4, D5 and D7 (log 18, log 19). -/
def Obligations.UndescribedAccessesFault : Prop :=
  ∀ (i : Instr) (s : State),
    (∀ a, i.fOperand = some a → s.fClass a ≠ .plain →
      exec i s = .fault (.registerNotModelled .f a.toNat
        (match i with | .clrf _ => .write | .movwf _ => .write | _ => .read)))
    ∧ (∀ a, i.rOperand = some a → s.rClass a ≠ .plain →
      exec i s = .fault (.registerNotModelled .r a.toNat (match i with | .movrw _ => .read | _ => .write)))
    ∧ (∀ k, i = .call k → s.part.stackDepth ≤ s.stk.length → exec i s = .fault (.stackOverflow s.pc))
    ∧ (i = .ret ∨ i = .reti ∨ (∃ k, i = .retlw k) → s.stk = [] → exec i s = .fault (.stackUnderflow s.pc))
    ∧ (i.isTableRead = true → s.part.romSize ≤ s.tableAddr.toNat →
      exec i s = .fault (.romReadOutOfRange s.tableAddr))
    ∧ (s.part.stackDepth ≤ s.stk.length → interruptEntry s = .fault (.stackOverflow s.pc))

/-- No instruction reads Z, DC, TO, PD, GIE or WDT: two states that differ only there have outcomes that differ only
there (R24, R25, R26, R28, R35). -/
def Obligations.UnreadStateDoesNotInterfere : Prop :=
  ∀ (i : Instr) (s t : State), s.visible = t.visible → SameVisibly (exec i s) (exec i t)

/-- Only TBLWL and TBLWH read program memory: every other instruction does the same whatever program memory holds, so a
skip does not depend on the word it skips (R53, R140; that the skipped word is not read is the spec's decision D19). -/
def Obligations.OnlyTableReadsReadProgramMemory : Prop :=
  ∀ (i : Instr) (s : State) (m : Memory 14), i.isTableRead = false →
    exec i { s with rom := m } = withRom m (exec i s)

/-- PC after an instruction that is no control transfer: PC + 2 after a skip that is taken, PC + 1 otherwise, which is as
many instructions on as the cycles of every instruction but the table reads (R22, R140, R214). -/
def Obligations.PcGoesOnByOneOrSkips : Prop :=
  ∀ (i : Instr) (s t : State), i.isTransfer = false → exec i s = .next t →
    (i.isTableRead = true → PcPlus s t 1) ∧ (i.isTableRead = false → PcPlus s t (cycles i s))

/-! ### Steps, events and invariants -/

/-- Where no event comes first, a step is the instruction that the word at PC decodes to, run in the state in which the
boundary's input is consumed and WDT is what the watchdog has counted; nothing else of it differs (R10, R76; log 7,
log 8). -/
def Obligations.StepRunsTheDecodedInstruction : Prop :=
  ∀ (s : State) (i : Instr), s.mode = .run → s.input.reset = false → (s.input.watchdog && s.part.wdtEnabled) = false →
    (s.gie && s.input.irq) = false → s.pc.toNat < s.part.romSize →
    decode s.part.iset s.part.hasDptr (s.romWord s.pc) = .ok i →
    step s = exec i s.arrive ∧ (s.input.wdtCount = none → s.arrive = { s with env := s.env.tail })
    ∧ (∀ n, s.input.wdtCount = some n → s.arrive = { s with env := s.env.tail, wdt := n % 2 ^ s.part.wdtw })

/-- A word placed where the next fetch reads it is the instruction the next step runs, from every state and for every
instruction of either set (the model's own interface, log 23). -/
def Obligations.PlacedWordIsTheNextInstruction : Prop :=
  ∀ (s : State) (nbits w : Nat) (i : Instr), w < 2 ^ 14 →
    decode (setFor s.part.iset (BitVec.ofNat 14 w)) true (BitVec.ofNat 14 w) = .ok i →
    step (s.withFetchWord nbits w) = exec i (s.withFetchWord nbits w)

/-- Every step keeps the state well-formed: PC and the stack's entries keep PCW bits, the stack its depth, WDT its
width, and the memories their canonical form (R22, R23, R28, R30 to R32). -/
def Obligations.StepKeepsWellFormedState : Prop :=
  ∀ s t : State, s.wf = true → step s = .next t → t.wf = true

/-- The state after reset is well-formed, with PC at RESET_VECTOR, the stack empty and the core running (R36, R210; the
parameters' values are the model's, log 2). -/
def Obligations.ResetStateIsWellFormed : Prop :=
  State.reset.wf = true ∧ State.reset.pc = State.reset.part.resetVector ∧ State.reset.stk = [] ∧ State.reset.mode = .run

/-- No step changes program memory or a parameter of the part, the set among them (R53, R62, R80). -/
def Obligations.StepKeepsProgramAndPart : Prop :=
  ∀ s t : State, step s = .next t → t.rom = s.rom ∧ t.part = s.part

/-- Where no event comes first, a fetch beyond program memory and a word that is no instruction of the part stop the
machine, each with its own fault (R52, R79, R181; the spec's decisions D2 and D4, log 19). -/
def Obligations.FetchFaultsAreNamed : Prop :=
  ∀ s : State, s.mode = .run → s.input.reset = false → (s.input.watchdog && s.part.wdtEnabled) = false →
    (s.gie && s.input.irq) = false →
    (s.part.romSize ≤ s.pc.toNat → step s = .fault (.fetchOutOfRange s.pc))
    ∧ (s.pc.toNat < s.part.romSize → ∀ e, decode s.part.iset s.part.hasDptr (s.romWord s.pc) = .error e →
      step s = .fault (.illegalInstruction s.pc (s.romWord s.pc)))

/-- Interrupt entry (R187): with GIE = 1, a request and room on the stack, a running core pushes PC, clears GIE and goes
to INT_VECTOR; nothing else changes but the boundary's input, which is consumed, and WDT where the watchdog has counted at
that boundary (the model's choice, log 7, log 8). The sequence is the spec's decision D10 (log 17). -/
def Obligations.InterruptEntrySavesPcAndClearsGie : Prop :=
  ∀ s : State, s.mode = .run → s.input.reset = false → (s.input.watchdog && s.part.wdtEnabled) = false →
    s.gie = true → s.input.irq = true → s.stk.length < s.part.stackDepth →
    ∃ t, step s = .next t ∧ t.pc = s.part.intVector ∧ t.gie = false ∧ t.stk = s.pc :: s.stk
      ∧ t = { s.arrive with pc := t.pc, gie := t.gie, stk := t.stk }
      ∧ (s.input.wdtCount = none → s.arrive = { s with env := s.env.tail })
      ∧ (∀ n, s.input.wdtCount = some n → s.arrive = { s with env := s.env.tail, wdt := n % 2 ^ s.part.wdtw })

/-- RETI undoes interrupt entry (R160, R187, R189): a handler that leaves the stack as entry made it returns to the
interrupted address with the stack as it was and GIE = 1, and changes nothing else. -/
def Obligations.RetiUndoesInterruptEntry : Prop :=
  ∀ s t h : State, interruptEntry s = .next t → h.stk = t.stk →
    exec .reti h = .next { h with pc := s.pc, stk := s.stk, gie := true }

/-- While GIE = 0 no interrupt is taken (R26): a running core does the same whether or not a request is there. -/
def Obligations.RequestsAreIgnoredWhileGieIsClear : Prop :=
  ∀ (s : State) (request : Bool), s.mode = .run → s.gie = false →
    step s = step { s with env := { s.input with irq := request } :: s.env.tail }

/-- Interrupts do not nest (R189): GIE goes from 0 to 1 in a step only by RETI, or by an event that resets the core. -/
def Obligations.OnlyRetiOrResetEnablesInterrupts : Prop :=
  ∀ s t : State, step s = .next t → s.gie = false → t.gie = true →
    s.input.reset = true ∨ (s.input.watchdog = true ∧ s.part.wdtEnabled = true)
    ∨ (s.mode = .run ∧ s.arrive.fetch = .ok .reti)

/-- A reset event (R210), in Run or Sleep: PC to RESET_VECTOR, mode Run, the stack empty, GIE to GIE_RESET where the part
fixes it; the program and the part stay. Mode Run is the spec's decision D9, the empty stack D25, GIE D11 (log 33), and
that the event comes before any other D27. What the rule leaves without a value (W, Z, C, DC, TO, PD, WDT, every register
of both planes, and GIE where GIE_RESET is unspecified) holds free values, which is the model's choice (log 6). -/
def Obligations.ResetEventRestartsTheCore : Prop :=
  ∀ s : State, s.input.reset = true →
    ∃ t, step s = .next t ∧ t.pc = s.part.resetVector ∧ t.stk = [] ∧ t.mode = .run
      ∧ (∀ b, s.part.gieReset = some b → t.gie = b)
      ∧ (s.part.gieReset = none → t.gie = Config.freeBit s.resetCount .gie)
      ∧ t.w = Config.freeByte s.resetCount .w ∧ t.z = Config.freeBit s.resetCount .z
      ∧ t.c = Config.freeBit s.resetCount .c ∧ t.dc = Config.freeBit s.resetCount .dc
      ∧ t.toFlag = Config.freeBit s.resetCount .toFlag ∧ t.pdFlag = Config.freeBit s.resetCount .pdFlag
      ∧ t.wdt = Config.freeCount s.resetCount % 2 ^ s.part.wdtw
      ∧ (∀ a, t.f a = Config.freeByte s.resetCount (.fplane a)) ∧ (∀ a, t.r a = Config.freeByte s.resetCount (.rplane a))
      ∧ t.rom = s.rom ∧ t.part = s.part ∧ t.env = s.env.tail ∧ t.resetCount = s.resetCount + 1

/-- The order of events at a boundary (R190, the spec's decision D27): a reset first; a watchdog event of a part with
WDT_ENABLED next, with the effect of a reset (R192, D12); then interrupt entry; then the instruction. -/
def Obligations.EventsComeInOrder : Prop :=
  ∀ s : State,
    (s.input.reset = true → ∀ i : Input, i.reset = true →
      step s = step { s with env := i :: s.env.tail })
    ∧ (s.input.reset = false → s.input.watchdog = true → s.part.wdtEnabled = true →
      step s = step { s with env := { s.input with reset := true } :: s.env.tail })
    ∧ (s.input.reset = false → (s.input.watchdog && s.part.wdtEnabled) = false → s.mode = .run →
      s.gie = true → s.input.irq = true → step s = interruptEntry s.arrive)

/-- A sleeping core without a reset, watchdog or wake-up event executes nothing and keeps its state (R29, R194) but the
boundary's input, which is consumed, and WDT where the watchdog has counted (log 7, log 8); that the model answers the same
state, rather than none, is its own choice (log 9). -/
def Obligations.SleepingCoreKeepsItsState : Prop :=
  ∀ s : State, s.mode = .sleep → s.input.reset = false → (s.input.watchdog && s.part.wdtEnabled) = false →
    s.input.wake = false →
    step s = .next s.arrive ∧ (s.input.wdtCount = none → s.arrive = { s with env := s.env.tail })
    ∧ (∀ n, s.input.wdtCount = some n → s.arrive = { s with env := s.env.tail, wdt := n % 2 ^ s.part.wdtw })

/-- A wake-up (R194, the spec's decision D17) makes the core run and changes nothing else but the boundary's input and WDT
where the watchdog has counted (log 7, log 8); if at that boundary GIE = 1 and a request is there, interrupt entry comes
next, before the instruction after the SLEEP (log 10). -/
def Obligations.WakeUpResumesAfterSleep : Prop :=
  ∀ s : State, s.mode = .sleep → s.input.reset = false → (s.input.watchdog && s.part.wdtEnabled) = false →
    s.input.wake = true →
    ∃ t, step s = .next t ∧ t = { s.arrive with mode := .run, env := t.env }
      ∧ (s.input.wdtCount = none → s.arrive = { s with env := s.env.tail })
      ∧ (∀ n, s.input.wdtCount = some n → s.arrive = { s with env := s.env.tail, wdt := n % 2 ^ s.part.wdtw })
      ∧ (s.gie = true → s.input.irq = true → step t = interruptEntry { t with env := s.env.tail })
      ∧ ((s.gie && s.input.irq) = false → ∀ i, s.fetch = .ok i → step t = exec i { t with env := s.env.tail })

/-- A GOTO to its own address is where a program ends (R215, the spec's decision D26): with nothing asserted, the step
changes no state but the consumed input. -/
def Obligations.SelfJumpIsAFixedPoint : Prop :=
  ∀ s : State, s.mode = .run → s.input = Input.quiet → s.atSelfJump = true →
    step s = .next { s with env := s.env.tail }

/-! ### Instructions together -/

/-- A rotation is of nine bits (R115, R116): nine RLF f,1, or nine RRF f,1, restore f and C. -/
def Obligations.NineRotationsRestore : Prop :=
  ∀ (s : State) (f : BitVec 7), s.fClass f = .plain →
    (∃ t, execTimes 9 (.rlf f .file) s = .next t ∧ t.f f = s.f f ∧ t.c = s.c)
    ∧ (∃ t, execTimes 9 (.rrf f .file) s = .next t ∧ t.f f = s.f f ∧ t.c = s.c)

/-- RRF f,1 undoes RLF f,1, RLF f,1 undoes RRF f,1, and SWAPF f,1 undoes itself: every register of both planes and C
read as before (R115, R116, R119). -/
def Obligations.RotatesAndSwapsAreUndone : Prop :=
  ∀ (s : State) (f : BitVec 7), s.fClass f = .plain →
    (∃ t u, exec (.rlf f .file) s = .next t ∧ exec (.rrf f .file) t = .next u ∧ KeepsPlanes s u ∧ u.c = s.c)
    ∧ (∃ t u, exec (.rrf f .file) s = .next t ∧ exec (.rlf f .file) t = .next u ∧ KeepsPlanes s u ∧ u.c = s.c)
    ∧ (∃ u, execTimes 2 (.swapf f .file) s = .next u ∧ KeepsPlanes s u ∧ KeepsFlags s u)

/-- Memories in canonical form that read the same are the same data, which is about the list form that the model chose for
a memory (log 4, log 5), and a write of the value already held changes nothing (R57). -/
def Obligations.CanonicalMemoriesAreData : Prop :=
  (∀ (n size : Nat) (m m' : Memory n), Memory.wf m size = true → Memory.wf m' size = true →
    (∀ a, Memory.read m a = Memory.read m' a) → m = m')
  ∧ (∀ (n size : Nat) (m : Memory n) (a : Nat), Memory.wf m size = true → a < size →
    Memory.write m a (Memory.read m a) = m)

/-! ### The assembler -/

/-- What the assembler accepts and refuses, on a part and with any symbols (R83, R85, R86). (1) An accepted statement gives
the instruction that its mnemonic and operand values name; the values are in the ranges of R86, and the instruction's word
decodes back to it. (2) A mnemonic of the set with as many operands as it has, one of them outside its range, is refused
with operandRange. (3) The mnemonic and the operand values of every instruction the part has give that instruction. That
MOVWR with an excluded r is accepted, as the instruction that has its word, is the model's choice (log 25). -/
def Obligations.AssembledStatementsDecodeBack : Prop :=
  ∀ (iset : ISet) (hasDptr : Bool) (syms : Symbols) (ops : List (List Char)),
    (∀ (m : List Char) (i : Instr), assembleStatement iset hasDptr syms m ops = .ok i →
      ∃ vs, operandValues syms ops = .ok vs ∧ i.namedBy iset m vs
        ∧ (∃ row ∈ operandRanges iset, m = row.1.toList ∧ inRanges row.2 vs = true)
        ∧ decode iset hasDptr (encode i) = .ok i ∧ i.assemblable = true)
    ∧ (∀ row ∈ operandRanges iset, ∀ vs, operandValues syms ops = .ok vs → vs.length = row.2.length →
      inRanges row.2 vs = false → assembleStatement iset hasDptr syms row.1.toList ops = .error (.operandRange row.1.toList))
    ∧ (∀ i : Instr, i.wellFormed iset hasDptr = true → i.assemblable = true → operandValues syms ops = .ok i.operands →
      assembleStatement iset hasDptr syms i.mnemonic.toList ops = .ok i)

/-- A statement that omits d or b is refused, never completed with a default (R84, the spec's decision D23). -/
def Obligations.OmittedOperandsAreRefused : Prop :=
  ∀ (iset : ISet) (hasDptr : Bool) (a : Nat) (m : String),
    m ∈ ["ADDWF", "ANDWF", "COMF", "DECF", "DECFSZ", "INCF", "INCFSZ", "IORWF", "RLF", "RRF", "SUBWF", "SWAPF", "XORWF",
      "BCF", "BSF", "BTFSC", "BTFSS"] →
    assembleInstr iset hasDptr m.toList [a] = .error (.operandCount m.toList)

/-! ### The end of a run, and numbers -/

/-- When a run has ended (R215, the spec's decision D26; log 34). A sleeping core's run has ended exactly when no wake-up is
among the boundaries to come. A run that has ended stays ended: at a boundary with no reset, watchdog event or interrupt
entry the step changes nothing but the consumed input and what the watchdog has counted (log 8). -/
def Obligations.EndedRunStaysEnded : Prop :=
  ∀ s : State,
    (s.mode = .sleep → (s.ended = true ↔ ∀ i ∈ s.env, i.wake = false))
    ∧ (s.ended = true → s.input.reset = false → (s.input.watchdog && s.part.wdtEnabled) = false →
      (s.mode = .run → (s.gie && s.input.irq) = false) → step s = .next s.arrive ∧ s.arrive.ended = true)

/-- Numbers (R6), each with any count z of leading zeros: decimal digits read as the number they are written for, and so do
hexadecimal digits, in lower case or in upper case, after 0x or 0X, or before h or H. The eight bits of a byte, written as
two groups of four with a blank between them, read as that byte. -/
def Obligations.NumbersReadAsWritten : Prop :=
  (∀ n z : Nat, number (List.replicate z '0' ++ Nat.toDigits 10 n) = some n
    ∧ ∀ hex : List Char, hex = List.replicate z '0' ++ Nat.toDigits 16 n
        ∨ hex = List.replicate z '0' ++ (Nat.toDigits 16 n).map Char.toUpper →
      number ('0' :: 'x' :: hex) = some n ∧ number ('0' :: 'X' :: hex) = some n
      ∧ number (hex ++ ['h']) = some n ∧ number (hex ++ ['H']) = some n)
    ∧ ∀ x : Byte, let bit := fun k => if x.getLsbD k then '1' else '0'
      number [bit 7, bit 6, bit 5, bit 4, ' ', bit 3, bit 2, bit 1, bit 0] = some x.toNat
end

