-- ==== Sys2Proof/Laws/Assembler.lean ====
section
/-! SUPPORT. What each function of the assembler can answer: fields, destinations, forms, digits, and an accepted
statement. -/

namespace Sys2Proof.Machine

/-- A value that a field accepts is the field's number, below 2^n. -/
theorem field_eq_some {n v : Nat} {x : BitVec n} (h : field n v = some x) : v < 2 ^ n ∧ x.toNat = v := by
  unfold field at h
  split at h
  · next hv => cases h; exact ⟨hv, by simp [Nat.mod_eq_of_lt hv]⟩
  · cases h

/-- A field accepts the number of each of its values. -/
@[simp] theorem field_toNat {n : Nat} (x : BitVec n) : field n x.toNat = some x := by
  unfold field; rw [if_pos x.isLt]; simp

/-- A field refuses exactly the values of 2^n and above. -/
theorem field_eq_none {n v : Nat} : field n v = none ↔ 2 ^ n ≤ v := by
  unfold field; split <;> simp_all

/-- A value that d accepts is the destination's bit. -/
theorem asmDest_eq_some {v : Nat} {d : Dest} (h : asmDest v = some d) : v ≤ 1 ∧ d.bit.toNat = v := by
  unfold asmDest at h
  split at h
  · next hv => subst hv; cases h; decide
  · split at h
    · next hv => subst hv; cases h; decide
    · cases h

/-- d accepts the bit of each destination. -/
@[simp] theorem asmDest_bit (d : Dest) : asmDest d.bit.toNat = some d := by cases d <;> rfl

/-- A mnemonic with a form is a row of the set's list. -/
theorem formOf_eq_some {iset : ISet} {m : List Char} {form : AsmForm} (h : formOf iset m = some form) :
    ∃ row ∈ commonForms ++ setForms iset, row.1.toList = m ∧ row.2 = form := by
  unfold formOf at h
  simp only [Option.map_eq_some_iff] at h
  obtain ⟨row, h1, h2⟩ := h
  exact ⟨row, List.mem_of_find?_eq_some h1, by simpa using List.find?_some h1, h2⟩

/-- An accepted mnemonic and operand values are of a form of the set that builds the instruction, which the part has and
whose operands are in range. -/
theorem assembleInstr_ok {iset : ISet} {hasDptr : Bool} {m : List Char} {ops : List Nat} {i : Instr}
    (h : assembleInstr iset hasDptr m ops = .ok i) :
    ∃ form, formOf iset m = some form ∧ form.build ops = some (some i) ∧ i.wellFormed iset hasDptr = true
      ∧ i.assemblable = true := by
  unfold assembleInstr at h
  split at h
  · split at h <;> cases h
  · next form hf =>
    split at h
    · cases h
    · cases h
    · next j hb =>
      split at h
      · cases h
      · next hw =>
        split at h
        · cases h
        · next ha => cases h; exact ⟨form, hf, hb, by simpa using hw, by simpa using ha⟩

/-- An accepted statement is an accepted mnemonic with the values of its operands. -/
theorem assembleStatement_ok {iset : ISet} {hasDptr : Bool} {syms : Symbols} {m : List Char} {ops : List (List Char)}
    {i : Instr} (h : assembleStatement iset hasDptr syms m ops = .ok i) :
    ∃ vs, operandValues syms ops = .ok vs ∧ assembleInstr iset hasDptr m vs = .ok i := by
  unfold assembleStatement at h
  split at h
  · cases h
  · next vs hv => exact ⟨vs, hv, h⟩

/-- Digits are read one after the other. -/
theorem digits_append (base acc : Nat) (cs ds : List Char) :
    digits base acc (cs ++ ds) = (digits base acc cs).bind fun a => digits base a ds := by
  induction cs generalizing acc with
  | nil => rfl
  | cons c cs ih =>
    simp only [List.cons_append, digits]
    split
    · split
      · rw [ih]
      · rfl
    · rfl

/-- The digit of a value below 16 reads as that value. -/
theorem hexDigit_digitChar {d : Nat} (h : d < 16) : hexDigit (Nat.digitChar d) = some d := by
  have all : ∀ d : Fin 16, hexDigit (Nat.digitChar d) = some d.val := by decide
  exact all ⟨d, h⟩

/-- A label is added to the symbols as a new name, and no symbol changes. -/
theorem addLabel_ok {syms syms' : Symbols} {here : Nat} {label : Option (List Char)}
    (h : addLabel syms here label = .ok syms') :
    (∀ name, label = some name → syms'.lookup name = some here)
    ∧ ∀ x a, syms.lookup x = some a → syms'.lookup x = some a := by
  cases label with
  | none => cases h; exact ⟨nofun, fun _ _ hx => hx⟩
  | some name =>
    by_cases hn : (syms.lookup name).isSome
    · simp [addLabel, hn] at h
    · simp only [addLabel, hn] at h
      cases h
      refine ⟨fun _ e => by cases e; simp, fun x a hx => ?_⟩
      have hne : x ≠ name := fun e => hn (by rw [← e, hx]; rfl)
      rw [List.lookup_cons, beq_false_of_ne hne]; exact hx

/-- The first pass reads line by line: the line's address, its label, and the rest from the address after it. -/
theorem labelPass_cons {syms all : Symbols} {here : Nat} {l : Line} {ls : List Line} {placed : List (Nat × Line)}
    (h : labelPass syms here (l :: ls) = .ok (all, placed)) :
    ∃ next syms' rest, lineNext syms here l = .ok next ∧ addLabel syms here l.label = .ok syms'
      ∧ labelPass syms' next ls = .ok (all, rest) ∧ placed = (here, l) :: rest := by
  simp only [labelPass] at h
  split at h
  · cases h
  · cases h
  · next next syms' h1 h2 =>
    split at h
    · cases h
    · next all' rest h3 => cases h; exact ⟨next, syms', rest, h1, h2, h3, rfl⟩

/-- Every label of a listing stands for the address at which its line is placed, and no symbol changes (R83). -/
theorem labelPass_ok {ls : List Line} {syms all : Symbols} {here : Nat} {placed : List (Nat × Line)}
    (h : labelPass syms here ls = .ok (all, placed)) :
    (∀ a l, (a, l) ∈ placed → ∀ name, l.label = some name → all.lookup name = some a)
    ∧ ∀ x a, syms.lookup x = some a → all.lookup x = some a := by
  induction ls generalizing syms here placed with
  | nil => cases h; exact ⟨nofun, fun _ _ hx => hx⟩
  | cons l ls ih =>
    obtain ⟨next, syms', rest, -, hl, hr, rfl⟩ := labelPass_cons h
    obtain ⟨hlabel, hold⟩ := addLabel_ok hl
    obtain ⟨hrest, hkeep⟩ := ih hr
    refine ⟨fun a l' hm name hn => ?_, fun x a hx => hkeep x a (hold x a hx)⟩
    rcases List.mem_cons.mp hm with e | hm
    · cases e; exact hkeep _ _ (hlabel name hn)
    · exact hrest a l' hm name hn

end Sys2Proof.Machine
end

