-- ==== Sys2Proof/Laws/Exec.lean ====
section
/-! SUPPORT. Each instruction as the shape of Machine/Operands.lean it is, so that no proof unfolds `exec`. -/

namespace Sys2Proof.Machine

/-! ### Byte-oriented instructions -/

theorem exec_addwf (f : BitVec 7) (d : Dest) (s : State) :
    exec (.addwf f d) s = s.byteOriented f d (fun v => (add8 v s.w 0#1).res) fun v => .arith (add8 v s.w 0#1) := rfl
theorem exec_andwf (f : BitVec 7) (d : Dest) (s : State) :
    exec (.andwf f d) s = s.byteOriented f d (fun v => s.w &&& v) fun v => .zero (s.w &&& v) := rfl
theorem exec_clrf (f : BitVec 7) (s : State) :
    exec (.clrf f) s = s.fWrite f 0 fun t => .next ((t.setFlags (.zero 0)).advance) := rfl
theorem exec_clrw (s : State) : exec .clrw s = s.literal 0 (.zero 0) := rfl
theorem exec_comf (f : BitVec 7) (d : Dest) (s : State) :
    exec (.comf f d) s = s.byteOriented f d (fun v => ~~~v) fun v => .zero (~~~v) := rfl
theorem exec_decf (f : BitVec 7) (d : Dest) (s : State) :
    exec (.decf f d) s = s.byteOriented f d (fun v => v - 1) fun v => .zero (v - 1) := rfl
theorem exec_decfsz (f : BitVec 7) (d : Dest) (s : State) :
    exec (.decfsz f d) s = s.byteSkip f d fun v => v - 1 := rfl
theorem exec_incf (f : BitVec 7) (d : Dest) (s : State) :
    exec (.incf f d) s = s.byteOriented f d (fun v => v + 1) fun v => .zero (v + 1) := rfl
theorem exec_incfsz (f : BitVec 7) (d : Dest) (s : State) :
    exec (.incfsz f d) s = s.byteSkip f d fun v => v + 1 := rfl
theorem exec_iorwf (f : BitVec 7) (d : Dest) (s : State) :
    exec (.iorwf f d) s = s.byteOriented f d (fun v => s.w ||| v) fun v => .zero (s.w ||| v) := rfl
theorem exec_movfw (f : BitVec 7) (s : State) :
    exec (.movfw f) s = s.fRead f fun v => .next ((s.setW v).advance) := rfl
theorem exec_movwf (f : BitVec 7) (s : State) : exec (.movwf f) s = s.fWrite f s.w fun t => .next t.advance := rfl
theorem exec_movwrA (r : BitVec 6) (s : State) : exec (.movwrA r) s = s.moveWToR (r.zeroExtend 8) := rfl
theorem exec_movwrB (r : BitVec 8) (s : State) : exec (.movwrB r) s = s.moveWToR r := rfl
theorem exec_rlf (f : BitVec 7) (d : Dest) (s : State) :
    exec (.rlf f d) s
      = s.byteOriented f d (fun v => v.extractLsb' 0 7 ++ BitVec.ofBool s.c) fun v => .carry (v.getLsbD 7) := rfl
theorem exec_rrf (f : BitVec 7) (d : Dest) (s : State) :
    exec (.rrf f d) s
      = s.byteOriented f d (fun v => BitVec.ofBool s.c ++ v.extractLsb' 1 7) fun v => .carry (v.getLsbD 0) := rfl
theorem exec_subwf (f : BitVec 7) (d : Dest) (s : State) :
    exec (.subwf f d) s = s.byteOriented f d (fun v => (sub8 v s.w).res) fun v => .arith (sub8 v s.w) := rfl
theorem exec_movrw (r : BitVec 8) (s : State) :
    exec (.movrw r) s = s.rRead r fun v => .next ((s.setW v).advance) := rfl
theorem exec_swapf (f : BitVec 7) (d : Dest) (s : State) :
    exec (.swapf f d) s = s.byteOriented f d (fun v => v.extractLsb' 0 4 ++ v.extractLsb' 4 4) fun _ => .nothing := rfl
theorem exec_testz (f : BitVec 7) (s : State) :
    exec (.testz f) s = s.fRead f fun v => .next ((s.setFlags (.zero v)).advance) := rfl
theorem exec_xorwf (f : BitVec 7) (d : Dest) (s : State) :
    exec (.xorwf f d) s = s.byteOriented f d (fun v => s.w ^^^ v) fun v => .zero (s.w ^^^ v) := rfl

/-! ### Bit-oriented instructions -/

theorem exec_bcf (f : BitVec 6) (b : BitVec 3) (s : State) :
    exec (.bcf f b) s = s.bitWrite f fun v => v &&& ~~~(bitMask b) := rfl
theorem exec_bsf (f : BitVec 6) (b : BitVec 3) (s : State) :
    exec (.bsf f b) s = s.bitWrite f fun v => v ||| bitMask b := rfl
theorem exec_btfsc (f : BitVec 6) (b : BitVec 3) (s : State) : exec (.btfsc f b) s = s.bitTest f b false := rfl
theorem exec_btfss (f : BitVec 6) (b : BitVec 3) (s : State) : exec (.btfss f b) s = s.bitTest f b true := rfl

/-! ### Literal and control instructions -/

theorem exec_addlw (k : BitVec 8) (s : State) :
    exec (.addlw k) s = s.literal (add8 s.w k 0#1).res (.arith (add8 s.w k 0#1)) := rfl
theorem exec_andlw (k : BitVec 8) (s : State) : exec (.andlw k) s = s.literal (s.w &&& k) (.zero (s.w &&& k)) := rfl
theorem exec_call (k : BitVec 12) (s : State) :
    exec (.call k) s = s.push (s.pcPlus 1) fun t => .next (t.setPc (s.jumpTarget k)) := rfl
theorem exec_clrwdtA (s : State) : exec .clrwdtA s = s.clearWatchdog := rfl
theorem exec_clrwdtB (s : State) : exec .clrwdtB s = s.clearWatchdog := rfl
theorem exec_goto (k : BitVec 12) (s : State) : exec (.goto k) s = .next (s.setPc (s.jumpTarget k)) := rfl
theorem exec_iorlw (k : BitVec 8) (s : State) : exec (.iorlw k) s = s.literal (s.w ||| k) (.zero (s.w ||| k)) := rfl
theorem exec_movlw (k : BitVec 8) (s : State) : exec (.movlw k) s = s.literal k .nothing := rfl
theorem exec_nop (s : State) : exec .nop s = .next s.advance := rfl
theorem exec_ret (s : State) : exec .ret s = s.popPc fun t => t := rfl
theorem exec_reti (s : State) : exec .reti s = s.popPc fun t => t.setGie true := rfl
theorem exec_retlw (k : BitVec 8) (s : State) : exec (.retlw k) s = s.popPc fun t => t.setW k := rfl
theorem exec_tblwl (s : State) : exec .tblwl s = s.tableRead fun w => w.extractLsb' 0 8 := rfl
theorem exec_tblwh (s : State) : exec .tblwh s = s.tableRead fun w => (w.extractLsb' 8 6).zeroExtend 8 := rfl
theorem exec_sleepA (s : State) : exec .sleepA s = s.enterSleep := rfl
theorem exec_sleepB (s : State) : exec .sleepB s = s.enterSleep := rfl
theorem exec_xorlwA (k : BitVec 8) (s : State) : exec (.xorlwA k) s = s.xorLiteral k := rfl
theorem exec_xorlwB (k : BitVec 8) (s : State) : exec (.xorlwB k) s = s.xorLiteral k := rfl

end Sys2Proof.Machine
end

