-- ==== Sys2Proof/Laws/Memory.lean ====
section
/-! SUPPORT. The laws of sparse memory: reading after writing, and the canonical form that every operation keeps. -/

namespace Sys2Proof.Machine

theorem Memory.read_filter_ne {n : Nat} (m : Memory n) (a b : Nat) (h : b ≠ a) :
    Memory.read (m.filter fun cell => cell.1 != a) b = Memory.read m b := by
  induction m with
  | nil => rfl
  | cons cell m ih =>
    obtain ⟨k, v⟩ := cell
    by_cases hk : k = a
    · subst hk
      simpa [Memory.read, Ne.symm h] using ih
    · have hk' : (k != a) = true := by simpa using hk
      simp only [List.filter_cons, hk', if_true, Memory.read, ih]

theorem Memory.read_filter_self {n : Nat} (m : Memory n) (a : Nat) :
    Memory.read (m.filter fun cell => cell.1 != a) a = 0#n := by
  induction m with
  | nil => rfl
  | cons cell m ih =>
    obtain ⟨k, v⟩ := cell
    by_cases hk : k = a <;> simp [Memory.read, hk, ih]

theorem Memory.read_insert_ne {n : Nat} (m : Memory n) (a b : Nat) (v : BitVec n) (h : b ≠ a) :
    Memory.read (Memory.insert m a v) b = Memory.read m b := by
  induction m with
  | nil => by_cases hv : v = 0#n <;> simp [Memory.insert, Memory.read, hv, Ne.symm h]
  | cons cell m ih =>
    obtain ⟨k, x⟩ := cell
    by_cases hk : a < k
    · by_cases hv : v = 0#n <;> simp [Memory.insert, Memory.read, hk, hv, Ne.symm h]
    · simp only [Memory.insert, hk, if_false, Memory.read, ih]

theorem Memory.read_insert_self {n : Nat} (m : Memory n) (a : Nat) (v : BitVec n)
    (h : ∀ cell ∈ m, cell.1 ≠ a) (h0 : Memory.read m a = 0#n) : Memory.read (Memory.insert m a v) a = v := by
  induction m with
  | nil => by_cases hv : v = 0#n <;> simp [Memory.insert, Memory.read, hv]
  | cons cell m ih =>
    obtain ⟨k, x⟩ := cell
    have hka : k ≠ a := h (k, x) (by simp)
    have h0' : Memory.read m a = 0#n := by simpa [Memory.read, hka] using h0
    by_cases hk : a < k
    · by_cases hv : v = 0#n
      · simp [Memory.insert, Memory.read, hk, hv, hka, h0']
      · simp [Memory.insert, Memory.read, hk, hv]
    · simp [Memory.insert, Memory.read, hk, hka, ih (fun c hc => h c (by simp [hc])) h0']

/-- A read after a write to the same address gives the value written. -/
@[simp] theorem Memory.read_write_self {n : Nat} (m : Memory n) (a : Nat) (v : BitVec n) :
    Memory.read (Memory.write m a v) a = v := by
  apply Memory.read_insert_self
  · intro cell hc
    simpa using (List.mem_filter.mp hc).2
  · exact Memory.read_filter_self m a

/-- A write leaves every other address alone. -/
theorem Memory.read_write_ne {n : Nat} (m : Memory n) (a b : Nat) (v : BitVec n) (h : b ≠ a) :
    Memory.read (Memory.write m a v) b = Memory.read m b := by
  rw [Memory.write, Memory.read_insert_ne _ _ _ _ h, Memory.read_filter_ne _ _ _ h]

/-! ### The canonical form -/

theorem Memory.wfFrom_mono {n : Nat} (m : Memory n) {lo lo' size : Nat} (h : lo' ≤ lo)
    (hm : Memory.wfFrom m lo size = true) : Memory.wfFrom m lo' size = true := by
  cases m with
  | nil => rfl
  | cons cell m =>
    obtain ⟨k, v⟩ := cell
    simp only [Memory.wfFrom, Bool.and_eq_true, decide_eq_true_eq] at hm ⊢
    exact ⟨⟨⟨by omega, hm.1.1.2⟩, hm.1.2⟩, hm.2⟩

theorem Memory.filter_wfFrom {n : Nat} (m : Memory n) (a : Nat) {lo size : Nat}
    (hm : Memory.wfFrom m lo size = true) :
    Memory.wfFrom (m.filter fun cell => cell.1 != a) lo size = true := by
  induction m generalizing lo with
  | nil => rfl
  | cons cell m ih =>
    obtain ⟨k, v⟩ := cell
    simp only [Memory.wfFrom, Bool.and_eq_true, decide_eq_true_eq] at hm
    by_cases hk : k = a
    · simpa [hk] using Memory.wfFrom_mono _ (by omega) (ih hm.2)
    · simpa [hk, Memory.wfFrom, hm.1.1.1, hm.1.1.2] using ⟨by simpa using hm.1.2, ih hm.2⟩

theorem Memory.insert_wfFrom {n : Nat} (m : Memory n) (a : Nat) (v : BitVec n) {lo size : Nat}
    (hm : Memory.wfFrom m lo size = true) (hne : ∀ cell ∈ m, cell.1 ≠ a) (hlo : lo ≤ a) (hsize : a < size) :
    Memory.wfFrom (Memory.insert m a v) lo size = true := by
  induction m generalizing lo with
  | nil => by_cases hv : v = 0#n <;> simp [Memory.insert, Memory.wfFrom, hv, hlo, hsize]
  | cons cell m ih =>
    obtain ⟨k, x⟩ := cell
    simp only [Memory.wfFrom, Bool.and_eq_true, decide_eq_true_eq] at hm
    have hka : k ≠ a := hne (k, x) (by simp)
    by_cases hk : a < k
    · by_cases hv : v = 0#n
      · simp only [Memory.insert, hk, hv, if_true]
        simp [Memory.wfFrom, hm.1.1.1, hm.1.1.2, hm.2]
        simpa using hm.1.2
      · have hk1 : a + 1 ≤ k := hk
        simp only [Memory.insert, hk, hv, if_true, if_false]
        simp [Memory.wfFrom, hlo, hsize, hv, hk1, hm.1.1.2, hm.2]
        simpa using hm.1.2
    · simp only [Memory.insert, hk, if_false]
      simp only [Memory.wfFrom, Bool.and_eq_true, decide_eq_true_eq]
      exact ⟨hm.1, ih hm.2 (fun c hc => hne c (by simp [hc])) (by omega)⟩

/-- A write inside the memory keeps the canonical form. -/
theorem Memory.write_wf {n : Nat} (m : Memory n) (a : Nat) (v : BitVec n) {size : Nat}
    (hm : Memory.wf m size = true) (ha : a < size) : Memory.wf (Memory.write m a v) size = true := by
  refine Memory.insert_wfFrom _ a v (Memory.filter_wfFrom m a hm) ?_ (Nat.zero_le a) ha
  intro cell hc
  simpa using (List.mem_filter.mp hc).2

theorem Memory.ofFun_wfFrom {n : Nat} (g : Nat → BitVec n) (lo count size : Nat) (h : lo + count ≤ size) :
    Memory.wfFrom (Memory.ofFun g lo count) lo size = true := by
  induction count generalizing lo with
  | zero => rfl
  | succ count ih =>
    have hrest := ih (lo + 1) (by omega)
    by_cases hg : g lo = 0#n
    · simpa [Memory.ofFun, hg] using Memory.wfFrom_mono _ (Nat.le_succ lo) hrest
    · have hlt : lo < size := by omega
      simp [Memory.ofFun, hg, Memory.wfFrom, hlt, hrest]

/-- The memory that holds a function's values is in canonical form. -/
theorem Memory.ofFun_wf {n : Nat} (g : Nat → BitVec n) (count : Nat) :
    Memory.wf (Memory.ofFun g 0 count) count = true :=
  Memory.ofFun_wfFrom g 0 count count (by omega)

theorem Memory.read_of_wfFrom_lt {n : Nat} (m : Memory n) {lo size a : Nat}
    (hm : Memory.wfFrom m lo size = true) (ha : a < lo) : Memory.read m a = 0#n := by
  induction m generalizing lo with
  | nil => rfl
  | cons cell m ih =>
    obtain ⟨k, v⟩ := cell
    simp only [Memory.wfFrom, Bool.and_eq_true, decide_eq_true_eq] at hm
    have hka : k ≠ a := by omega
    simpa [Memory.read, hka] using ih hm.2 (by omega)

/-- The memory made of a function holds the function's values. -/
theorem Memory.read_ofFun {n : Nat} (g : Nat → BitVec n) (lo count a : Nat) (hlo : lo ≤ a) (ha : a < lo + count) :
    Memory.read (Memory.ofFun g lo count) a = g a := by
  induction count generalizing lo with
  | zero => omega
  | succ count ih =>
    by_cases he : lo = a
    · subst he
      by_cases hg : g lo = 0#n
      · simpa [Memory.ofFun, hg] using
          Memory.read_of_wfFrom_lt _ (Memory.ofFun_wfFrom g (lo + 1) count (lo + 1 + count) le_rfl) (Nat.lt_succ_self lo)
      · simp [Memory.ofFun, hg, Memory.read]
    · have hrest := ih (lo + 1) (by omega) (by omega)
      by_cases hg : g lo = 0#n <;> simp [Memory.ofFun, hg, Memory.read, he, hrest]

end Sys2Proof.Machine
end

