-- ==== Sys2Proof/Laws/State.lean ====
section
/-! SUPPORT. One lemma per field per update of the state, true by rfl. -/

namespace Sys2Proof.Machine


/-! ### setW -/

@[simp] theorem State.setW_part (s : State) (v : Byte) : (s.setW v).part = s.part := rfl
@[simp] theorem State.setW_rom (s : State) (v : Byte) : (s.setW v).rom = s.rom := rfl
@[simp] theorem State.setW_w (s : State) (v : Byte) : (s.setW v).w = v := rfl
@[simp] theorem State.setW_pc (s : State) (v : Byte) : (s.setW v).pc = s.pc := rfl
@[simp] theorem State.setW_stk (s : State) (v : Byte) : (s.setW v).stk = s.stk := rfl
@[simp] theorem State.setW_z (s : State) (v : Byte) : (s.setW v).z = s.z := rfl
@[simp] theorem State.setW_c (s : State) (v : Byte) : (s.setW v).c = s.c := rfl
@[simp] theorem State.setW_dc (s : State) (v : Byte) : (s.setW v).dc = s.dc := rfl
@[simp] theorem State.setW_toFlag (s : State) (v : Byte) : (s.setW v).toFlag = s.toFlag := rfl
@[simp] theorem State.setW_pdFlag (s : State) (v : Byte) : (s.setW v).pdFlag = s.pdFlag := rfl
@[simp] theorem State.setW_gie (s : State) (v : Byte) : (s.setW v).gie = s.gie := rfl
@[simp] theorem State.setW_wdt (s : State) (v : Byte) : (s.setW v).wdt = s.wdt := rfl
@[simp] theorem State.setW_mode (s : State) (v : Byte) : (s.setW v).mode = s.mode := rfl
@[simp] theorem State.setW_fplane (s : State) (v : Byte) : (s.setW v).fplane = s.fplane := rfl
@[simp] theorem State.setW_rplane (s : State) (v : Byte) : (s.setW v).rplane = s.rplane := rfl
@[simp] theorem State.setW_env (s : State) (v : Byte) : (s.setW v).env = s.env := rfl
@[simp] theorem State.setW_resetCount (s : State) (v : Byte) : (s.setW v).resetCount = s.resetCount := rfl
@[simp] theorem State.setW_f (s : State) (v : Byte) (x : BitVec 7) : (s.setW v).f x = s.f x := rfl
@[simp] theorem State.setW_r (s : State) (v : Byte) (x : BitVec 8) : (s.setW v).r x = s.r x := rfl
@[simp] theorem State.setW_fClass (s : State) (v : Byte) (x : BitVec 7) : (s.setW v).fClass x = s.fClass x := rfl
@[simp] theorem State.setW_rClass (s : State) (v : Byte) (x : BitVec 8) : (s.setW v).rClass x = s.rClass x := rfl
@[simp] theorem State.setW_romWord (s : State) (v : Byte) (x : PAddr) : (s.setW v).romWord x = s.romWord x := rfl
@[simp] theorem State.setW_pcPlus (s : State) (v : Byte) (i : Nat) : (s.setW v).pcPlus i = s.pcPlus i := rfl

/-! ### setPc -/

@[simp] theorem State.setPc_part (s : State) (a : PAddr) : (s.setPc a).part = s.part := rfl
@[simp] theorem State.setPc_rom (s : State) (a : PAddr) : (s.setPc a).rom = s.rom := rfl
@[simp] theorem State.setPc_w (s : State) (a : PAddr) : (s.setPc a).w = s.w := rfl
@[simp] theorem State.setPc_pc (s : State) (a : PAddr) : (s.setPc a).pc = a := rfl
@[simp] theorem State.setPc_stk (s : State) (a : PAddr) : (s.setPc a).stk = s.stk := rfl
@[simp] theorem State.setPc_z (s : State) (a : PAddr) : (s.setPc a).z = s.z := rfl
@[simp] theorem State.setPc_c (s : State) (a : PAddr) : (s.setPc a).c = s.c := rfl
@[simp] theorem State.setPc_dc (s : State) (a : PAddr) : (s.setPc a).dc = s.dc := rfl
@[simp] theorem State.setPc_toFlag (s : State) (a : PAddr) : (s.setPc a).toFlag = s.toFlag := rfl
@[simp] theorem State.setPc_pdFlag (s : State) (a : PAddr) : (s.setPc a).pdFlag = s.pdFlag := rfl
@[simp] theorem State.setPc_gie (s : State) (a : PAddr) : (s.setPc a).gie = s.gie := rfl
@[simp] theorem State.setPc_wdt (s : State) (a : PAddr) : (s.setPc a).wdt = s.wdt := rfl
@[simp] theorem State.setPc_mode (s : State) (a : PAddr) : (s.setPc a).mode = s.mode := rfl
@[simp] theorem State.setPc_fplane (s : State) (a : PAddr) : (s.setPc a).fplane = s.fplane := rfl
@[simp] theorem State.setPc_rplane (s : State) (a : PAddr) : (s.setPc a).rplane = s.rplane := rfl
@[simp] theorem State.setPc_env (s : State) (a : PAddr) : (s.setPc a).env = s.env := rfl
@[simp] theorem State.setPc_resetCount (s : State) (a : PAddr) : (s.setPc a).resetCount = s.resetCount := rfl
@[simp] theorem State.setPc_f (s : State) (a : PAddr) (x : BitVec 7) : (s.setPc a).f x = s.f x := rfl
@[simp] theorem State.setPc_r (s : State) (a : PAddr) (x : BitVec 8) : (s.setPc a).r x = s.r x := rfl
@[simp] theorem State.setPc_fClass (s : State) (a : PAddr) (x : BitVec 7) : (s.setPc a).fClass x = s.fClass x := rfl
@[simp] theorem State.setPc_rClass (s : State) (a : PAddr) (x : BitVec 8) : (s.setPc a).rClass x = s.rClass x := rfl
@[simp] theorem State.setPc_romWord (s : State) (a : PAddr) (x : PAddr) : (s.setPc a).romWord x = s.romWord x := rfl

/-! ### setStk -/

@[simp] theorem State.setStk_part (s : State) (l : List PAddr) : (s.setStk l).part = s.part := rfl
@[simp] theorem State.setStk_rom (s : State) (l : List PAddr) : (s.setStk l).rom = s.rom := rfl
@[simp] theorem State.setStk_w (s : State) (l : List PAddr) : (s.setStk l).w = s.w := rfl
@[simp] theorem State.setStk_pc (s : State) (l : List PAddr) : (s.setStk l).pc = s.pc := rfl
@[simp] theorem State.setStk_stk (s : State) (l : List PAddr) : (s.setStk l).stk = l := rfl
@[simp] theorem State.setStk_z (s : State) (l : List PAddr) : (s.setStk l).z = s.z := rfl
@[simp] theorem State.setStk_c (s : State) (l : List PAddr) : (s.setStk l).c = s.c := rfl
@[simp] theorem State.setStk_dc (s : State) (l : List PAddr) : (s.setStk l).dc = s.dc := rfl
@[simp] theorem State.setStk_toFlag (s : State) (l : List PAddr) : (s.setStk l).toFlag = s.toFlag := rfl
@[simp] theorem State.setStk_pdFlag (s : State) (l : List PAddr) : (s.setStk l).pdFlag = s.pdFlag := rfl
@[simp] theorem State.setStk_gie (s : State) (l : List PAddr) : (s.setStk l).gie = s.gie := rfl
@[simp] theorem State.setStk_wdt (s : State) (l : List PAddr) : (s.setStk l).wdt = s.wdt := rfl
@[simp] theorem State.setStk_mode (s : State) (l : List PAddr) : (s.setStk l).mode = s.mode := rfl
@[simp] theorem State.setStk_fplane (s : State) (l : List PAddr) : (s.setStk l).fplane = s.fplane := rfl
@[simp] theorem State.setStk_rplane (s : State) (l : List PAddr) : (s.setStk l).rplane = s.rplane := rfl
@[simp] theorem State.setStk_env (s : State) (l : List PAddr) : (s.setStk l).env = s.env := rfl
@[simp] theorem State.setStk_resetCount (s : State) (l : List PAddr) : (s.setStk l).resetCount = s.resetCount := rfl
@[simp] theorem State.setStk_f (s : State) (l : List PAddr) (x : BitVec 7) : (s.setStk l).f x = s.f x := rfl
@[simp] theorem State.setStk_r (s : State) (l : List PAddr) (x : BitVec 8) : (s.setStk l).r x = s.r x := rfl
@[simp] theorem State.setStk_fClass (s : State) (l : List PAddr) (x : BitVec 7) : (s.setStk l).fClass x = s.fClass x := rfl
@[simp] theorem State.setStk_rClass (s : State) (l : List PAddr) (x : BitVec 8) : (s.setStk l).rClass x = s.rClass x := rfl
@[simp] theorem State.setStk_romWord (s : State) (l : List PAddr) (x : PAddr) : (s.setStk l).romWord x = s.romWord x := rfl
@[simp] theorem State.setStk_pcPlus (s : State) (l : List PAddr) (i : Nat) : (s.setStk l).pcPlus i = s.pcPlus i := rfl

/-! ### setFlags -/

@[simp] theorem State.setFlags_part (s : State) (u : FlagWrite) : (s.setFlags u).part = s.part := rfl
@[simp] theorem State.setFlags_rom (s : State) (u : FlagWrite) : (s.setFlags u).rom = s.rom := rfl
@[simp] theorem State.setFlags_w (s : State) (u : FlagWrite) : (s.setFlags u).w = s.w := rfl
@[simp] theorem State.setFlags_pc (s : State) (u : FlagWrite) : (s.setFlags u).pc = s.pc := rfl
@[simp] theorem State.setFlags_stk (s : State) (u : FlagWrite) : (s.setFlags u).stk = s.stk := rfl
@[simp] theorem State.setFlags_z (s : State) (u : FlagWrite) : (s.setFlags u).z = u.z.getD s.z := rfl
@[simp] theorem State.setFlags_c (s : State) (u : FlagWrite) : (s.setFlags u).c = u.c.getD s.c := rfl
@[simp] theorem State.setFlags_dc (s : State) (u : FlagWrite) : (s.setFlags u).dc = u.dc.getD s.dc := rfl
@[simp] theorem State.setFlags_toFlag (s : State) (u : FlagWrite) : (s.setFlags u).toFlag = s.toFlag := rfl
@[simp] theorem State.setFlags_pdFlag (s : State) (u : FlagWrite) : (s.setFlags u).pdFlag = s.pdFlag := rfl
@[simp] theorem State.setFlags_gie (s : State) (u : FlagWrite) : (s.setFlags u).gie = s.gie := rfl
@[simp] theorem State.setFlags_wdt (s : State) (u : FlagWrite) : (s.setFlags u).wdt = s.wdt := rfl
@[simp] theorem State.setFlags_mode (s : State) (u : FlagWrite) : (s.setFlags u).mode = s.mode := rfl
@[simp] theorem State.setFlags_fplane (s : State) (u : FlagWrite) : (s.setFlags u).fplane = s.fplane := rfl
@[simp] theorem State.setFlags_rplane (s : State) (u : FlagWrite) : (s.setFlags u).rplane = s.rplane := rfl
@[simp] theorem State.setFlags_env (s : State) (u : FlagWrite) : (s.setFlags u).env = s.env := rfl
@[simp] theorem State.setFlags_resetCount (s : State) (u : FlagWrite) : (s.setFlags u).resetCount = s.resetCount := rfl
@[simp] theorem State.setFlags_f (s : State) (u : FlagWrite) (x : BitVec 7) : (s.setFlags u).f x = s.f x := rfl
@[simp] theorem State.setFlags_r (s : State) (u : FlagWrite) (x : BitVec 8) : (s.setFlags u).r x = s.r x := rfl
@[simp] theorem State.setFlags_fClass (s : State) (u : FlagWrite) (x : BitVec 7) : (s.setFlags u).fClass x = s.fClass x := rfl
@[simp] theorem State.setFlags_rClass (s : State) (u : FlagWrite) (x : BitVec 8) : (s.setFlags u).rClass x = s.rClass x := rfl
@[simp] theorem State.setFlags_romWord (s : State) (u : FlagWrite) (x : PAddr) : (s.setFlags u).romWord x = s.romWord x := rfl
@[simp] theorem State.setFlags_pcPlus (s : State) (u : FlagWrite) (i : Nat) : (s.setFlags u).pcPlus i = s.pcPlus i := rfl

/-! ### setToPd -/

@[simp] theorem State.setToPd_part (s : State) (t p : Bool) : (s.setToPd t p).part = s.part := rfl
@[simp] theorem State.setToPd_rom (s : State) (t p : Bool) : (s.setToPd t p).rom = s.rom := rfl
@[simp] theorem State.setToPd_w (s : State) (t p : Bool) : (s.setToPd t p).w = s.w := rfl
@[simp] theorem State.setToPd_pc (s : State) (t p : Bool) : (s.setToPd t p).pc = s.pc := rfl
@[simp] theorem State.setToPd_stk (s : State) (t p : Bool) : (s.setToPd t p).stk = s.stk := rfl
@[simp] theorem State.setToPd_z (s : State) (t p : Bool) : (s.setToPd t p).z = s.z := rfl
@[simp] theorem State.setToPd_c (s : State) (t p : Bool) : (s.setToPd t p).c = s.c := rfl
@[simp] theorem State.setToPd_dc (s : State) (t p : Bool) : (s.setToPd t p).dc = s.dc := rfl
@[simp] theorem State.setToPd_toFlag (s : State) (t p : Bool) : (s.setToPd t p).toFlag = t := rfl
@[simp] theorem State.setToPd_pdFlag (s : State) (t p : Bool) : (s.setToPd t p).pdFlag = p := rfl
@[simp] theorem State.setToPd_gie (s : State) (t p : Bool) : (s.setToPd t p).gie = s.gie := rfl
@[simp] theorem State.setToPd_wdt (s : State) (t p : Bool) : (s.setToPd t p).wdt = s.wdt := rfl
@[simp] theorem State.setToPd_mode (s : State) (t p : Bool) : (s.setToPd t p).mode = s.mode := rfl
@[simp] theorem State.setToPd_fplane (s : State) (t p : Bool) : (s.setToPd t p).fplane = s.fplane := rfl
@[simp] theorem State.setToPd_rplane (s : State) (t p : Bool) : (s.setToPd t p).rplane = s.rplane := rfl
@[simp] theorem State.setToPd_env (s : State) (t p : Bool) : (s.setToPd t p).env = s.env := rfl
@[simp] theorem State.setToPd_resetCount (s : State) (t p : Bool) : (s.setToPd t p).resetCount = s.resetCount := rfl
@[simp] theorem State.setToPd_f (s : State) (t p : Bool) (x : BitVec 7) : (s.setToPd t p).f x = s.f x := rfl
@[simp] theorem State.setToPd_r (s : State) (t p : Bool) (x : BitVec 8) : (s.setToPd t p).r x = s.r x := rfl
@[simp] theorem State.setToPd_fClass (s : State) (t p : Bool) (x : BitVec 7) : (s.setToPd t p).fClass x = s.fClass x := rfl
@[simp] theorem State.setToPd_rClass (s : State) (t p : Bool) (x : BitVec 8) : (s.setToPd t p).rClass x = s.rClass x := rfl
@[simp] theorem State.setToPd_romWord (s : State) (t p : Bool) (x : PAddr) : (s.setToPd t p).romWord x = s.romWord x := rfl
@[simp] theorem State.setToPd_pcPlus (s : State) (t p : Bool) (i : Nat) : (s.setToPd t p).pcPlus i = s.pcPlus i := rfl

/-! ### setGie -/

@[simp] theorem State.setGie_part (s : State) (b : Bool) : (s.setGie b).part = s.part := rfl
@[simp] theorem State.setGie_rom (s : State) (b : Bool) : (s.setGie b).rom = s.rom := rfl
@[simp] theorem State.setGie_w (s : State) (b : Bool) : (s.setGie b).w = s.w := rfl
@[simp] theorem State.setGie_pc (s : State) (b : Bool) : (s.setGie b).pc = s.pc := rfl
@[simp] theorem State.setGie_stk (s : State) (b : Bool) : (s.setGie b).stk = s.stk := rfl
@[simp] theorem State.setGie_z (s : State) (b : Bool) : (s.setGie b).z = s.z := rfl
@[simp] theorem State.setGie_c (s : State) (b : Bool) : (s.setGie b).c = s.c := rfl
@[simp] theorem State.setGie_dc (s : State) (b : Bool) : (s.setGie b).dc = s.dc := rfl
@[simp] theorem State.setGie_toFlag (s : State) (b : Bool) : (s.setGie b).toFlag = s.toFlag := rfl
@[simp] theorem State.setGie_pdFlag (s : State) (b : Bool) : (s.setGie b).pdFlag = s.pdFlag := rfl
@[simp] theorem State.setGie_gie (s : State) (b : Bool) : (s.setGie b).gie = b := rfl
@[simp] theorem State.setGie_wdt (s : State) (b : Bool) : (s.setGie b).wdt = s.wdt := rfl
@[simp] theorem State.setGie_mode (s : State) (b : Bool) : (s.setGie b).mode = s.mode := rfl
@[simp] theorem State.setGie_fplane (s : State) (b : Bool) : (s.setGie b).fplane = s.fplane := rfl
@[simp] theorem State.setGie_rplane (s : State) (b : Bool) : (s.setGie b).rplane = s.rplane := rfl
@[simp] theorem State.setGie_env (s : State) (b : Bool) : (s.setGie b).env = s.env := rfl
@[simp] theorem State.setGie_resetCount (s : State) (b : Bool) : (s.setGie b).resetCount = s.resetCount := rfl
@[simp] theorem State.setGie_f (s : State) (b : Bool) (x : BitVec 7) : (s.setGie b).f x = s.f x := rfl
@[simp] theorem State.setGie_r (s : State) (b : Bool) (x : BitVec 8) : (s.setGie b).r x = s.r x := rfl
@[simp] theorem State.setGie_fClass (s : State) (b : Bool) (x : BitVec 7) : (s.setGie b).fClass x = s.fClass x := rfl
@[simp] theorem State.setGie_rClass (s : State) (b : Bool) (x : BitVec 8) : (s.setGie b).rClass x = s.rClass x := rfl
@[simp] theorem State.setGie_romWord (s : State) (b : Bool) (x : PAddr) : (s.setGie b).romWord x = s.romWord x := rfl
@[simp] theorem State.setGie_pcPlus (s : State) (b : Bool) (i : Nat) : (s.setGie b).pcPlus i = s.pcPlus i := rfl

/-! ### setWdt -/

@[simp] theorem State.setWdt_part (s : State) (n : Nat) : (s.setWdt n).part = s.part := rfl
@[simp] theorem State.setWdt_rom (s : State) (n : Nat) : (s.setWdt n).rom = s.rom := rfl
@[simp] theorem State.setWdt_w (s : State) (n : Nat) : (s.setWdt n).w = s.w := rfl
@[simp] theorem State.setWdt_pc (s : State) (n : Nat) : (s.setWdt n).pc = s.pc := rfl
@[simp] theorem State.setWdt_stk (s : State) (n : Nat) : (s.setWdt n).stk = s.stk := rfl
@[simp] theorem State.setWdt_z (s : State) (n : Nat) : (s.setWdt n).z = s.z := rfl
@[simp] theorem State.setWdt_c (s : State) (n : Nat) : (s.setWdt n).c = s.c := rfl
@[simp] theorem State.setWdt_dc (s : State) (n : Nat) : (s.setWdt n).dc = s.dc := rfl
@[simp] theorem State.setWdt_toFlag (s : State) (n : Nat) : (s.setWdt n).toFlag = s.toFlag := rfl
@[simp] theorem State.setWdt_pdFlag (s : State) (n : Nat) : (s.setWdt n).pdFlag = s.pdFlag := rfl
@[simp] theorem State.setWdt_gie (s : State) (n : Nat) : (s.setWdt n).gie = s.gie := rfl
@[simp] theorem State.setWdt_wdt (s : State) (n : Nat) : (s.setWdt n).wdt = n := rfl
@[simp] theorem State.setWdt_mode (s : State) (n : Nat) : (s.setWdt n).mode = s.mode := rfl
@[simp] theorem State.setWdt_fplane (s : State) (n : Nat) : (s.setWdt n).fplane = s.fplane := rfl
@[simp] theorem State.setWdt_rplane (s : State) (n : Nat) : (s.setWdt n).rplane = s.rplane := rfl
@[simp] theorem State.setWdt_env (s : State) (n : Nat) : (s.setWdt n).env = s.env := rfl
@[simp] theorem State.setWdt_resetCount (s : State) (n : Nat) : (s.setWdt n).resetCount = s.resetCount := rfl
@[simp] theorem State.setWdt_f (s : State) (n : Nat) (x : BitVec 7) : (s.setWdt n).f x = s.f x := rfl
@[simp] theorem State.setWdt_r (s : State) (n : Nat) (x : BitVec 8) : (s.setWdt n).r x = s.r x := rfl
@[simp] theorem State.setWdt_fClass (s : State) (n : Nat) (x : BitVec 7) : (s.setWdt n).fClass x = s.fClass x := rfl
@[simp] theorem State.setWdt_rClass (s : State) (n : Nat) (x : BitVec 8) : (s.setWdt n).rClass x = s.rClass x := rfl
@[simp] theorem State.setWdt_romWord (s : State) (n : Nat) (x : PAddr) : (s.setWdt n).romWord x = s.romWord x := rfl
@[simp] theorem State.setWdt_pcPlus (s : State) (n : Nat) (i : Nat) : (s.setWdt n).pcPlus i = s.pcPlus i := rfl

/-! ### setMode -/

@[simp] theorem State.setMode_part (s : State) (m : Mode) : (s.setMode m).part = s.part := rfl
@[simp] theorem State.setMode_rom (s : State) (m : Mode) : (s.setMode m).rom = s.rom := rfl
@[simp] theorem State.setMode_w (s : State) (m : Mode) : (s.setMode m).w = s.w := rfl
@[simp] theorem State.setMode_pc (s : State) (m : Mode) : (s.setMode m).pc = s.pc := rfl
@[simp] theorem State.setMode_stk (s : State) (m : Mode) : (s.setMode m).stk = s.stk := rfl
@[simp] theorem State.setMode_z (s : State) (m : Mode) : (s.setMode m).z = s.z := rfl
@[simp] theorem State.setMode_c (s : State) (m : Mode) : (s.setMode m).c = s.c := rfl
@[simp] theorem State.setMode_dc (s : State) (m : Mode) : (s.setMode m).dc = s.dc := rfl
@[simp] theorem State.setMode_toFlag (s : State) (m : Mode) : (s.setMode m).toFlag = s.toFlag := rfl
@[simp] theorem State.setMode_pdFlag (s : State) (m : Mode) : (s.setMode m).pdFlag = s.pdFlag := rfl
@[simp] theorem State.setMode_gie (s : State) (m : Mode) : (s.setMode m).gie = s.gie := rfl
@[simp] theorem State.setMode_wdt (s : State) (m : Mode) : (s.setMode m).wdt = s.wdt := rfl
@[simp] theorem State.setMode_mode (s : State) (m : Mode) : (s.setMode m).mode = m := rfl
@[simp] theorem State.setMode_fplane (s : State) (m : Mode) : (s.setMode m).fplane = s.fplane := rfl
@[simp] theorem State.setMode_rplane (s : State) (m : Mode) : (s.setMode m).rplane = s.rplane := rfl
@[simp] theorem State.setMode_env (s : State) (m : Mode) : (s.setMode m).env = s.env := rfl
@[simp] theorem State.setMode_resetCount (s : State) (m : Mode) : (s.setMode m).resetCount = s.resetCount := rfl
@[simp] theorem State.setMode_f (s : State) (m : Mode) (x : BitVec 7) : (s.setMode m).f x = s.f x := rfl
@[simp] theorem State.setMode_r (s : State) (m : Mode) (x : BitVec 8) : (s.setMode m).r x = s.r x := rfl
@[simp] theorem State.setMode_fClass (s : State) (m : Mode) (x : BitVec 7) : (s.setMode m).fClass x = s.fClass x := rfl
@[simp] theorem State.setMode_rClass (s : State) (m : Mode) (x : BitVec 8) : (s.setMode m).rClass x = s.rClass x := rfl
@[simp] theorem State.setMode_romWord (s : State) (m : Mode) (x : PAddr) : (s.setMode m).romWord x = s.romWord x := rfl
@[simp] theorem State.setMode_pcPlus (s : State) (m : Mode) (i : Nat) : (s.setMode m).pcPlus i = s.pcPlus i := rfl

/-! ### setF -/

@[simp] theorem State.setF_part (s : State) (a : BitVec 7) (v : Byte) : (s.setF a v).part = s.part := rfl
@[simp] theorem State.setF_rom (s : State) (a : BitVec 7) (v : Byte) : (s.setF a v).rom = s.rom := rfl
@[simp] theorem State.setF_w (s : State) (a : BitVec 7) (v : Byte) : (s.setF a v).w = s.w := rfl
@[simp] theorem State.setF_pc (s : State) (a : BitVec 7) (v : Byte) : (s.setF a v).pc = s.pc := rfl
@[simp] theorem State.setF_stk (s : State) (a : BitVec 7) (v : Byte) : (s.setF a v).stk = s.stk := rfl
@[simp] theorem State.setF_z (s : State) (a : BitVec 7) (v : Byte) : (s.setF a v).z = s.z := rfl
@[simp] theorem State.setF_c (s : State) (a : BitVec 7) (v : Byte) : (s.setF a v).c = s.c := rfl
@[simp] theorem State.setF_dc (s : State) (a : BitVec 7) (v : Byte) : (s.setF a v).dc = s.dc := rfl
@[simp] theorem State.setF_toFlag (s : State) (a : BitVec 7) (v : Byte) : (s.setF a v).toFlag = s.toFlag := rfl
@[simp] theorem State.setF_pdFlag (s : State) (a : BitVec 7) (v : Byte) : (s.setF a v).pdFlag = s.pdFlag := rfl
@[simp] theorem State.setF_gie (s : State) (a : BitVec 7) (v : Byte) : (s.setF a v).gie = s.gie := rfl
@[simp] theorem State.setF_wdt (s : State) (a : BitVec 7) (v : Byte) : (s.setF a v).wdt = s.wdt := rfl
@[simp] theorem State.setF_mode (s : State) (a : BitVec 7) (v : Byte) : (s.setF a v).mode = s.mode := rfl
@[simp] theorem State.setF_fplane (s : State) (a : BitVec 7) (v : Byte) : (s.setF a v).fplane = Memory.write s.fplane a.toNat v := rfl
@[simp] theorem State.setF_rplane (s : State) (a : BitVec 7) (v : Byte) : (s.setF a v).rplane = s.rplane := rfl
@[simp] theorem State.setF_env (s : State) (a : BitVec 7) (v : Byte) : (s.setF a v).env = s.env := rfl
@[simp] theorem State.setF_resetCount (s : State) (a : BitVec 7) (v : Byte) : (s.setF a v).resetCount = s.resetCount := rfl
@[simp] theorem State.setF_r (s : State) (a : BitVec 7) (v : Byte) (x : BitVec 8) : (s.setF a v).r x = s.r x := rfl
@[simp] theorem State.setF_fClass (s : State) (a : BitVec 7) (v : Byte) (x : BitVec 7) : (s.setF a v).fClass x = s.fClass x := rfl
@[simp] theorem State.setF_rClass (s : State) (a : BitVec 7) (v : Byte) (x : BitVec 8) : (s.setF a v).rClass x = s.rClass x := rfl
@[simp] theorem State.setF_romWord (s : State) (a : BitVec 7) (v : Byte) (x : PAddr) : (s.setF a v).romWord x = s.romWord x := rfl
@[simp] theorem State.setF_pcPlus (s : State) (a : BitVec 7) (v : Byte) (i : Nat) : (s.setF a v).pcPlus i = s.pcPlus i := rfl

/-! ### setR -/

@[simp] theorem State.setR_part (s : State) (a : BitVec 8) (v : Byte) : (s.setR a v).part = s.part := rfl
@[simp] theorem State.setR_rom (s : State) (a : BitVec 8) (v : Byte) : (s.setR a v).rom = s.rom := rfl
@[simp] theorem State.setR_w (s : State) (a : BitVec 8) (v : Byte) : (s.setR a v).w = s.w := rfl
@[simp] theorem State.setR_pc (s : State) (a : BitVec 8) (v : Byte) : (s.setR a v).pc = s.pc := rfl
@[simp] theorem State.setR_stk (s : State) (a : BitVec 8) (v : Byte) : (s.setR a v).stk = s.stk := rfl
@[simp] theorem State.setR_z (s : State) (a : BitVec 8) (v : Byte) : (s.setR a v).z = s.z := rfl
@[simp] theorem State.setR_c (s : State) (a : BitVec 8) (v : Byte) : (s.setR a v).c = s.c := rfl
@[simp] theorem State.setR_dc (s : State) (a : BitVec 8) (v : Byte) : (s.setR a v).dc = s.dc := rfl
@[simp] theorem State.setR_toFlag (s : State) (a : BitVec 8) (v : Byte) : (s.setR a v).toFlag = s.toFlag := rfl
@[simp] theorem State.setR_pdFlag (s : State) (a : BitVec 8) (v : Byte) : (s.setR a v).pdFlag = s.pdFlag := rfl
@[simp] theorem State.setR_gie (s : State) (a : BitVec 8) (v : Byte) : (s.setR a v).gie = s.gie := rfl
@[simp] theorem State.setR_wdt (s : State) (a : BitVec 8) (v : Byte) : (s.setR a v).wdt = s.wdt := rfl
@[simp] theorem State.setR_mode (s : State) (a : BitVec 8) (v : Byte) : (s.setR a v).mode = s.mode := rfl
@[simp] theorem State.setR_fplane (s : State) (a : BitVec 8) (v : Byte) : (s.setR a v).fplane = s.fplane := rfl
@[simp] theorem State.setR_rplane (s : State) (a : BitVec 8) (v : Byte) : (s.setR a v).rplane = Memory.write s.rplane a.toNat v := rfl
@[simp] theorem State.setR_env (s : State) (a : BitVec 8) (v : Byte) : (s.setR a v).env = s.env := rfl
@[simp] theorem State.setR_resetCount (s : State) (a : BitVec 8) (v : Byte) : (s.setR a v).resetCount = s.resetCount := rfl
@[simp] theorem State.setR_f (s : State) (a : BitVec 8) (v : Byte) (x : BitVec 7) : (s.setR a v).f x = s.f x := rfl
@[simp] theorem State.setR_fClass (s : State) (a : BitVec 8) (v : Byte) (x : BitVec 7) : (s.setR a v).fClass x = s.fClass x := rfl
@[simp] theorem State.setR_rClass (s : State) (a : BitVec 8) (v : Byte) (x : BitVec 8) : (s.setR a v).rClass x = s.rClass x := rfl
@[simp] theorem State.setR_romWord (s : State) (a : BitVec 8) (v : Byte) (x : PAddr) : (s.setR a v).romWord x = s.romWord x := rfl
@[simp] theorem State.setR_pcPlus (s : State) (a : BitVec 8) (v : Byte) (i : Nat) : (s.setR a v).pcPlus i = s.pcPlus i := rfl

/-! ### advance -/

@[simp] theorem State.advance_part (s : State) : (s.advance).part = s.part := rfl
@[simp] theorem State.advance_rom (s : State) : (s.advance).rom = s.rom := rfl
@[simp] theorem State.advance_w (s : State) : (s.advance).w = s.w := rfl
@[simp] theorem State.advance_pc (s : State) : (s.advance).pc = s.pcPlus 1 := rfl
@[simp] theorem State.advance_stk (s : State) : (s.advance).stk = s.stk := rfl
@[simp] theorem State.advance_z (s : State) : (s.advance).z = s.z := rfl
@[simp] theorem State.advance_c (s : State) : (s.advance).c = s.c := rfl
@[simp] theorem State.advance_dc (s : State) : (s.advance).dc = s.dc := rfl
@[simp] theorem State.advance_toFlag (s : State) : (s.advance).toFlag = s.toFlag := rfl
@[simp] theorem State.advance_pdFlag (s : State) : (s.advance).pdFlag = s.pdFlag := rfl
@[simp] theorem State.advance_gie (s : State) : (s.advance).gie = s.gie := rfl
@[simp] theorem State.advance_wdt (s : State) : (s.advance).wdt = s.wdt := rfl
@[simp] theorem State.advance_mode (s : State) : (s.advance).mode = s.mode := rfl
@[simp] theorem State.advance_fplane (s : State) : (s.advance).fplane = s.fplane := rfl
@[simp] theorem State.advance_rplane (s : State) : (s.advance).rplane = s.rplane := rfl
@[simp] theorem State.advance_env (s : State) : (s.advance).env = s.env := rfl
@[simp] theorem State.advance_resetCount (s : State) : (s.advance).resetCount = s.resetCount := rfl
@[simp] theorem State.advance_f (s : State) (x : BitVec 7) : (s.advance).f x = s.f x := rfl
@[simp] theorem State.advance_r (s : State) (x : BitVec 8) : (s.advance).r x = s.r x := rfl
@[simp] theorem State.advance_fClass (s : State) (x : BitVec 7) : (s.advance).fClass x = s.fClass x := rfl
@[simp] theorem State.advance_rClass (s : State) (x : BitVec 8) : (s.advance).rClass x = s.rClass x := rfl
@[simp] theorem State.advance_romWord (s : State) (x : PAddr) : (s.advance).romWord x = s.romWord x := rfl

/-! ### advanceSkip -/

@[simp] theorem State.advanceSkip_part (s : State) (b : Bool) : (s.advanceSkip b).part = s.part := rfl
@[simp] theorem State.advanceSkip_rom (s : State) (b : Bool) : (s.advanceSkip b).rom = s.rom := rfl
@[simp] theorem State.advanceSkip_w (s : State) (b : Bool) : (s.advanceSkip b).w = s.w := rfl
@[simp] theorem State.advanceSkip_pc (s : State) (b : Bool) : (s.advanceSkip b).pc = s.pcPlus (if b then 2 else 1) := rfl
@[simp] theorem State.advanceSkip_stk (s : State) (b : Bool) : (s.advanceSkip b).stk = s.stk := rfl
@[simp] theorem State.advanceSkip_z (s : State) (b : Bool) : (s.advanceSkip b).z = s.z := rfl
@[simp] theorem State.advanceSkip_c (s : State) (b : Bool) : (s.advanceSkip b).c = s.c := rfl
@[simp] theorem State.advanceSkip_dc (s : State) (b : Bool) : (s.advanceSkip b).dc = s.dc := rfl
@[simp] theorem State.advanceSkip_toFlag (s : State) (b : Bool) : (s.advanceSkip b).toFlag = s.toFlag := rfl
@[simp] theorem State.advanceSkip_pdFlag (s : State) (b : Bool) : (s.advanceSkip b).pdFlag = s.pdFlag := rfl
@[simp] theorem State.advanceSkip_gie (s : State) (b : Bool) : (s.advanceSkip b).gie = s.gie := rfl
@[simp] theorem State.advanceSkip_wdt (s : State) (b : Bool) : (s.advanceSkip b).wdt = s.wdt := rfl
@[simp] theorem State.advanceSkip_mode (s : State) (b : Bool) : (s.advanceSkip b).mode = s.mode := rfl
@[simp] theorem State.advanceSkip_fplane (s : State) (b : Bool) : (s.advanceSkip b).fplane = s.fplane := rfl
@[simp] theorem State.advanceSkip_rplane (s : State) (b : Bool) : (s.advanceSkip b).rplane = s.rplane := rfl
@[simp] theorem State.advanceSkip_env (s : State) (b : Bool) : (s.advanceSkip b).env = s.env := rfl
@[simp] theorem State.advanceSkip_resetCount (s : State) (b : Bool) : (s.advanceSkip b).resetCount = s.resetCount := rfl
@[simp] theorem State.advanceSkip_f (s : State) (b : Bool) (x : BitVec 7) : (s.advanceSkip b).f x = s.f x := rfl
@[simp] theorem State.advanceSkip_r (s : State) (b : Bool) (x : BitVec 8) : (s.advanceSkip b).r x = s.r x := rfl
@[simp] theorem State.advanceSkip_fClass (s : State) (b : Bool) (x : BitVec 7) : (s.advanceSkip b).fClass x = s.fClass x := rfl
@[simp] theorem State.advanceSkip_rClass (s : State) (b : Bool) (x : BitVec 8) : (s.advanceSkip b).rClass x = s.rClass x := rfl
@[simp] theorem State.advanceSkip_romWord (s : State) (b : Bool) (x : PAddr) : (s.advanceSkip b).romWord x = s.romWord x := rfl

end Sys2Proof.Machine
end

