-- ==== Sys2Proof/Laws/Ops.lean ====
section
/-! SUPPORT. What each shared operation of Machine/Ops.lean can do, said once. -/

namespace Sys2Proof.Machine

/-! ### Registers -/

@[simp] theorem State.setF_f_self (s : State) (a : BitVec 7) (v : Byte) : (s.setF a v).f a = v :=
  Memory.read_write_self _ _ _

theorem State.setF_f_ne (s : State) {a x : BitVec 7} (v : Byte) (h : x ≠ a) : (s.setF a v).f x = s.f x :=
  Memory.read_write_ne _ _ _ _ fun e => h (BitVec.eq_of_toNat_eq e)

@[simp] theorem State.setR_r_self (s : State) (a : BitVec 8) (v : Byte) : (s.setR a v).r a = v :=
  Memory.read_write_self _ _ _

theorem State.setR_r_ne (s : State) {a x : BitVec 8} (v : Byte) (h : x ≠ a) : (s.setR a v).r x = s.r x :=
  Memory.read_write_ne _ _ _ _ fun e => h (BitVec.eq_of_toNat_eq e)

theorem State.fRead_plain {s : State} {a : BitVec 7} (k : Byte → Out) (h : s.fClass a = .plain) :
    s.fRead a k = k (s.f a) := by
  simp [State.fRead, h]

theorem State.fWrite_plain {s : State} {a : BitVec 7} (v : Byte) (k : State → Out) (h : s.fClass a = .plain) :
    s.fWrite a v k = k (s.setF a v) := by
  simp [State.fWrite, h]

theorem State.rRead_plain {s : State} {a : BitVec 8} (k : Byte → Out) (h : s.rClass a = .plain) :
    s.rRead a k = k (s.r a) := by
  simp [State.rRead, h]

theorem State.rWrite_plain {s : State} {a : BitVec 8} (v : Byte) (k : State → Out) (h : s.rClass a = .plain) :
    s.rWrite a v k = k (s.setR a v) := by
  simp [State.rWrite, h]

theorem State.fRead_not_plain {s : State} {a : BitVec 7} (k : Byte → Out) (h : s.fClass a ≠ .plain) :
    s.fRead a k = .fault (.registerNotModelled .f a.toNat .read) := by
  cases hc : s.fClass a <;> simp_all [State.fRead]

theorem State.fWrite_not_plain {s : State} {a : BitVec 7} (v : Byte) (k : State → Out) (h : s.fClass a ≠ .plain) :
    s.fWrite a v k = .fault (.registerNotModelled .f a.toNat .write) := by
  cases hc : s.fClass a <;> simp_all [State.fWrite]

theorem State.rRead_not_plain {s : State} {a : BitVec 8} (k : Byte → Out) (h : s.rClass a ≠ .plain) :
    s.rRead a k = .fault (.registerNotModelled .r a.toNat .read) := by
  cases hc : s.rClass a <;> simp_all [State.rRead]

theorem State.rWrite_not_plain {s : State} {a : BitVec 8} (v : Byte) (k : State → Out) (h : s.rClass a ≠ .plain) :
    s.rWrite a v k = .fault (.registerNotModelled .r a.toNat .write) := by
  cases hc : s.rClass a <;> simp_all [State.rWrite]

/-- If a read goes on to a next state, the address is storage and the rest ran on its byte. -/
theorem State.fRead_next {s t : State} {a : BitVec 7} {k : Byte → Out} (h : s.fRead a k = .next t) :
    s.fClass a = .plain ∧ k (s.f a) = .next t := by
  by_cases hc : s.fClass a = .plain
  · exact ⟨hc, by rw [← State.fRead_plain k hc, h]⟩
  · rw [State.fRead_not_plain k hc] at h
    cases h

/-- If a write goes on to a next state, the address is storage and the rest ran on the state written. -/
theorem State.fWrite_next {s t : State} {a : BitVec 7} {v : Byte} {k : State → Out} (h : s.fWrite a v k = .next t) :
    s.fClass a = .plain ∧ k (s.setF a v) = .next t := by
  by_cases hc : s.fClass a = .plain
  · exact ⟨hc, by rw [← State.fWrite_plain v k hc, h]⟩
  · rw [State.fWrite_not_plain v k hc] at h
    cases h

theorem State.rRead_next {s t : State} {a : BitVec 8} {k : Byte → Out} (h : s.rRead a k = .next t) :
    s.rClass a = .plain ∧ k (s.r a) = .next t := by
  by_cases hc : s.rClass a = .plain
  · exact ⟨hc, by rw [← State.rRead_plain k hc, h]⟩
  · rw [State.rRead_not_plain k hc] at h
    cases h

theorem State.rWrite_next {s t : State} {a : BitVec 8} {v : Byte} {k : State → Out} (h : s.rWrite a v k = .next t) :
    s.rClass a = .plain ∧ k (s.setR a v) = .next t := by
  by_cases hc : s.rClass a = .plain
  · exact ⟨hc, by rw [← State.rWrite_plain v k hc, h]⟩
  · rw [State.rWrite_not_plain v k hc] at h
    cases h

/-- DPH and DPL are storage on every part (R50). -/
@[simp] theorem State.fClass_dphAddr (s : State) : s.fClass s.part.dphAddr = .plain := by
  simp [State.fClass]

@[simp] theorem State.fClass_dplAddr (s : State) : s.fClass s.part.dplAddr = .plain := by
  simp [State.fClass]

/-! ### Program addresses -/

/-- PCW is between 12 and 16 (R4). -/
theorem PcWidth.bits_bounds (p : PcWidth) : 12 ≤ p.bits ∧ p.bits ≤ 16 := by
  cases p <;> simp [PcWidth.bits]

theorem PcWidth.two_pow_bits_le (p : PcWidth) : 2 ^ p.bits ≤ 2 ^ 16 :=
  Nat.pow_le_pow_right (by decide) (PcWidth.bits_bounds p).2

theorem State.toPAddr_toNat (s : State) (n : Nat) : (s.toPAddr n).toNat = n % 2 ^ s.part.pcw.bits := by
  have h1 := PcWidth.two_pow_bits_le s.part.pcw
  have h2 : n % 2 ^ s.part.pcw.bits < 2 ^ s.part.pcw.bits := Nat.mod_lt _ (by positivity)
  rw [State.toPAddr, BitVec.toNat_ofNat]
  exact Nat.mod_eq_of_lt (by omega)

theorem State.toPAddr_lt (s : State) (n : Nat) : (s.toPAddr n).toNat < 2 ^ s.part.pcw.bits := by
  rw [State.toPAddr_toNat]
  exact Nat.mod_lt _ (by positivity)

/-- PC + n modulo 2^PCW (R22). -/
theorem State.pcPlus_toNat (s : State) (n : Nat) :
    (s.pcPlus n).toNat = (s.pc.toNat + n) % 2 ^ s.part.pcw.bits :=
  s.toPAddr_toNat _

/-! ### The stack and interrupt entry -/

theorem State.push_room {s : State} (a : PAddr) (k : State → Out) (h : s.stk.length < s.part.stackDepth) :
    s.push a k = k (s.setStk (a :: s.stk)) := by
  rw [State.push, if_neg (by omega)]

theorem State.push_full {s : State} (a : PAddr) (k : State → Out) (h : s.part.stackDepth ≤ s.stk.length) :
    s.push a k = .fault (.stackOverflow s.pc) := by
  rw [State.push, if_pos h]

/-- If a push goes on to a next state, there was room and the rest ran with the address on top. -/
theorem State.push_next {s t : State} {a : PAddr} {k : State → Out} (h : s.push a k = .next t) :
    s.stk.length < s.part.stackDepth ∧ k (s.setStk (a :: s.stk)) = .next t := by
  by_cases hc : s.part.stackDepth ≤ s.stk.length
  · rw [State.push_full a k hc] at h
    cases h
  · exact ⟨by omega, by rw [← State.push_room a k (by omega), h]⟩

theorem State.pop_cons {s : State} {a : PAddr} {rest : List PAddr} (k : PAddr → State → Out) (h : s.stk = a :: rest) :
    s.pop k = k a (s.setStk rest) := by
  simp [State.pop, h]

theorem State.pop_nil {s : State} (k : PAddr → State → Out) (h : s.stk = []) :
    s.pop k = .fault (.stackUnderflow s.pc) := by
  simp [State.pop, h]

/-- If a pop goes on to a next state, there was an entry and the rest ran on it. -/
theorem State.pop_next {s t : State} {k : PAddr → State → Out} (h : s.pop k = .next t) :
    ∃ a rest, s.stk = a :: rest ∧ k a (s.setStk rest) = .next t := by
  cases hs : s.stk with
  | nil =>
    rw [State.pop_nil k hs] at h
    cases h
  | cons a rest => exact ⟨a, rest, rfl, by rw [← State.pop_cons k hs, h]⟩

/-- If a return goes on to a next state, PC is the entry popped. -/
theorem State.popPc_next {s t : State} {k : State → State} (h : s.popPc k = .next t) :
    ∃ a rest, s.stk = a :: rest ∧ t = k ((s.setStk rest).setPc a) := by
  obtain ⟨a, rest, hs, hk⟩ := State.pop_next h
  cases hk
  exact ⟨a, rest, hs, rfl⟩

/-- If interrupt entry goes on to a next state, there was room for PC on the stack (R187). -/
theorem interruptEntry_next {s t : State} (h : interruptEntry s = .next t) :
    s.stk.length < s.part.stackDepth
    ∧ t = ((s.setStk (s.pc :: s.stk)).setGie false).setPc s.part.intVector := by
  obtain ⟨hroom, hk⟩ := State.push_next h
  cases hk
  exact ⟨hroom, rfl⟩

end Sys2Proof.Machine
end

