-- ==== Sys2Proof/Laws/Operands.lean ====
section
/-! SUPPORT. What each instruction shape of Machine/Operands.lean can do, said once. -/

namespace Sys2Proof.Machine

/-- The state after `Dest(d, f) <- v` on a storage register (R100). -/
def State.putDest (s : State) (d : Dest) (f : BitVec 7) (v : Byte) : State :=
  match d with
  | .w => s.setW v
  | .file => s.setF f v

@[simp] theorem State.putDest_w (s : State) (f : BitVec 7) (v : Byte) : s.putDest .w f v = s.setW v := rfl
@[simp] theorem State.putDest_file (s : State) (f : BitVec 7) (v : Byte) : s.putDest .file f v = s.setF f v := rfl

@[simp] theorem State.putDest_keeps_part (s : State) (d : Dest) (f : BitVec 7) (v : Byte) :
    (s.putDest d f v).part = s.part := by cases d <;> rfl
@[simp] theorem State.putDest_keeps_rom (s : State) (d : Dest) (f : BitVec 7) (v : Byte) :
    (s.putDest d f v).rom = s.rom := by cases d <;> rfl
@[simp] theorem State.putDest_keeps_pc (s : State) (d : Dest) (f : BitVec 7) (v : Byte) :
    (s.putDest d f v).pc = s.pc := by cases d <;> rfl
@[simp] theorem State.putDest_keeps_stk (s : State) (d : Dest) (f : BitVec 7) (v : Byte) :
    (s.putDest d f v).stk = s.stk := by cases d <;> rfl
@[simp] theorem State.putDest_keeps_z (s : State) (d : Dest) (f : BitVec 7) (v : Byte) :
    (s.putDest d f v).z = s.z := by cases d <;> rfl
@[simp] theorem State.putDest_keeps_c (s : State) (d : Dest) (f : BitVec 7) (v : Byte) :
    (s.putDest d f v).c = s.c := by cases d <;> rfl
@[simp] theorem State.putDest_keeps_dc (s : State) (d : Dest) (f : BitVec 7) (v : Byte) :
    (s.putDest d f v).dc = s.dc := by cases d <;> rfl
@[simp] theorem State.putDest_keeps_toFlag (s : State) (d : Dest) (f : BitVec 7) (v : Byte) :
    (s.putDest d f v).toFlag = s.toFlag := by cases d <;> rfl
@[simp] theorem State.putDest_keeps_pdFlag (s : State) (d : Dest) (f : BitVec 7) (v : Byte) :
    (s.putDest d f v).pdFlag = s.pdFlag := by cases d <;> rfl
@[simp] theorem State.putDest_keeps_gie (s : State) (d : Dest) (f : BitVec 7) (v : Byte) :
    (s.putDest d f v).gie = s.gie := by cases d <;> rfl
@[simp] theorem State.putDest_keeps_wdt (s : State) (d : Dest) (f : BitVec 7) (v : Byte) :
    (s.putDest d f v).wdt = s.wdt := by cases d <;> rfl
@[simp] theorem State.putDest_keeps_mode (s : State) (d : Dest) (f : BitVec 7) (v : Byte) :
    (s.putDest d f v).mode = s.mode := by cases d <;> rfl
@[simp] theorem State.putDest_keeps_rplane (s : State) (d : Dest) (f : BitVec 7) (v : Byte) :
    (s.putDest d f v).rplane = s.rplane := by cases d <;> rfl
@[simp] theorem State.putDest_keeps_env (s : State) (d : Dest) (f : BitVec 7) (v : Byte) :
    (s.putDest d f v).env = s.env := by cases d <;> rfl
@[simp] theorem State.putDest_keeps_resetCount (s : State) (d : Dest) (f : BitVec 7) (v : Byte) :
    (s.putDest d f v).resetCount = s.resetCount := by cases d <;> rfl

/-- No register but the addressed one is written (R100). -/
theorem State.putDest_f_ne (s : State) (d : Dest) {f x : BitVec 7} (v : Byte) (h : x ≠ f) :
    (s.putDest d f v).f x = s.f x := by
  cases d
  · rfl
  · exact State.setF_f_ne s v h

theorem State.toDest_plain {s : State} {f : BitVec 7} (d : Dest) (v : Byte) (k : State → Out)
    (h : s.fClass f = .plain) : s.toDest d f v k = k (s.putDest d f v) := by
  cases d
  · rfl
  · exact State.fWrite_plain v k h

/-- A BD instruction on a storage register completes (R100, R101). -/
theorem State.byteOriented_plain {s : State} {f : BitVec 7} (d : Dest) (res : Byte → Byte)
    (flags : Byte → FlagWrite) (h : s.fClass f = .plain) :
    s.byteOriented f d res flags
      = .next (((s.putDest d f (res (s.f f))).setFlags (flags (s.f f))).advance) := by
  rw [State.byteOriented, State.fRead_plain _ h, State.toDest_plain _ _ _ h]

theorem State.byteOriented_next {s t : State} {f : BitVec 7} {d : Dest} {res : Byte → Byte}
    {flags : Byte → FlagWrite} (h : s.byteOriented f d res flags = .next t) :
    s.fClass f = .plain ∧ t = ((s.putDest d f (res (s.f f))).setFlags (flags (s.f f))).advance := by
  have hc := (State.fRead_next h).1
  rw [State.byteOriented_plain _ _ _ hc] at h
  cases h
  exact ⟨hc, rfl⟩

/-- DECFSZ and INCFSZ on a storage register complete (R108, R110). -/
theorem State.byteSkip_plain {s : State} {f : BitVec 7} (d : Dest) (res : Byte → Byte)
    (h : s.fClass f = .plain) :
    s.byteSkip f d res = .next ((s.putDest d f (res (s.f f))).advanceSkip (isZero (res (s.f f)))) := by
  rw [State.byteSkip, State.fRead_plain _ h, State.toDest_plain _ _ _ h]

theorem State.byteSkip_next {s t : State} {f : BitVec 7} {d : Dest} {res : Byte → Byte}
    (h : s.byteSkip f d res = .next t) :
    s.fClass f = .plain ∧ t = (s.putDest d f (res (s.f f))).advanceSkip (isZero (res (s.f f))) := by
  have hc := (State.fRead_next h).1
  rw [State.byteSkip_plain _ _ hc] at h
  cases h
  exact ⟨hc, rfl⟩

/-- BCF and BSF on a storage register complete (R141, R142). -/
theorem State.bitWrite_plain {s : State} {f : BitVec 6} (op : Byte → Byte) (h : s.fClass (bitAddr f) = .plain) :
    s.bitWrite f op = .next ((s.setF (bitAddr f) (op (s.f (bitAddr f)))).advance) := by
  rw [State.bitWrite, State.fRead_plain _ h, State.fWrite_plain _ _ h]

theorem State.bitWrite_next {s t : State} {f : BitVec 6} {op : Byte → Byte} (h : s.bitWrite f op = .next t) :
    s.fClass (bitAddr f) = .plain ∧ t = (s.setF (bitAddr f) (op (s.f (bitAddr f)))).advance := by
  have hc := (State.fRead_next h).1
  rw [State.bitWrite_plain _ hc] at h
  cases h
  exact ⟨hc, rfl⟩

/-- BTFSC and BTFSS on a storage register complete (R143, R144). -/
theorem State.bitTest_plain {s : State} {f : BitVec 6} (b : BitVec 3) (on : Bool)
    (h : s.fClass (bitAddr f) = .plain) :
    s.bitTest f b on = .next (s.advanceSkip ((s.f (bitAddr f)).getLsbD b.toNat == on)) := by
  rw [State.bitTest, State.fRead_plain _ h]

theorem State.bitTest_next {s t : State} {f : BitVec 6} {b : BitVec 3} {on : Bool}
    (h : s.bitTest f b on = .next t) :
    s.fClass (bitAddr f) = .plain ∧ t = s.advanceSkip ((s.f (bitAddr f)).getLsbD b.toNat == on) := by
  have hc := (State.fRead_next h).1
  rw [State.bitTest_plain _ _ hc] at h
  cases h
  exact ⟨hc, rfl⟩

/-- MOVWR to a storage register completes (R114). -/
theorem State.moveWToR_plain {s : State} {r : BitVec 8} (h : s.rClass r = .plain) :
    s.moveWToR r = .next ((s.setR r s.w).advance) := by
  rw [State.moveWToR, State.rWrite_plain _ _ h]

theorem State.moveWToR_next {s t : State} {r : BitVec 8} (h : s.moveWToR r = .next t) :
    s.rClass r = .plain ∧ t = (s.setR r s.w).advance := by
  have hc := (State.rWrite_next h).1
  rw [State.moveWToR_plain hc] at h
  cases h
  exact ⟨hc, rfl⟩

/-- A table read inside program memory completes (R162, R163). -/
theorem State.tableRead_inside {s : State} (pick : ProgWord → Byte)
    (h : (s.dptr (s.f s.part.dphAddr) (s.f s.part.dplAddr)).toNat < s.part.romSize) :
    s.tableRead pick
      = .next ((s.setW (pick (s.romWord (s.dptr (s.f s.part.dphAddr) (s.f s.part.dplAddr))))).advance) := by
  rw [State.tableRead, State.fRead_plain _ s.fClass_dphAddr, State.fRead_plain _ s.fClass_dplAddr]
  simp only [h, if_true]

theorem State.tableRead_outside {s : State} (pick : ProgWord → Byte)
    (h : ¬(s.dptr (s.f s.part.dphAddr) (s.f s.part.dplAddr)).toNat < s.part.romSize) :
    s.tableRead pick = .fault (.romReadOutOfRange (s.dptr (s.f s.part.dphAddr) (s.f s.part.dplAddr))) := by
  rw [State.tableRead, State.fRead_plain _ s.fClass_dphAddr, State.fRead_plain _ s.fClass_dplAddr]
  simp only [h, if_false]

theorem State.tableRead_next {s t : State} {pick : ProgWord → Byte} (h : s.tableRead pick = .next t) :
    (s.dptr (s.f s.part.dphAddr) (s.f s.part.dplAddr)).toNat < s.part.romSize
    ∧ t = (s.setW (pick (s.romWord (s.dptr (s.f s.part.dphAddr) (s.f s.part.dplAddr))))).advance := by
  by_cases hc : (s.dptr (s.f s.part.dphAddr) (s.f s.part.dplAddr)).toNat < s.part.romSize
  · rw [State.tableRead_inside pick hc] at h
    cases h
    exact ⟨hc, rfl⟩
  · rw [State.tableRead_outside pick hc] at h
    cases h

end Sys2Proof.Machine
end

