-- ==== Sys2Proof/Laws/Step.lean ====
section
/-! SUPPORT. What a step can do, said once: an event of the boundary, or the instruction at PC. -/

namespace Sys2Proof.Machine

@[simp] theorem State.arrive_part (s : State) : s.arrive.part = s.part := rfl
@[simp] theorem State.arrive_rom (s : State) : s.arrive.rom = s.rom := rfl
@[simp] theorem State.arrive_w (s : State) : s.arrive.w = s.w := rfl
@[simp] theorem State.arrive_pc (s : State) : s.arrive.pc = s.pc := rfl
@[simp] theorem State.arrive_stk (s : State) : s.arrive.stk = s.stk := rfl
@[simp] theorem State.arrive_z (s : State) : s.arrive.z = s.z := rfl
@[simp] theorem State.arrive_c (s : State) : s.arrive.c = s.c := rfl
@[simp] theorem State.arrive_dc (s : State) : s.arrive.dc = s.dc := rfl
@[simp] theorem State.arrive_toFlag (s : State) : s.arrive.toFlag = s.toFlag := rfl
@[simp] theorem State.arrive_pdFlag (s : State) : s.arrive.pdFlag = s.pdFlag := rfl
@[simp] theorem State.arrive_gie (s : State) : s.arrive.gie = s.gie := rfl
@[simp] theorem State.arrive_mode (s : State) : s.arrive.mode = s.mode := rfl
@[simp] theorem State.arrive_fplane (s : State) : s.arrive.fplane = s.fplane := rfl
@[simp] theorem State.arrive_rplane (s : State) : s.arrive.rplane = s.rplane := rfl
@[simp] theorem State.arrive_env (s : State) : s.arrive.env = s.env.tail := rfl
@[simp] theorem State.arrive_resetCount (s : State) : s.arrive.resetCount = s.resetCount := rfl

theorem State.arrive_wdt_lt {s : State} (h : s.wdt < 2 ^ s.part.wdtw) : s.arrive.wdt < 2 ^ s.part.wdtw := by
  cases hc : s.input.wdtCount with
  | none => simpa [State.arrive, hc] using h
  | some n => simpa [State.arrive, hc] using Nat.mod_lt n (by positivity)

/-- Every way a step can answer a next state (R190): a reset event, a watchdog event, a wake-up, the core asleep,
interrupt entry, or the instruction at PC. -/
theorem step_cases {s t : State} (h : step s = .next t) :
    (s.input.reset = true ∧ t = s.arrive.resetEvent)
    ∨ (s.input.watchdog = true ∧ s.part.wdtEnabled = true ∧ t = s.arrive.watchdogEvent)
    ∨ (s.mode = .sleep ∧ s.input.wake = true ∧ t = s.arrive.wakeEvent s.input)
    ∨ (s.mode = .sleep ∧ s.input.wake = false ∧ t = s.arrive)
    ∨ (s.mode = .run ∧ s.gie = true ∧ s.input.irq = true ∧ interruptEntry s.arrive = .next t)
    ∨ (s.mode = .run ∧ ∃ i, s.arrive.fetch = .ok i ∧ exec i s.arrive = .next t) := by
  unfold step at h
  unfold State.boundary at h
  by_cases hr : s.input.reset = true
  · simp only [hr, if_true] at h
    cases h
    exact .inl ⟨hr, rfl⟩
  · by_cases hw : (s.input.watchdog && s.part.wdtEnabled) = true
    · simp only [hr, hw, if_true] at h
      cases h
      simp only [Bool.and_eq_true] at hw
      exact .inr (.inl ⟨hw.1, hw.2, rfl⟩)
    · simp only [hr, hw] at h
      cases hm : s.mode with
      | sleep =>
        by_cases hk : s.input.wake = true
        · simp only [hm, hk, if_true] at h
          cases h
          exact .inr (.inr (.inl ⟨rfl, hk, rfl⟩))
        · simp only [hm, hk] at h
          cases h
          exact .inr (.inr (.inr (.inl ⟨rfl, by simpa using hk, rfl⟩)))
      | run =>
        by_cases hi : (s.gie && s.input.irq) = true
        · simp only [hm, hi, if_true] at h
          simp only [Bool.and_eq_true] at hi
          exact .inr (.inr (.inr (.inr (.inl ⟨rfl, hi.1, hi.2, h⟩))))
        · simp only [hm, hi] at h
          cases hf : s.arrive.fetch with
          | ok i => exact .inr (.inr (.inr (.inr (.inr ⟨rfl, i, rfl, by simpa [hf] using h⟩))))
          | error e =>
            simp [hf] at h

end Sys2Proof.Machine
end

