-- ==== Sys2Proof/Machine/Boot.lean ====
section
/-! DEFINITION. The boot requirements (spec/70_reset_and_hazards.md R212): what each instruction reads, what a program has
written since reset, and the order of writes before reads that the rule asks of software (items 2, 3, 4 and 6). They are
duties of software, not of the machine: every register of the model holds a value (log 3, log 4), a read before a write is
no fault, and no step calls these functions (log 35). Item 1 is where reset and interrupt entry take PC, item 5 the stack
after reset and its depth, item 7 the watchdog event, which is an input; item 8 is outside the sources. -/

namespace Sys2Proof

/-- The instruction reads W (R212, item 2). -/
def Instr.readsW : Instr → Bool
  | .addwf _ _ | .andwf _ _ | .iorwf _ _ | .subwf _ _ | .xorwf _ _ | .movwf _ | .movwrA _ | .movwrB _
  | .addlw _ | .andlw _ | .iorlw _ | .xorlwA _ | .xorlwB _ => true
  | .clrf _ | .clrw | .comf _ _ | .decf _ _ | .decfsz _ _ | .incf _ _ | .incfsz _ _ | .movfw _ | .rlf _ _ | .rrf _ _
  | .movrw _ | .swapf _ _ | .testz _ | .bcf _ _ | .bsf _ _ | .btfsc _ _ | .btfss _ _ | .call _ | .clrwdtA | .clrwdtB
  | .goto _ | .movlw _ | .nop | .ret | .reti | .retlw _ | .tblwl | .tblwh | .sleepA | .sleepB => false

/-- The instruction writes W without reading it, so it can give W its first value (R212, item 2). -/
def Instr.initialisesW (i : Instr) : Bool := i.writesW && !i.readsW

/-- The instruction reads C: RLF and RRF (R212, item 4). No instruction reads Z or DC. -/
def Instr.readsC : Instr → Bool
  | .rlf _ _ | .rrf _ _ => true
  | _ => false

/-- The F-plane registers an instruction reads (R212, items 3 and 6): its operand's, but for CLRF and MOVWF, which only
write it; DPH and DPL for the table reads. BCF and BSF read the register they write. -/
def Instr.fReads (i : Instr) (p : Part) : List (BitVec 7) :=
  match i with
  | .clrf _ | .movwf _ => []
  | .tblwl | .tblwh => [p.dphAddr, p.dplAddr]
  | _ => i.fOperand.toList

/-- The R-plane registers an instruction reads (R212, item 3): MOVRW's. -/
def Instr.rReads : Instr → List (BitVec 8)
  | .movrw r => [r]
  | _ => []

namespace Machine

/-- What a program has written since reset, of all that reset leaves without a value and an instruction reads. -/
structure Written where
  w : Bool
  c : Bool
  f : List (BitVec 7)
  r : List (BitVec 8)
  deriving DecidableEq, Repr

/-- After reset nothing is written (R210). The stack is empty and needs no initialisation (R212, item 5). -/
def Written.atReset : Written := ⟨false, false, [], []⟩

/-- Everything the instruction reads has been written (R212, items 2, 3, 4 and 6). -/
def Written.allows (u : Written) (p : Part) (i : Instr) : Bool :=
  (!i.readsW || u.w) && (!i.readsC || u.c) && (i.fReads p).all u.f.contains && i.rReads.all u.r.contains

/-- What is written after the instruction. -/
def Written.after (u : Written) (i : Instr) : Written where
  w := i.writesW || u.w
  c := i.writesC || u.c
  f := i.fStored.toList ++ u.f
  r := i.rStored.toList ++ u.r

/-- The next step meets the boot requirements: where it runs an instruction, all it reads has been written. -/
def Written.allowsStep (u : Written) (s : State) : Bool :=
  match s.boundary with
  | .event _ => true
  | .runs t =>
    match t.fetch with
    | .ok i => u.allows s.part i
    | .error _ => true

/-- What is written after the next step: nothing after a reset or a watchdog event, what the instruction adds where one
runs, and the same after every other event. -/
def Written.afterStep (u : Written) (s : State) : Written :=
  if s.input.reset || s.input.watchdog && s.part.wdtEnabled then .atReset
  else
    match s.boundary with
    | .event _ => u
    | .runs t =>
      match t.fetch with
      | .ok i => u.after i
      | .error _ => u

/-- The next n steps meet the boot requirements, as far as the run goes. -/
def Written.allowsRun (u : Written) : (n : Nat) → State → Bool
  | 0, _ => true
  | n + 1, s =>
    u.allowsStep s &&
      match step s with
      | .next t => Written.allowsRun (u.afterStep s) n t
      | .fault _ => true
      | .refused _ => true

/-- What is written after n steps. -/
def Written.afterRun (u : Written) : (n : Nat) → State → Written
  | 0, _ => u
  | n + 1, s =>
    match step s with
    | .next t => Written.afterRun (u.afterStep s) n t
    | .fault _ => u.afterStep s
    | .refused _ => u.afterStep s

/-- n steps in a row. -/
def runSteps : (n : Nat) → State → Out
  | 0, s => .next s
  | n + 1, s =>
    match step s with
    | .next t => runSteps n t
    | .fault e => .fault e
    | .refused r => .refused r

/-- Two states that agree but for what has not been written, and for Z, DC, TO, PD and WDT, which nothing reads. GIE, which
the boundary reads (R187), agrees. -/
structure AgreeOn (u : Written) (s t : State) : Prop where
  part : s.part = t.part
  rom : s.rom = t.rom
  pc : s.pc = t.pc
  stk : s.stk = t.stk
  gie : s.gie = t.gie
  mode : s.mode = t.mode
  env : s.env = t.env
  resetCount : s.resetCount = t.resetCount
  w : u.w = true → s.w = t.w
  c : u.c = true → s.c = t.c
  f : ∀ a ∈ u.f, s.f a = t.f a
  r : ∀ a ∈ u.r, s.r a = t.r a

/-- The same stop, or next states that agree. -/
def OutcomesAgreeOn (u : Written) : Out → Out → Prop
  | .next s, .next t => AgreeOn u s t
  | .fault e, .fault e' => e = e'
  | .refused r, .refused r' => r = r'
  | _, _ => False

end Machine

end Sys2Proof
end

