-- ==== Sys2Proof/Laws/Boot.lean ====
section
/-! SUPPORT. What the boot requirements are for (R212): a program that meets them does the same whatever reset left in W, C
and the registers. -/

namespace Sys2Proof.Machine

/-! ### Agreement through the operations -/

theorem AgreeOn.fClass {u : Written} {s t : State} (h : AgreeOn u s t) (a : BitVec 7) : s.fClass a = t.fClass a := by
  simp only [State.fClass, h.part]

theorem AgreeOn.rClass {u : Written} {s t : State} (h : AgreeOn u s t) (a : BitVec 8) : s.rClass a = t.rClass a := by
  simp only [State.rClass, h.part]

theorem AgreeOn.pcPlus {u : Written} {s t : State} (h : AgreeOn u s t) (n : Nat) : s.pcPlus n = t.pcPlus n := by
  simp only [State.pcPlus, State.toPAddr, h.part, h.pc]

theorem AgreeOn.jumpTarget {u : Written} {s t : State} (h : AgreeOn u s t) (k : BitVec 12) :
    s.jumpTarget k = t.jumpTarget k := by
  simp only [State.jumpTarget, State.toPAddr, h.part, h.pc]

theorem AgreeOn.romWord {u : Written} {s t : State} (h : AgreeOn u s t) (a : PAddr) : s.romWord a = t.romWord a := by
  simp only [State.romWord, h.rom]

theorem AgreeOn.setPc {u : Written} {s t : State} (h : AgreeOn u s t) (a : PAddr) :
    AgreeOn u (s.setPc a) (t.setPc a) :=
  ⟨h.part, h.rom, rfl, h.stk, h.gie, h.mode, h.env, h.resetCount, h.w, h.c, h.f, h.r⟩

theorem AgreeOn.advance {u : Written} {s t : State} (h : AgreeOn u s t) : AgreeOn u s.advance t.advance := by
  rw [State.advance, State.advance, h.pcPlus 1]; exact h.setPc _

theorem AgreeOn.advanceSkip {u : Written} {s t : State} (h : AgreeOn u s t) (b : Bool) :
    AgreeOn u (s.advanceSkip b) (t.advanceSkip b) := by
  rw [State.advanceSkip, State.advanceSkip, h.pcPlus]; exact h.setPc _

theorem AgreeOn.setStk {u : Written} {s t : State} (h : AgreeOn u s t) (l : List PAddr) :
    AgreeOn u (s.setStk l) (t.setStk l) :=
  ⟨h.part, h.rom, h.pc, rfl, h.gie, h.mode, h.env, h.resetCount, h.w, h.c, h.f, h.r⟩

theorem AgreeOn.setGie {u : Written} {s t : State} (h : AgreeOn u s t) (b : Bool) :
    AgreeOn u (s.setGie b) (t.setGie b) :=
  ⟨h.part, h.rom, h.pc, h.stk, rfl, h.mode, h.env, h.resetCount, h.w, h.c, h.f, h.r⟩

theorem AgreeOn.setMode {u : Written} {s t : State} (h : AgreeOn u s t) (m : Mode) :
    AgreeOn u (s.setMode m) (t.setMode m) :=
  ⟨h.part, h.rom, h.pc, h.stk, h.gie, rfl, h.env, h.resetCount, h.w, h.c, h.f, h.r⟩

theorem AgreeOn.setToPd {u : Written} {s t : State} (h : AgreeOn u s t) (b b' : Bool) :
    AgreeOn u (s.setToPd b b') (t.setToPd b b') :=
  ⟨h.part, h.rom, h.pc, h.stk, h.gie, h.mode, h.env, h.resetCount, h.w, h.c, h.f, h.r⟩

theorem AgreeOn.setWdt {u : Written} {s t : State} (h : AgreeOn u s t) (n : Nat) :
    AgreeOn u (s.setWdt n) (t.setWdt n) :=
  ⟨h.part, h.rom, h.pc, h.stk, h.gie, h.mode, h.env, h.resetCount, h.w, h.c, h.f, h.r⟩

/-- A write of W makes the states agree on W. -/
theorem AgreeOn.setW {u : Written} {s t : State} (h : AgreeOn u s t) (v : Byte) :
    AgreeOn { u with w := true } (s.setW v) (t.setW v) :=
  ⟨h.part, h.rom, h.pc, h.stk, h.gie, h.mode, h.env, h.resetCount, fun _ => rfl, h.c, h.f, h.r⟩

/-- A write of a register makes the states agree on it. -/
theorem AgreeOn.setF {u : Written} {s t : State} (h : AgreeOn u s t) (a : BitVec 7) (v : Byte) :
    AgreeOn { u with f := a :: u.f } (s.setF a v) (t.setF a v) := by
  refine ⟨h.part, h.rom, h.pc, h.stk, h.gie, h.mode, h.env, h.resetCount, h.w, h.c, fun x hx => ?_, h.r⟩
  by_cases hxa : x = a
  · subst hxa; simp
  · rw [State.setF_f_ne _ _ hxa, State.setF_f_ne _ _ hxa]
    exact h.f x ((List.mem_cons.mp hx).resolve_left hxa)

theorem AgreeOn.setR {u : Written} {s t : State} (h : AgreeOn u s t) (a : BitVec 8) (v : Byte) :
    AgreeOn { u with r := a :: u.r } (s.setR a v) (t.setR a v) := by
  refine ⟨h.part, h.rom, h.pc, h.stk, h.gie, h.mode, h.env, h.resetCount, h.w, h.c, h.f, fun x hx => ?_⟩
  by_cases hxa : x = a
  · subst hxa; simp
  · rw [State.setR_r_ne _ _ hxa, State.setR_r_ne _ _ hxa]
    exact h.r x ((List.mem_cons.mp hx).resolve_left hxa)

/-- A write of flags makes the states agree on C where C is among them. -/
theorem AgreeOn.setFlags {u : Written} {s t : State} (h : AgreeOn u s t) (x : FlagWrite) :
    AgreeOn { u with c := x.c.isSome || u.c } (s.setFlags x) (t.setFlags x) := by
  refine ⟨h.part, h.rom, h.pc, h.stk, h.gie, h.mode, h.env, h.resetCount, h.w, fun hc => ?_, h.f, h.r⟩
  show x.c.getD s.c = x.c.getD t.c
  cases hx : x.c with
  | none => exact h.c (by simpa [hx] using hc)
  | some b => rfl

/-- A read of a written register goes on alike. -/
theorem AgreeOn.fRead {u u' : Written} {s t : State} (h : AgreeOn u s t) {a : BitVec 7} (ha : a ∈ u.f)
    {k k' : Byte → Out} (hk : OutcomesAgreeOn u' (k (t.f a)) (k' (t.f a))) :
    OutcomesAgreeOn u' (s.fRead a k) (t.fRead a k') := by
  unfold State.fRead
  rw [h.fClass a, h.f a ha]
  cases t.fClass a <;> first | exact hk | rfl

theorem AgreeOn.rRead {u u' : Written} {s t : State} (h : AgreeOn u s t) {a : BitVec 8} (ha : a ∈ u.r)
    {k k' : Byte → Out} (hk : OutcomesAgreeOn u' (k (t.r a)) (k' (t.r a))) :
    OutcomesAgreeOn u' (s.rRead a k) (t.rRead a k') := by
  unfold State.rRead
  rw [h.rClass a, h.r a ha]
  cases t.rClass a <;> first | exact hk | rfl

theorem AgreeOn.fWrite {u u' : Written} {s t : State} (h : AgreeOn u s t) (a : BitVec 7) (v : Byte)
    {k k' : State → Out} (hk : OutcomesAgreeOn u' (k (s.setF a v)) (k' (t.setF a v))) :
    OutcomesAgreeOn u' (s.fWrite a v k) (t.fWrite a v k') := by
  unfold State.fWrite
  rw [h.fClass a]
  cases t.fClass a <;> first | exact hk | rfl

theorem AgreeOn.rWrite {u u' : Written} {s t : State} (h : AgreeOn u s t) (a : BitVec 8) (v : Byte)
    {k k' : State → Out} (hk : OutcomesAgreeOn u' (k (s.setR a v)) (k' (t.setR a v))) :
    OutcomesAgreeOn u' (s.rWrite a v k) (t.rWrite a v k') := by
  unfold State.rWrite
  rw [h.rClass a]
  cases t.rClass a <;> first | exact hk | rfl

theorem AgreeOn.push {u u' : Written} {s t : State} (h : AgreeOn u s t) (a : PAddr) {k k' : State → Out}
    (hk : OutcomesAgreeOn u' (k (s.setStk (a :: t.stk))) (k' (t.setStk (a :: t.stk)))) :
    OutcomesAgreeOn u' (s.push a k) (t.push a k') := by
  unfold State.push
  rw [h.part, h.stk, h.pc]
  split
  · rfl
  · exact hk

theorem AgreeOn.popPc {u u' : Written} {s t : State} (h : AgreeOn u s t) {k : State → State}
    (hk : ∀ s' t', AgreeOn u s' t' → AgreeOn u' (k s') (k t')) :
    OutcomesAgreeOn u' (s.popPc k) (t.popPc k) := by
  unfold State.popPc State.pop
  rw [h.stk, h.pc]
  cases t.stk with
  | nil => rfl
  | cons a rest => exact hk _ _ ((h.setStk rest).setPc a)

/-! ### Agreement through the shapes -/

/-- What is written after `Dest(d, f) <- v`. -/
def Written.dest (u : Written) (d : Dest) (f : BitVec 7) : Written :=
  match d with
  | .w => { u with w := true }
  | .file => { u with f := f :: u.f }

theorem AgreeOn.toDest {u u' : Written} {s t : State} (h : AgreeOn u s t) (d : Dest) (f : BitVec 7) (v : Byte)
    {k k' : State → Out}
    (hk : ∀ s' t', AgreeOn (u.dest d f) s' t' → OutcomesAgreeOn u' (k s') (k' t')) :
    OutcomesAgreeOn u' (s.toDest d f v k) (t.toDest d f v k') := by
  cases d with
  | w => exact hk _ _ (h.setW v)
  | file => exact h.fWrite f v (hk _ _ (h.setF f v))

/-- A BD instruction whose result is the same function of the register in both states. -/
theorem AgreeOn.byteOriented {u u' : Written} {s t : State} (h : AgreeOn u s t) {f : BitVec 7} (hf : f ∈ u.f) (d : Dest)
    {res res' : Byte → Byte} {flags flags' : Byte → FlagWrite} (hr : res (t.f f) = res' (t.f f))
    (hx : flags (t.f f) = flags' (t.f f))
    (hu : { u.dest d f with c := (flags' (t.f f)).c.isSome || (u.dest d f).c } = u') :
    OutcomesAgreeOn u' (s.byteOriented f d res flags) (t.byteOriented f d res' flags') := by
  refine h.fRead hf ?_
  rw [hr, hx]
  exact h.toDest d f _ fun s' t' h' => hu ▸ (h'.setFlags _).advance

theorem AgreeOn.byteSkip {u : Written} {s t : State} (h : AgreeOn u s t) {f : BitVec 7} (hf : f ∈ u.f) (d : Dest)
    (res : Byte → Byte) : OutcomesAgreeOn (u.dest d f) (s.byteSkip f d res) (t.byteSkip f d res) :=
  h.fRead hf (h.toDest d f _ fun _ _ h' => h'.advanceSkip _)

theorem AgreeOn.bitWrite {u : Written} {s t : State} (h : AgreeOn u s t) {f : BitVec 6} (hf : bitAddr f ∈ u.f)
    (op : Byte → Byte) :
    OutcomesAgreeOn { u with f := bitAddr f :: u.f } (s.bitWrite f op) (t.bitWrite f op) :=
  h.fRead hf (h.fWrite _ _ (h.setF _ _).advance)

theorem AgreeOn.bitTest {u : Written} {s t : State} (h : AgreeOn u s t) {f : BitVec 6} (hf : bitAddr f ∈ u.f)
    (b : BitVec 3) (on : Bool) : OutcomesAgreeOn u (s.bitTest f b on) (t.bitTest f b on) :=
  h.fRead hf (h.advanceSkip _)

theorem AgreeOn.literal {u : Written} {s t : State} (h : AgreeOn u s t) (v : Byte) (x : FlagWrite) :
    OutcomesAgreeOn { u with w := true, c := x.c.isSome || u.c } (s.literal v x) (t.literal v x) :=
  ((h.setW v).setFlags x).advance

theorem AgreeOn.moveWToR {u : Written} {s t : State} (h : AgreeOn u s t) (hw : u.w = true) (r : BitVec 8) :
    OutcomesAgreeOn { u with r := r :: u.r } (s.moveWToR r) (t.moveWToR r) := by
  unfold State.moveWToR
  rw [h.w hw]
  exact h.rWrite r _ (h.setR r _).advance

theorem AgreeOn.tableRead {u : Written} {s t : State} (h : AgreeOn u s t) (hh : s.part.dphAddr ∈ u.f)
    (hl : s.part.dplAddr ∈ u.f) (pick : ProgWord → Byte) :
    OutcomesAgreeOn { u with w := true } (s.tableRead pick) (t.tableRead pick) := by
  unfold State.tableRead
  rw [h.part] at hh hl ⊢
  refine h.fRead hh (h.fRead hl ?_)
  have hd : s.dptr (t.f t.part.dphAddr) (t.f t.part.dplAddr) = t.dptr (t.f t.part.dphAddr) (t.f t.part.dplAddr) := by
    simp only [State.dptr, State.toPAddr, h.part]
  simp only [hd, h.romWord]
  split
  · exact (h.setW _).advance
  · rfl

/-! ### Agreement through an instruction and a step -/

/-- An instruction that reads only what has been written does the same in two states that agree on that, and they agree
on what it writes too (R212). -/
theorem exec_agrees {u : Written} {s t : State} (h : AgreeOn u s t) {i : Instr} (ha : u.allows s.part i = true) :
    OutcomesAgreeOn (u.after i) (exec i s) (exec i t) := by
  simp only [Written.allows, Bool.and_eq_true, Bool.or_eq_true, Bool.not_eq_true', List.all_eq_true,
    List.contains_iff_mem, and_assoc] at ha
  obtain ⟨hw, hc, hf, hr⟩ := ha
  have hW : i.readsW = true → s.w = t.w := fun e => h.w (hw.resolve_left (by simp [e]))
  have hC : i.readsC = true → s.c = t.c := fun e => h.c (hc.resolve_left (by simp [e]))
  cases i with
  | addwf f d =>
    rw [exec_addwf, exec_addwf, hW rfl]
    cases d
    · exact h.byteOriented (hf f (.head _)) .w rfl rfl rfl
    · exact h.byteOriented (hf f (.head _)) .file rfl rfl rfl
  | subwf f d =>
    rw [exec_subwf, exec_subwf, hW rfl]
    cases d
    · exact h.byteOriented (hf f (.head _)) .w rfl rfl rfl
    · exact h.byteOriented (hf f (.head _)) .file rfl rfl rfl
  | andwf f d =>
    rw [exec_andwf, exec_andwf, hW rfl]
    cases d
    · exact h.byteOriented (hf f (.head _)) .w rfl rfl rfl
    · exact h.byteOriented (hf f (.head _)) .file rfl rfl rfl
  | iorwf f d =>
    rw [exec_iorwf, exec_iorwf, hW rfl]
    cases d
    · exact h.byteOriented (hf f (.head _)) .w rfl rfl rfl
    · exact h.byteOriented (hf f (.head _)) .file rfl rfl rfl
  | xorwf f d =>
    rw [exec_xorwf, exec_xorwf, hW rfl]
    cases d
    · exact h.byteOriented (hf f (.head _)) .w rfl rfl rfl
    · exact h.byteOriented (hf f (.head _)) .file rfl rfl rfl
  | comf f d =>
    rw [exec_comf, exec_comf]
    cases d
    · exact h.byteOriented (hf f (.head _)) .w rfl rfl rfl
    · exact h.byteOriented (hf f (.head _)) .file rfl rfl rfl
  | decf f d =>
    rw [exec_decf, exec_decf]
    cases d
    · exact h.byteOriented (hf f (.head _)) .w rfl rfl rfl
    · exact h.byteOriented (hf f (.head _)) .file rfl rfl rfl
  | incf f d =>
    rw [exec_incf, exec_incf]
    cases d
    · exact h.byteOriented (hf f (.head _)) .w rfl rfl rfl
    · exact h.byteOriented (hf f (.head _)) .file rfl rfl rfl
  | swapf f d =>
    rw [exec_swapf, exec_swapf]
    cases d
    · exact h.byteOriented (hf f (.head _)) .w rfl rfl rfl
    · exact h.byteOriented (hf f (.head _)) .file rfl rfl rfl
  | rlf f d =>
    rw [exec_rlf, exec_rlf, hC rfl]
    cases d
    · exact h.byteOriented (hf f (.head _)) .w rfl rfl rfl
    · exact h.byteOriented (hf f (.head _)) .file rfl rfl rfl
  | rrf f d =>
    rw [exec_rrf, exec_rrf, hC rfl]
    cases d
    · exact h.byteOriented (hf f (.head _)) .w rfl rfl rfl
    · exact h.byteOriented (hf f (.head _)) .file rfl rfl rfl
  | decfsz f d =>
    rw [exec_decfsz, exec_decfsz]
    cases d
    · exact h.byteSkip (hf f (.head _)) .w _
    · exact h.byteSkip (hf f (.head _)) .file _
  | incfsz f d =>
    rw [exec_incfsz, exec_incfsz]
    cases d
    · exact h.byteSkip (hf f (.head _)) .w _
    · exact h.byteSkip (hf f (.head _)) .file _
  | clrf f =>
    rw [exec_clrf, exec_clrf]
    exact h.fWrite f 0 ((h.setF f 0).setFlags (.zero 0)).advance
  | clrw =>
    rw [exec_clrw, exec_clrw]
    exact h.literal 0 (.zero 0)
  | movfw f =>
    rw [exec_movfw, exec_movfw]
    exact h.fRead (hf f (.head _)) (h.setW _).advance
  | movwf f =>
    rw [exec_movwf, exec_movwf, hW rfl]
    exact h.fWrite f t.w (h.setF f _).advance
  | movwrA r =>
    rw [exec_movwrA, exec_movwrA]
    exact h.moveWToR (hw.resolve_left Bool.noConfusion) _
  | movwrB r =>
    rw [exec_movwrB, exec_movwrB]
    exact h.moveWToR (hw.resolve_left Bool.noConfusion) _
  | movrw r =>
    rw [exec_movrw, exec_movrw]
    exact h.rRead (hr r (.head _)) (h.setW _).advance
  | testz f =>
    rw [exec_testz, exec_testz]
    exact h.fRead (hf f (.head _)) (h.setFlags (.zero _)).advance
  | bcf f b =>
    rw [exec_bcf, exec_bcf]
    exact h.bitWrite (hf _ (.head _)) _
  | bsf f b =>
    rw [exec_bsf, exec_bsf]
    exact h.bitWrite (hf _ (.head _)) _
  | btfsc f b =>
    rw [exec_btfsc, exec_btfsc]
    exact h.bitTest (hf _ (.head _)) b _
  | btfss f b =>
    rw [exec_btfss, exec_btfss]
    exact h.bitTest (hf _ (.head _)) b _
  | addlw k =>
    rw [exec_addlw, exec_addlw, hW rfl]
    exact h.literal _ (.arith _)
  | andlw k =>
    rw [exec_andlw, exec_andlw, hW rfl]
    exact h.literal _ (.zero _)
  | iorlw k =>
    rw [exec_iorlw, exec_iorlw, hW rfl]
    exact h.literal _ (.zero _)
  | xorlwA k =>
    rw [exec_xorlwA, exec_xorlwA, State.xorLiteral, State.xorLiteral, hW rfl]
    exact h.literal _ (.zero _)
  | xorlwB k =>
    rw [exec_xorlwB, exec_xorlwB, State.xorLiteral, State.xorLiteral, hW rfl]
    exact h.literal _ (.zero _)
  | movlw k =>
    rw [exec_movlw, exec_movlw]
    exact h.literal k .nothing
  | call k =>
    rw [exec_call, exec_call, h.pcPlus 1, h.jumpTarget k]
    exact h.push (t.pcPlus 1) ((h.setStk _).setPc _)
  | goto k =>
    rw [exec_goto, exec_goto, h.jumpTarget k]
    exact show OutcomesAgreeOn u (.next _) (.next _) from h.setPc _
  | clrwdtA =>
    rw [exec_clrwdtA, exec_clrwdtA]
    exact show OutcomesAgreeOn u (.next _) (.next _) from ((h.setWdt 0).setToPd false false).advance
  | clrwdtB =>
    rw [exec_clrwdtB, exec_clrwdtB]
    exact show OutcomesAgreeOn u (.next _) (.next _) from ((h.setWdt 0).setToPd false false).advance
  | sleepA =>
    rw [exec_sleepA, exec_sleepA]
    exact show OutcomesAgreeOn u (.next _) (.next _) from ((h.setToPd false true).setMode .sleep).advance
  | sleepB =>
    rw [exec_sleepB, exec_sleepB]
    exact show OutcomesAgreeOn u (.next _) (.next _) from ((h.setToPd false true).setMode .sleep).advance
  | nop =>
    rw [exec_nop, exec_nop]
    exact show OutcomesAgreeOn u (.next _) (.next _) from h.advance
  | ret =>
    rw [exec_ret, exec_ret]
    exact h.popPc (k := fun x => x) fun _ _ h' => h'
  | reti =>
    rw [exec_reti, exec_reti]
    exact h.popPc (k := fun x => x.setGie true) fun _ _ h' => h'.setGie true
  | retlw k =>
    rw [exec_retlw, exec_retlw]
    exact h.popPc (k := fun x => x.setW k) fun _ _ h' => h'.setW k
  | tblwl =>
    rw [exec_tblwl, exec_tblwl]
    exact h.tableRead (hf _ (.head _)) (hf _ (.tail _ (.head _))) _
  | tblwh =>
    rw [exec_tblwh, exec_tblwh]
    exact h.tableRead (hf _ (.head _)) (hf _ (.tail _ (.head _))) _

theorem AgreeOn.input {u : Written} {s t : State} (h : AgreeOn u s t) : s.input = t.input := by
  simp only [State.input, h.env]

theorem AgreeOn.arrive {u : Written} {s t : State} (h : AgreeOn u s t) : AgreeOn u s.arrive t.arrive :=
  ⟨h.part, h.rom, h.pc, h.stk, h.gie, h.mode, congrArg List.tail h.env, h.resetCount, h.w, h.c, h.f, h.r⟩

theorem AgreeOn.fetch {u : Written} {s t : State} (h : AgreeOn u s t) : s.fetch = t.fetch := by
  simp only [State.fetch, h.romWord, h.part, h.pc]

/-- A reset event makes the states agree, whatever was written before it. -/
theorem AgreeOn.resetEvent {u : Written} {s t : State} (h : AgreeOn u s t) :
    AgreeOn .atReset s.resetEvent t.resetEvent := by
  refine ⟨h.part, h.rom, ?_, rfl, ?_, rfl, h.env, ?_, nofun, nofun, nofun, nofun⟩
  · show s.part.resetVector = t.part.resetVector
    rw [h.part]
  · show s.part.gieReset.getD _ = t.part.gieReset.getD _
    rw [h.part, h.resetCount]
  · show s.resetCount + 1 = t.resetCount + 1
    rw [h.resetCount]

theorem AgreeOn.wakeEvent {u : Written} {s t : State} (h : AgreeOn u s t) (i : Input) :
    AgreeOn u (s.wakeEvent i) (t.wakeEvent i) :=
  ⟨h.part, h.rom, h.pc, h.stk, h.gie, rfl, congrArg (List.cons _) h.env, h.resetCount, h.w, h.c, h.f, h.r⟩

theorem AgreeOn.interruptEntry {u : Written} {s t : State} (h : AgreeOn u s t) :
    OutcomesAgreeOn u (interruptEntry s) (interruptEntry t) := by
  unfold Machine.interruptEntry
  rw [h.pc]
  refine h.push t.pc ?_
  rw [State.setStk_part, State.setStk_part, h.part]
  exact ((h.setStk _).setGie false).setPc _

/-- A step that meets the boot requirements does the same in two states that agree on what has been written (R212). -/
theorem step_agrees {u : Written} {s t : State} (h : AgreeOn u s t) (ha : u.allowsStep s = true) :
    OutcomesAgreeOn (u.afterStep s) (step s) (step t) := by
  unfold Written.allowsStep at ha
  unfold Written.afterStep step
  unfold State.boundary at ha ⊢
  rw [← h.input, ← h.part, ← h.mode, ← h.gie]
  by_cases hr : s.input.reset = true
  · simp only [hr, Bool.true_or, if_true]
    exact h.arrive.resetEvent
  by_cases hd : (s.input.watchdog && s.part.wdtEnabled) = true
  · simp only [hr, hd, Bool.or_true, if_true]
    exact h.arrive.resetEvent
  simp only [hr, hd, Bool.or_false] at ha ⊢
  cases hm : s.mode with
  | sleep =>
    simp only [hm] at ha ⊢
    by_cases hk : s.input.wake = true
    · simp only [hk, if_true]
      exact h.arrive.wakeEvent _
    · simp only [hk]
      exact h.arrive
  | run =>
    simp only [hm] at ha ⊢
    by_cases hi : (s.gie && s.input.irq) = true
    · simp only [hi, if_true]
      exact h.arrive.interruptEntry
    · simp only [hi] at ha ⊢
      simp only [Bool.false_eq_true, if_false, ← h.arrive.fetch] at ha ⊢
      cases hf : s.arrive.fetch with
      | ok i =>
        simp only [hf] at ha ⊢
        exact exec_agrees h.arrive ha
      | error e => rfl

/-- A program that meets the boot requirements (R212) does the same whatever reset left in what it has not written: states
that agree on the written elements reach, after any number of steps, the same stop or states that agree. -/
theorem run_agrees (n : Nat) {u : Written} {s t : State} (h : AgreeOn u s t) (ha : u.allowsRun n s = true) :
    OutcomesAgreeOn (u.afterRun n s) (runSteps n s) (runSteps n t) := by
  induction n generalizing u s t with
  | zero => exact h
  | succ n ih =>
    simp only [Written.allowsRun, Bool.and_eq_true] at ha
    have hs := step_agrees h ha.1
    have hn := ha.2
    simp only [Written.afterRun, runSteps]
    cases hst : step s <;> cases htt : step t <;> simp only [hst, htt] at hs hn ⊢
    · exact ih hs hn
    all_goals first | exact hs | exact hs.elim

end Sys2Proof.Machine
end

