-- ==== Sys2Proof/Laws/Decode.lean ====
section
/-! SUPPORT. Fields and opcodes of a word that is put together from its parts, for every format of R71. -/

namespace Sys2Proof

/-- A concatenation as a number. -/
theorem toNat_append_eq {m n : Nat} (a : BitVec m) (b : BitVec n) : (a ++ b).toNat = a.toNat * 2 ^ n + b.toNat := by
  rw [BitVec.toNat_append, ← Nat.shiftLeft_add_eq_or_of_lt b.isLt, Nat.shiftLeft_eq]

/-- A field that lies in the low part of a concatenation is a field of that part. -/
theorem extract_append_low {m n : Nat} (a : BitVec m) (b : BitVec n) (start len : Nat) (h : start + len ≤ n) :
    (a ++ b).extractLsb' start len = b.extractLsb' start len := by
  apply BitVec.eq_of_getLsbD_eq
  intro i hi
  have : start + i < n := by omega
  simp [BitVec.getLsbD_append, hi, this]

/-- A field that lies in the high part of a concatenation is a field of that part. -/
theorem extract_append_high {m n : Nat} (a : BitVec m) (b : BitVec n) (start len : Nat) :
    (a ++ b).extractLsb' (n + start) len = a.extractLsb' start len := by
  apply BitVec.eq_of_getLsbD_eq
  intro i hi
  have h1 : ¬ n + start + i < n := by omega
  have h2 : n + start + i - n = start + i := by omega
  simp [BitVec.getLsbD_append, hi, h1, h2]

/-- A field that is the whole vector. -/
theorem extract_whole {n : Nat} (b : BitVec n) : b.extractLsb' 0 n = b := by
  apply BitVec.eq_of_getLsbD_eq
  intro i hi
  simp [hi]

/-- The mask of an opcode of m bits above n bits of operands keeps the opcode (R76). -/
theorem mask_append {m n : Nat} (op : BitVec m) (x : BitVec n) :
    (op ++ x).toNat &&& ((2 ^ m - 1) * 2 ^ n) = op.toNat * 2 ^ n := by
  apply Nat.eq_of_testBit_eq
  intro i
  rw [Nat.testBit_and, Nat.testBit_mul_two_pow, Nat.testBit_mul_two_pow, Nat.testBit_two_pow_sub_one,
    BitVec.testBit_toNat, BitVec.getLsbD_append]
  by_cases hi : i < n
  · have h1 : ¬ n ≤ i := by omega
    simp [hi, h1]
  · have h1 : n ≤ i := by omega
    simp only [hi, h1, decide_true, Bool.true_and, BitVec.testBit_toNat]
    by_cases hm : i - n < m
    · simp [hm]
    · simp [hm, BitVec.getLsbD_of_ge _ _ (Nat.not_lt.mp hm)]

/-! ### Format BD: opcode 6, d, f 7 -/

theorem bd_assoc (op : BitVec 6) (d : BitVec 1) (f : BitVec 7) :
    (op ++ d ++ f : BitVec 14) = (op ++ (d ++ f) : BitVec 14) := by
  apply BitVec.eq_of_toNat_eq
  refine (toNat_append_eq (op ++ d) f).trans (Eq.trans ?_ (toNat_append_eq op (d ++ f)).symm)
  rw [toNat_append_eq, toNat_append_eq]
  ring

@[simp] theorem bd_fField (op : BitVec 6) (d : BitVec 1) (f : BitVec 7) : fField (op ++ d ++ f) = f :=
  (extract_append_low (op ++ d) f 0 7 (by decide)).trans (extract_whole f)

@[simp] theorem bd_dField (op : BitVec 6) (d : Dest) (f : BitVec 7) : dField (op ++ d.bit ++ f) = d := by
  have h : (op ++ d.bit ++ f : BitVec 14).getLsbD 7 = d.bit.getLsbD 0 := by
    show ((op ++ d.bit) ++ f).getLsbD 7 = _
    rw [BitVec.getLsbD_append, BitVec.getLsbD_append]
    simp
  rw [dField, h]
  cases d <;> rfl

/-! ### Format BF: opcode 7, f 7 -/

@[simp] theorem bf_fField (op : BitVec 7) (f : BitVec 7) : fField (op ++ f) = f :=
  (extract_append_low op f 0 7 (by decide)).trans (extract_whole f)

theorem bf_bit7 (op : BitVec 7) (f : BitVec 7) : (op ++ f : BitVec 14).getLsbD 7 = op.getLsbD 0 := by
  show (op ++ f).getLsbD 7 = _
  rw [BitVec.getLsbD_append]
  simp

/-! ### Formats R6, R8 and K8 -/

@[simp] theorem r6_field (op : BitVec 8) (r : BitVec 6) : r6Field (op ++ r) = r :=
  (extract_append_low op r 0 6 (by decide)).trans (extract_whole r)

@[simp] theorem r8_field (op : BitVec 6) (r : BitVec 8) : r8Field (op ++ r) = r :=
  (extract_append_low op r 0 8 (by decide)).trans (extract_whole r)

@[simp] theorem k8_field (op : BitVec 6) (k : BitVec 8) : k8Field (op ++ k) = k :=
  (extract_append_low op k 0 8 (by decide)).trans (extract_whole k)

/-! ### Format BIT: opcode 5, b 3, f 6 -/

theorem bit_assoc (op : BitVec 5) (b : BitVec 3) (f : BitVec 6) :
    (op ++ b ++ f : BitVec 14) = (op ++ (b ++ f) : BitVec 14) := by
  apply BitVec.eq_of_toNat_eq
  refine (toNat_append_eq (op ++ b) f).trans (Eq.trans ?_ (toNat_append_eq op (b ++ f)).symm)
  rw [toNat_append_eq, toNat_append_eq]
  ring

@[simp] theorem bit_fField (op : BitVec 5) (b : BitVec 3) (f : BitVec 6) : bitFField (op ++ b ++ f) = f :=
  (extract_append_low (op ++ b) f 0 6 (by decide)).trans (extract_whole f)

@[simp] theorem bit_bField (op : BitVec 5) (b : BitVec 3) (f : BitVec 6) : bField (op ++ b ++ f) = b :=
  ((extract_append_high (op ++ b) f 0 3).trans (extract_append_low op b 0 3 (by decide))).trans (extract_whole b)

/-! ### Format K12: opcode 2, k 12 -/

@[simp] theorem k12_field (op : BitVec 2) (k : BitVec 12) : k12Field (op ++ k) = k :=
  (extract_append_low op k 0 12 (by decide)).trans (extract_whole k)

theorem k12_opcode (op : BitVec 2) (k : BitVec 12) : (op ++ k : BitVec 14).extractLsb' 12 2 = op :=
  (extract_append_high op k 0 2).trans (extract_whole op)

/-! ### The opcode bits the decoder looks at: 13..12 and 12..8 -/

/-- Bits 13..12 of a word with a 6-bit opcode. -/
theorem op6_top (op : BitVec 6) (x : BitVec 8) : (op ++ x : BitVec 14).extractLsb' 12 2 = op.extractLsb' 4 2 :=
  extract_append_high op x 4 2

/-- Bits 12..8 of a word with a 6-bit opcode. -/
theorem op6_low (op : BitVec 6) (x : BitVec 8) : (op ++ x : BitVec 14).extractLsb' 8 5 = op.extractLsb' 0 5 :=
  extract_append_high op x 0 5

/-- Bits 13..12 of a BF word. -/
theorem bf_top (op : BitVec 7) (f : BitVec 7) : (op ++ f : BitVec 14).extractLsb' 12 2 = op.extractLsb' 5 2 :=
  extract_append_high op f 5 2

/-- Bits 12..8 of a BF word. -/
theorem bf_low (op : BitVec 7) (f : BitVec 7) : (op ++ f : BitVec 14).extractLsb' 8 5 = op.extractLsb' 1 5 :=
  extract_append_high op f 1 5

end Sys2Proof
end

