-- ==== Sys2Proof/Laws/Flags.lean ====
section
/-! SUPPORT. What the additions and subtractions of R9 give, in natural-number arithmetic. -/

namespace Sys2Proof.Machine

/-- The sum is the low 8 bits of the exact sum (R9). -/
theorem add8_res_toNat (a b : Byte) (c : BitVec 1) :
    (add8 a b c).res.toNat = (a.toNat + b.toNat + c.toNat) % 256 := by
  have ha := a.isLt
  have hb := b.isLt
  have hc := c.isLt
  simp only [add8, BitVec.extractLsb'_toNat, BitVec.toNat_add, BitVec.toNat_setWidth, BitVec.zeroExtend,
    Nat.shiftRight_zero]
  omega

/-- C is the carry out of bit 7 (R9, R24). -/
theorem add8_c (a b : Byte) (c : BitVec 1) :
    (add8 a b c).c = decide (256 ≤ a.toNat + b.toNat + c.toNat) := by
  have ha := a.isLt
  have hb := b.isLt
  have hc := c.isLt
  rw [Bool.eq_iff_iff]
  simp only [add8, BitVec.getLsbD, BitVec.toNat_add, BitVec.toNat_setWidth, BitVec.zeroExtend,
    Nat.testBit_eq_decide_div_mod_eq, decide_eq_true_eq]
  omega

/-- DC is the carry out of bit 3 (R9, R24). -/
theorem add8_dc (a b : Byte) (c : BitVec 1) :
    (add8 a b c).dc = decide (16 ≤ a.toNat % 16 + b.toNat % 16 + c.toNat) := by
  have hc := c.isLt
  rw [Bool.eq_iff_iff]
  simp only [add8, BitVec.getLsbD, BitVec.toNat_add, BitVec.toNat_setWidth, BitVec.zeroExtend,
    Nat.testBit_eq_decide_div_mod_eq, decide_eq_true_eq, BitVec.extractLsb'_toNat, Nat.shiftRight_zero]
  omega

theorem toNat_not8 (b : Byte) : (~~~b).toNat = 255 - b.toNat := by
  simp [BitVec.toNat_not]

/-- The difference modulo 256 (R117). -/
theorem sub8_res_toNat (a b : Byte) : (sub8 a b).res.toNat = (a.toNat + 256 - b.toNat) % 256 := by
  have hb := b.isLt
  rw [sub8, add8_res_toNat, toNat_not8]
  simp
  omega

/-- C = 1 exactly when there is no borrow (R9). -/
theorem sub8_c (a b : Byte) : (sub8 a b).c = decide (b.toNat ≤ a.toNat) := by
  have hb := b.isLt
  rw [sub8, add8_c, toNat_not8]
  simp
  omega

/-- DC = 1 exactly when there is no borrow out of the low nibble (R9). -/
theorem sub8_dc (a b : Byte) : (sub8 a b).dc = decide (b.toNat % 16 ≤ a.toNat % 16) := by
  have hb := b.isLt
  rw [sub8, add8_dc, toNat_not8]
  simp
  omega

theorem isZero_eq (v : Byte) : isZero v = decide (v.toNat = 0) := by
  rw [Bool.eq_iff_iff]
  simp [isZero, ← BitVec.toNat_inj]

end Sys2Proof.Machine
end

