-- ==== Sys2Proof/Laws/PerInstr.lean ====
section
/-! SUPPORT. Per-instruction laws: each instruction's word is one that a row of the opcode table matches, and that row reads
the instruction back from it (spec/30_encoding.md R71, R76). -/

namespace Sys2Proof.Laws.RowMatch

/-- The row matches the instruction's word and reads this very instruction from it. -/
def Reads (row : OpcodeRow) (i : Instr) : Prop := row.matchesWord (encode i) = true ∧ row.instr (encode i) = i

/-- Some row of the table reads the instruction from its word. -/
def Statement (i : Instr) : Prop := ∃ row ∈ opcodeRows, Reads row i

/-- A row whose mask keeps an opcode of m bits, and whose pattern is that opcode, matches the opcode's words. -/
theorem matches_of {m n : Nat} (h : m + n = 14) (row : OpcodeRow) (i : Instr) (op : BitVec m) (x : BitVec n)
    (henc : encode i = (op ++ x).cast h) (hmask : row.mask = (2 ^ m - 1) * 2 ^ n)
    (hpat : row.pattern = op.toNat * 2 ^ n) : row.matchesWord (encode i) = true := by
  rw [OpcodeRow.matchesWord, henc, BitVec.toNat_cast, hmask, hpat, mask_append]
  exact beq_self_eq_true _

theorem addwf (f : BitVec 7) (d : Dest) : Statement (.addwf f d) :=
  ⟨_, List.getElem_mem (l := opcodeRows) (n := 0) (by decide),
    matches_of rfl _ _ 0b000111#6 (d.bit ++ f) (bd_assoc _ _ _) rfl rfl,
    congrArg₂ Instr.addwf (bd_fField _ _ _) (bd_dField _ _ _)⟩

theorem andwf (f : BitVec 7) (d : Dest) : Statement (.andwf f d) :=
  ⟨_, List.getElem_mem (l := opcodeRows) (n := 1) (by decide),
    matches_of rfl _ _ 0b000101#6 (d.bit ++ f) (bd_assoc _ _ _) rfl rfl,
    congrArg₂ Instr.andwf (bd_fField _ _ _) (bd_dField _ _ _)⟩

theorem clrf (f : BitVec 7) : Statement (.clrf f) :=
  ⟨_, List.getElem_mem (l := opcodeRows) (n := 2) (by decide),
    matches_of rfl _ _ 0b0000011#7 f rfl rfl rfl,
    congrArg Instr.clrf (bf_fField _ _)⟩

theorem clrw : Statement .clrw :=
  ⟨_, List.getElem_mem (l := opcodeRows) (n := 3) (by decide), rfl, rfl⟩

theorem comf (f : BitVec 7) (d : Dest) : Statement (.comf f d) :=
  ⟨_, List.getElem_mem (l := opcodeRows) (n := 4) (by decide),
    matches_of rfl _ _ 0b001001#6 (d.bit ++ f) (bd_assoc _ _ _) rfl rfl,
    congrArg₂ Instr.comf (bd_fField _ _ _) (bd_dField _ _ _)⟩

theorem decf (f : BitVec 7) (d : Dest) : Statement (.decf f d) :=
  ⟨_, List.getElem_mem (l := opcodeRows) (n := 5) (by decide),
    matches_of rfl _ _ 0b000011#6 (d.bit ++ f) (bd_assoc _ _ _) rfl rfl,
    congrArg₂ Instr.decf (bd_fField _ _ _) (bd_dField _ _ _)⟩

theorem decfsz (f : BitVec 7) (d : Dest) : Statement (.decfsz f d) :=
  ⟨_, List.getElem_mem (l := opcodeRows) (n := 6) (by decide),
    matches_of rfl _ _ 0b001011#6 (d.bit ++ f) (bd_assoc _ _ _) rfl rfl,
    congrArg₂ Instr.decfsz (bd_fField _ _ _) (bd_dField _ _ _)⟩

theorem incf (f : BitVec 7) (d : Dest) : Statement (.incf f d) :=
  ⟨_, List.getElem_mem (l := opcodeRows) (n := 7) (by decide),
    matches_of rfl _ _ 0b001010#6 (d.bit ++ f) (bd_assoc _ _ _) rfl rfl,
    congrArg₂ Instr.incf (bd_fField _ _ _) (bd_dField _ _ _)⟩

theorem incfsz (f : BitVec 7) (d : Dest) : Statement (.incfsz f d) :=
  ⟨_, List.getElem_mem (l := opcodeRows) (n := 8) (by decide),
    matches_of rfl _ _ 0b001111#6 (d.bit ++ f) (bd_assoc _ _ _) rfl rfl,
    congrArg₂ Instr.incfsz (bd_fField _ _ _) (bd_dField _ _ _)⟩

theorem iorwf (f : BitVec 7) (d : Dest) : Statement (.iorwf f d) :=
  ⟨_, List.getElem_mem (l := opcodeRows) (n := 9) (by decide),
    matches_of rfl _ _ 0b000100#6 (d.bit ++ f) (bd_assoc _ _ _) rfl rfl,
    congrArg₂ Instr.iorwf (bd_fField _ _ _) (bd_dField _ _ _)⟩

theorem movfw (f : BitVec 7) : Statement (.movfw f) :=
  ⟨_, List.getElem_mem (l := opcodeRows) (n := 10) (by decide),
    matches_of rfl _ _ 0b0010000#7 f rfl rfl rfl,
    congrArg Instr.movfw (bf_fField _ _)⟩

theorem movwf (f : BitVec 7) : Statement (.movwf f) :=
  ⟨_, List.getElem_mem (l := opcodeRows) (n := 11) (by decide),
    matches_of rfl _ _ 0b0000001#7 f rfl rfl rfl,
    congrArg Instr.movwf (bf_fField _ _)⟩

theorem movwrA (r : BitVec 6) : Statement (.movwrA r) :=
  ⟨_, List.getElem_mem (l := opcodeRows) (n := 12) (by decide),
    matches_of rfl _ _ 0b00000000#8 r rfl rfl rfl,
    congrArg Instr.movwrA (r6_field _ _)⟩

theorem movwrB (r : BitVec 8) : Statement (.movwrB r) :=
  ⟨_, List.getElem_mem (l := opcodeRows) (n := 13) (by decide),
    matches_of rfl _ _ 0b011110#6 r rfl rfl rfl,
    congrArg Instr.movwrB (r8_field _ _)⟩

theorem rlf (f : BitVec 7) (d : Dest) : Statement (.rlf f d) :=
  ⟨_, List.getElem_mem (l := opcodeRows) (n := 14) (by decide),
    matches_of rfl _ _ 0b001101#6 (d.bit ++ f) (bd_assoc _ _ _) rfl rfl,
    congrArg₂ Instr.rlf (bd_fField _ _ _) (bd_dField _ _ _)⟩

theorem rrf (f : BitVec 7) (d : Dest) : Statement (.rrf f d) :=
  ⟨_, List.getElem_mem (l := opcodeRows) (n := 15) (by decide),
    matches_of rfl _ _ 0b001100#6 (d.bit ++ f) (bd_assoc _ _ _) rfl rfl,
    congrArg₂ Instr.rrf (bd_fField _ _ _) (bd_dField _ _ _)⟩

theorem subwf (f : BitVec 7) (d : Dest) : Statement (.subwf f d) :=
  ⟨_, List.getElem_mem (l := opcodeRows) (n := 16) (by decide),
    matches_of rfl _ _ 0b000010#6 (d.bit ++ f) (bd_assoc _ _ _) rfl rfl,
    congrArg₂ Instr.subwf (bd_fField _ _ _) (bd_dField _ _ _)⟩

theorem movrw (r : BitVec 8) : Statement (.movrw r) :=
  ⟨_, List.getElem_mem (l := opcodeRows) (n := 17) (by decide),
    matches_of rfl _ _ 0b011111#6 r rfl rfl rfl,
    congrArg Instr.movrw (r8_field _ _)⟩

theorem swapf (f : BitVec 7) (d : Dest) : Statement (.swapf f d) :=
  ⟨_, List.getElem_mem (l := opcodeRows) (n := 18) (by decide),
    matches_of rfl _ _ 0b001110#6 (d.bit ++ f) (bd_assoc _ _ _) rfl rfl,
    congrArg₂ Instr.swapf (bd_fField _ _ _) (bd_dField _ _ _)⟩

theorem testz (f : BitVec 7) : Statement (.testz f) :=
  ⟨_, List.getElem_mem (l := opcodeRows) (n := 19) (by decide),
    matches_of rfl _ _ 0b0010001#7 f rfl rfl rfl,
    congrArg Instr.testz (bf_fField _ _)⟩

theorem xorwf (f : BitVec 7) (d : Dest) : Statement (.xorwf f d) :=
  ⟨_, List.getElem_mem (l := opcodeRows) (n := 20) (by decide),
    matches_of rfl _ _ 0b000110#6 (d.bit ++ f) (bd_assoc _ _ _) rfl rfl,
    congrArg₂ Instr.xorwf (bd_fField _ _ _) (bd_dField _ _ _)⟩

theorem bcf (f : BitVec 6) (b : BitVec 3) : Statement (.bcf f b) :=
  ⟨_, List.getElem_mem (l := opcodeRows) (n := 21) (by decide),
    matches_of rfl _ _ 0b01000#5 (b ++ f) (bit_assoc _ _ _) rfl rfl,
    congrArg₂ Instr.bcf (bit_fField _ _ _) (bit_bField _ _ _)⟩

theorem bsf (f : BitVec 6) (b : BitVec 3) : Statement (.bsf f b) :=
  ⟨_, List.getElem_mem (l := opcodeRows) (n := 22) (by decide),
    matches_of rfl _ _ 0b01001#5 (b ++ f) (bit_assoc _ _ _) rfl rfl,
    congrArg₂ Instr.bsf (bit_fField _ _ _) (bit_bField _ _ _)⟩

theorem btfsc (f : BitVec 6) (b : BitVec 3) : Statement (.btfsc f b) :=
  ⟨_, List.getElem_mem (l := opcodeRows) (n := 23) (by decide),
    matches_of rfl _ _ 0b01010#5 (b ++ f) (bit_assoc _ _ _) rfl rfl,
    congrArg₂ Instr.btfsc (bit_fField _ _ _) (bit_bField _ _ _)⟩

theorem btfss (f : BitVec 6) (b : BitVec 3) : Statement (.btfss f b) :=
  ⟨_, List.getElem_mem (l := opcodeRows) (n := 24) (by decide),
    matches_of rfl _ _ 0b01011#5 (b ++ f) (bit_assoc _ _ _) rfl rfl,
    congrArg₂ Instr.btfss (bit_fField _ _ _) (bit_bField _ _ _)⟩

theorem addlw (k : BitVec 8) : Statement (.addlw k) :=
  ⟨_, List.getElem_mem (l := opcodeRows) (n := 25) (by decide),
    matches_of rfl _ _ 0b011100#6 k rfl rfl rfl,
    congrArg Instr.addlw (k8_field _ _)⟩

theorem andlw (k : BitVec 8) : Statement (.andlw k) :=
  ⟨_, List.getElem_mem (l := opcodeRows) (n := 26) (by decide),
    matches_of rfl _ _ 0b011011#6 k rfl rfl rfl,
    congrArg Instr.andlw (k8_field _ _)⟩

theorem call (k : BitVec 12) : Statement (.call k) :=
  ⟨_, List.getElem_mem (l := opcodeRows) (n := 27) (by decide),
    matches_of rfl _ _ 0b10#2 k rfl rfl rfl,
    congrArg Instr.call (k12_field _ _)⟩

theorem clrwdtA : Statement .clrwdtA :=
  ⟨_, List.getElem_mem (l := opcodeRows) (n := 28) (by decide), rfl, rfl⟩

theorem clrwdtB : Statement .clrwdtB :=
  ⟨_, List.getElem_mem (l := opcodeRows) (n := 29) (by decide), rfl, rfl⟩

theorem goto (k : BitVec 12) : Statement (.goto k) :=
  ⟨_, List.getElem_mem (l := opcodeRows) (n := 30) (by decide),
    matches_of rfl _ _ 0b11#2 k rfl rfl rfl,
    congrArg Instr.goto (k12_field _ _)⟩

theorem iorlw (k : BitVec 8) : Statement (.iorlw k) :=
  ⟨_, List.getElem_mem (l := opcodeRows) (n := 31) (by decide),
    matches_of rfl _ _ 0b011010#6 k rfl rfl rfl,
    congrArg Instr.iorlw (k8_field _ _)⟩

theorem movlw (k : BitVec 8) : Statement (.movlw k) :=
  ⟨_, List.getElem_mem (l := opcodeRows) (n := 32) (by decide),
    matches_of rfl _ _ 0b011001#6 k rfl rfl rfl,
    congrArg Instr.movlw (k8_field _ _)⟩

theorem nop : Statement .nop :=
  ⟨_, List.getElem_mem (l := opcodeRows) (n := 33) (by decide), rfl, rfl⟩

theorem ret : Statement .ret :=
  ⟨_, List.getElem_mem (l := opcodeRows) (n := 34) (by decide), rfl, rfl⟩

theorem reti : Statement .reti :=
  ⟨_, List.getElem_mem (l := opcodeRows) (n := 35) (by decide), rfl, rfl⟩

theorem retlw (k : BitVec 8) : Statement (.retlw k) :=
  ⟨_, List.getElem_mem (l := opcodeRows) (n := 36) (by decide),
    matches_of rfl _ _ 0b011000#6 k rfl rfl rfl,
    congrArg Instr.retlw (k8_field _ _)⟩

theorem tblwl : Statement .tblwl :=
  ⟨_, List.getElem_mem (l := opcodeRows) (n := 37) (by decide), rfl, rfl⟩

theorem tblwh : Statement .tblwh :=
  ⟨_, List.getElem_mem (l := opcodeRows) (n := 38) (by decide), rfl, rfl⟩

theorem sleepA : Statement .sleepA :=
  ⟨_, List.getElem_mem (l := opcodeRows) (n := 39) (by decide), rfl, rfl⟩

theorem sleepB : Statement .sleepB :=
  ⟨_, List.getElem_mem (l := opcodeRows) (n := 40) (by decide), rfl, rfl⟩

theorem xorlwA (k : BitVec 8) : Statement (.xorlwA k) :=
  ⟨_, List.getElem_mem (l := opcodeRows) (n := 41) (by decide),
    matches_of rfl _ _ 0b011111#6 k rfl rfl rfl,
    congrArg Instr.xorlwA (k8_field _ _)⟩

theorem xorlwB (k : BitVec 8) : Statement (.xorlwB k) :=
  ⟨_, List.getElem_mem (l := opcodeRows) (n := 42) (by decide),
    matches_of rfl _ _ 0b011101#6 k rfl rfl rfl,
    congrArg Instr.xorlwB (k8_field _ _)⟩

end Sys2Proof.Laws.RowMatch
end

