-- ==== Sys2Proof/Tests/Slice0.lean ====
section
/-! SUPPORT. The author's own tests: the well-formedness checks refuse ill-formed terms, the spec's words decode to the
instructions it names, the spec's vectors (spec/95_test_vectors.md, whose vector names stand in the comments) come out as
it says, and every statement's hypotheses are met by a concrete state. -/

namespace Sys2Proof.Tests

open Sys2Proof.Machine

/-- The part the spec's vectors assume, with set A. -/
def partA : Part := { Config.resetPart with iset := .a }

/-- The vectors' state before an instruction at 010h, set A. -/
def base : State := { State.reset with part := partA, pc := 0x010 }

/-- The same with set B. -/
def baseB : State := { State.reset with pc := 0x010 }

/-- One step with a word at PC. -/
def runWord (s : State) (w : ProgWord) : Out := step { s with rom := Memory.write s.rom s.pc.toNat w }

/-- The step answers a next state of which p holds. -/
def nextWith (o : Out) (p : State → Bool) : Bool :=
  match o with
  | .next t => p t
  | .fault _ => false
  | .refused _ => false

/-- The step stops with this fault. -/
def stopsWith (o : Out) (e : Fault) : Bool :=
  match o with
  | .next _ => false
  | .fault e' => e == e'
  | .refused _ => false

/-- Z, C and DC of a state. -/
def zcd (t : State) : Bool × Bool × Bool := (t.z, t.c, t.dc)

/-- A part with one Special F-plane address, 05h, and one Unimplemented R-plane address, 1Fh. -/
def mapped (p : Part) : Part := { p with fplaneMap := [(0x05, .special)], rplaneMap := [(0x1F, .unimplemented)] }

/-! ### Ill-formed instructions are refused -/

theorem test_wf_refuses_movwrA_nop : Instr.wellFormed .a true (.movwrA 0x00) = false := by decide
theorem test_wf_refuses_movwrA_sleep : Instr.wellFormed .a true (.movwrA 0x03) = false := by decide
theorem test_wf_refuses_movwrA_clrwdt : Instr.wellFormed .a true (.movwrA 0x04) = false := by decide
theorem test_wf_refuses_movwrA_setB : Instr.wellFormed .b true (.movwrA 0x05) = false := by decide
theorem test_wf_refuses_movwrB_sleep : Instr.wellFormed .b true (.movwrB 0x03) = false := by decide
theorem test_wf_refuses_movwrB_clrwdt : Instr.wellFormed .b true (.movwrB 0x04) = false := by decide
theorem test_wf_refuses_movwrB_setA : Instr.wellFormed .a true (.movwrB 0x05) = false := by decide
theorem test_wf_refuses_movrw_setA : Instr.wellFormed .a true (.movrw 0x20) = false := by decide
theorem test_wf_refuses_clrwdtA_setB : Instr.wellFormed .b true (.clrwdtA) = false := by decide
theorem test_wf_refuses_clrwdtB_setA : Instr.wellFormed .a true (.clrwdtB) = false := by decide
theorem test_wf_refuses_sleepA_setB : Instr.wellFormed .b true (.sleepA) = false := by decide
theorem test_wf_refuses_sleepB_setA : Instr.wellFormed .a true (.sleepB) = false := by decide
theorem test_wf_refuses_xorlwA_setB : Instr.wellFormed .b true (.xorlwA 0xAF) = false := by decide
theorem test_wf_refuses_xorlwB_setA : Instr.wellFormed .a true (.xorlwB 0xAF) = false := by decide
theorem test_wf_refuses_tblwl_no_dptr : Instr.wellFormed .a false (.tblwl) = false := by decide
theorem test_wf_refuses_tblwh_no_dptr : Instr.wellFormed .b false (.tblwh) = false := by decide
theorem test_wf_accepts_movwrB_00 : Instr.wellFormed .b true (.movwrB 0x00) = true := by decide
theorem test_assembler_range_movrw :
    Instr.assemblable (.movrw 0x1F) = false ∧ Instr.assemblable (.movrw 0x20) = true := by decide

/-! ### Every constructor's decoding, from the list's OP-Code strings (R71 and each instruction's rule) -/

theorem test_decode_addwf :
    decode .a true 0b00011100100101#14 = .ok (.addwf 0x25 .w)
    ∧ decode .b true 0b00011111011010#14 = .ok (.addwf 0x5A .file) := by decide
theorem test_decode_andwf :
    decode .a true 0b00010100100101#14 = .ok (.andwf 0x25 .w)
    ∧ decode .b true 0b00010111011010#14 = .ok (.andwf 0x5A .file) := by decide
theorem test_decode_comf :
    decode .a true 0b00100100100101#14 = .ok (.comf 0x25 .w)
    ∧ decode .b true 0b00100111011010#14 = .ok (.comf 0x5A .file) := by decide
theorem test_decode_decf :
    decode .a true 0b00001100100101#14 = .ok (.decf 0x25 .w)
    ∧ decode .b true 0b00001111011010#14 = .ok (.decf 0x5A .file) := by decide
theorem test_decode_decfsz :
    decode .a true 0b00101100100101#14 = .ok (.decfsz 0x25 .w)
    ∧ decode .b true 0b00101111011010#14 = .ok (.decfsz 0x5A .file) := by decide
theorem test_decode_incf :
    decode .a true 0b00101000100101#14 = .ok (.incf 0x25 .w)
    ∧ decode .b true 0b00101011011010#14 = .ok (.incf 0x5A .file) := by decide
theorem test_decode_incfsz :
    decode .a true 0b00111100100101#14 = .ok (.incfsz 0x25 .w)
    ∧ decode .b true 0b00111111011010#14 = .ok (.incfsz 0x5A .file) := by decide
theorem test_decode_iorwf :
    decode .a true 0b00010000100101#14 = .ok (.iorwf 0x25 .w)
    ∧ decode .b true 0b00010011011010#14 = .ok (.iorwf 0x5A .file) := by decide
theorem test_decode_rlf :
    decode .a true 0b00110100100101#14 = .ok (.rlf 0x25 .w)
    ∧ decode .b true 0b00110111011010#14 = .ok (.rlf 0x5A .file) := by decide
theorem test_decode_rrf :
    decode .a true 0b00110000100101#14 = .ok (.rrf 0x25 .w)
    ∧ decode .b true 0b00110011011010#14 = .ok (.rrf 0x5A .file) := by decide
theorem test_decode_subwf :
    decode .a true 0b00001000100101#14 = .ok (.subwf 0x25 .w)
    ∧ decode .b true 0b00001011011010#14 = .ok (.subwf 0x5A .file) := by decide
theorem test_decode_swapf :
    decode .a true 0b00111000100101#14 = .ok (.swapf 0x25 .w)
    ∧ decode .b true 0b00111011011010#14 = .ok (.swapf 0x5A .file) := by decide
theorem test_decode_xorwf :
    decode .a true 0b00011000100101#14 = .ok (.xorwf 0x25 .w)
    ∧ decode .b true 0b00011011011010#14 = .ok (.xorwf 0x5A .file) := by decide
theorem test_decode_clrf :
    decode .a true 0b00000110100101#14 = .ok (.clrf 0x25)
    ∧ decode .b true 0b00000111011010#14 = .ok (.clrf 0x5A) := by decide
theorem test_decode_movfw :
    decode .a true 0b00100000100101#14 = .ok (.movfw 0x25)
    ∧ decode .b true 0b00100001011010#14 = .ok (.movfw 0x5A) := by decide
theorem test_decode_movwf :
    decode .a true 0b00000010100101#14 = .ok (.movwf 0x25)
    ∧ decode .b true 0b00000011011010#14 = .ok (.movwf 0x5A) := by decide
theorem test_decode_testz :
    decode .a true 0b00100010100101#14 = .ok (.testz 0x25)
    ∧ decode .b true 0b00100011011010#14 = .ok (.testz 0x5A) := by decide
theorem test_decode_bcf :
    decode .a true 0b01000100010101#14 = .ok (.bcf 0x15 4)
    ∧ decode .b true 0b01000011101010#14 = .ok (.bcf 0x2A 3) := by decide
theorem test_decode_bsf :
    decode .a true 0b01001100010101#14 = .ok (.bsf 0x15 4)
    ∧ decode .b true 0b01001011101010#14 = .ok (.bsf 0x2A 3) := by decide
theorem test_decode_btfsc :
    decode .a true 0b01010100010101#14 = .ok (.btfsc 0x15 4)
    ∧ decode .b true 0b01010011101010#14 = .ok (.btfsc 0x2A 3) := by decide
theorem test_decode_btfss :
    decode .a true 0b01011100010101#14 = .ok (.btfss 0x15 4)
    ∧ decode .b true 0b01011011101010#14 = .ok (.btfss 0x2A 3) := by decide
theorem test_decode_addlw :
    decode .a true 0b01110010010111#14 = .ok (.addlw 0x97)
    ∧ decode .b true 0b01110001101000#14 = .ok (.addlw 0x68) := by decide
theorem test_decode_andlw :
    decode .a true 0b01101110010111#14 = .ok (.andlw 0x97)
    ∧ decode .b true 0b01101101101000#14 = .ok (.andlw 0x68) := by decide
theorem test_decode_iorlw :
    decode .a true 0b01101010010111#14 = .ok (.iorlw 0x97)
    ∧ decode .b true 0b01101001101000#14 = .ok (.iorlw 0x68) := by decide
theorem test_decode_movlw :
    decode .a true 0b01100110010111#14 = .ok (.movlw 0x97)
    ∧ decode .b true 0b01100101101000#14 = .ok (.movlw 0x68) := by decide
theorem test_decode_retlw :
    decode .a true 0b01100010010111#14 = .ok (.retlw 0x97)
    ∧ decode .b true 0b01100001101000#14 = .ok (.retlw 0x68) := by decide
theorem test_decode_call :
    decode .a true 0b10100101110011#14 = .ok (.call 0x973)
    ∧ decode .b true 0b10011010001100#14 = .ok (.call 0x68C) := by decide
theorem test_decode_goto :
    decode .a true 0b11100101110011#14 = .ok (.goto 0x973)
    ∧ decode .b true 0b11011010001100#14 = .ok (.goto 0x68C) := by decide
theorem test_decode_movwrA : decode .a true 0b00000000111110#14 = .ok (.movwrA 0x3E) := by decide
theorem test_decode_movwrB : decode .b true 0b01111010010111#14 = .ok (.movwrB 0x97) := by decide
theorem test_decode_movrw : decode .b true 0b01111110010111#14 = .ok (.movrw 0x97) := by decide
theorem test_decode_xorlwA : decode .a true 0b01111110010111#14 = .ok (.xorlwA 0x97) := by decide
theorem test_decode_xorlwB : decode .b true 0b01110110010111#14 = .ok (.xorlwB 0x97) := by decide
theorem test_decode_clrwdtA : decode .a true 0b00000000000100#14 = .ok .clrwdtA := by decide
theorem test_decode_clrwdtB : decode .b true 0b01111000000100#14 = .ok .clrwdtB := by decide
theorem test_decode_sleepA : decode .a true 0b00000000000011#14 = .ok .sleepA := by decide
theorem test_decode_sleepB : decode .b true 0b01111000000011#14 = .ok .sleepB := by decide
theorem test_decode_clrw :
    decode .a true 0b00000101000000#14 = .ok .clrw ∧ decode .b true 0b00000101000000#14 = .ok .clrw := by decide
theorem test_decode_nop :
    decode .a true 0b00000000000000#14 = .ok .nop ∧ decode .b true 0b00000000000000#14 = .ok .nop := by decide
theorem test_decode_ret :
    decode .a true 0b00000001000000#14 = .ok .ret ∧ decode .b true 0b00000001000000#14 = .ok .ret := by decide
theorem test_decode_reti :
    decode .a true 0b00000001100000#14 = .ok .reti ∧ decode .b true 0b00000001100000#14 = .ok .reti := by decide
theorem test_decode_tblwl :
    decode .a true 0b00000001010000#14 = .ok .tblwl ∧ decode .b true 0b00000001010000#14 = .ok .tblwl := by decide
theorem test_decode_tblwh :
    decode .a true 0b00000001011000#14 = .ok .tblwh ∧ decode .b true 0b00000001011000#14 = .ok .tblwh := by decide

/-- What a word decodes to in the two sets; `none` for an unassigned word. -/
def decodesTo (w : ProgWord) (a b : Option Instr) : Bool :=
  (decode .a true w).toOption == a && (decode .b true w).toOption == b

/-- The decoding table of 95_test_vectors.md section 2.4, part 1. -/
theorem test_decoding_table_1 :
    decodesTo 0x0000 (some .nop) (some .nop)
    && decodesTo 0x0001 (some (.movwrA 1)) none
    && decodesTo 0x0003 (some .sleepA) none
    && decodesTo 0x0004 (some .clrwdtA) none
    && decodesTo 0x0005 (some (.movwrA 5)) none
    && decodesTo 0x003F (some (.movwrA 0x3F)) none
    && decodesTo 0x0041 none none
    && decodesTo 0x0051 none none
    && decodesTo 0x0061 none none
    && decodesTo 0x007F none none
    && decodesTo 0x0080 (some (.movwf 0)) (some (.movwf 0))
    && decodesTo 0x0100 none none
    && decodesTo 0x013F none none
    && decodesTo 0x0141 none none
    && decodesTo 0x017F none none
    && decodesTo 0x0180 (some (.clrf 0)) (some (.clrf 0))
    && decodesTo 0x0800 (some (.movfw 0)) (some (.movfw 0))
    && decodesTo 0x0880 (some (.testz 0)) (some (.testz 0)) := by decide
/-- The decoding table of 95_test_vectors.md section 2.4, part 2. -/
theorem test_decoding_table_2 :
    decodesTo 0x0FFF (some (.incfsz 0x7F .file)) (some (.incfsz 0x7F .file))
    && decodesTo 0x1000 (some (.bcf 0 0)) (some (.bcf 0 0))
    && decodesTo 0x17FF (some (.btfss 0x3F 7)) (some (.btfss 0x3F 7))
    && decodesTo 0x1800 (some (.retlw 0)) (some (.retlw 0))
    && decodesTo 0x1D97 none (some (.xorlwB 0x97))
    && decodesTo 0x1E00 none (some (.movwrB 0))
    && decodesTo 0x1E03 none (some .sleepB)
    && decodesTo 0x1E04 none (some .clrwdtB)
    && decodesTo 0x1E05 none (some (.movwrB 5))
    && decodesTo 0x1EFF none (some (.movwrB 0xFF))
    && decodesTo 0x1F00 (some (.xorlwA 0)) (some (.movrw 0))
    && decodesTo 0x1F20 (some (.xorlwA 0x20)) (some (.movrw 0x20))
    && decodesTo 0x1FFF (some (.xorlwA 0xFF)) (some (.movrw 0xFF))
    && decodesTo 0x2000 (some (.call 0)) (some (.call 0))
    && decodesTo 0x2FFF (some (.call 0xFFF)) (some (.call 0xFFF))
    && decodesTo 0x3000 (some (.goto 0)) (some (.goto 0))
    && decodesTo 0x3FFF (some (.goto 0xFFF)) (some (.goto 0xFFF)) := by decide

/-! ### The vectors, at most two theorems for an instruction -/

/-- S-ADDWF-1, S-ADDWF-2, S-ADDWF-3. -/
theorem test_addwf_source :
    nextWith (runWord { base with w := 0x18, fplane := [(0x25, 0x2E)] } 0x0725)
      (fun t => t.w == 0x46 && t.f 0x25 == 0x2E && zcd t == (false, false, true) && t.pc == 0x011) = true
    ∧ nextWith (runWord { base with w := 0x18, fplane := [(0x25, 0xF7)] } 0x0725)
      (fun t => t.w == 0x0F && t.f 0x25 == 0xF7 && zcd t == (false, true, false) && t.pc == 0x011) = true
    ∧ nextWith (runWord { base with w := 0x18, fplane := [(0x25, 0xE8)] } 0x0725)
      (fun t => t.w == 0x00 && t.f 0x25 == 0xE8 && zcd t == (true, true, true) && t.pc == 0x011) = true := by decide
/-- D-ADDWF-2, D-ADDWF-3. -/
theorem test_addwf_file :
    nextWith (runWord { base with w := 0x0F, fplane := [(0x25, 0x01)] } 0x07A5)
      (fun t => t.w == 0x0F && t.f 0x25 == 0x10 && zcd t == (false, false, true) && t.pc == 0x011) = true
    ∧ nextWith (runWord { base with w := 0x80, fplane := [(0x7F, 0x80)] } 0x07FF)
      (fun t => t.w == 0x80 && t.f 0x7F == 0x00 && zcd t == (true, true, false) && t.pc == 0x011) = true := by decide
/-- S-ANDWF-1, D-ANDWF-1. -/
theorem test_andwf :
    nextWith (runWord { base with w := 0x17, fplane := [(0x25, 0xC2)] } 0x05A5)
      (fun t => t.w == 0x17 && t.f 0x25 == 0x02 && t.z == false && t.pc == 0x011) = true
    ∧ nextWith (runWord { base with w := 0xF0, c := true, dc := true, fplane := [(0x25, 0x0F)] } 0x0525)
      (fun t => t.w == 0x00 && t.f 0x25 == 0x0F && zcd t == (true, true, true) && t.pc == 0x011) = true := by decide
/-- S-CLRF-1, D-CLRF-2. -/
theorem test_clrf :
    nextWith (runWord { base with fplane := [(0x25, 0x5A)] } 0x01A5)
      (fun t => t.f 0x25 == 0x00 && t.z && t.pc == 0x011) = true
    ∧ nextWith (runWord { base with w := 0x12, fplane := [(0x00, 0xFF)] } 0x0180)
      (fun t => t.w == 0x12 && t.f 0x00 == 0x00 && t.z && t.pc == 0x011) = true := by decide
/-- S-CLRW-1. -/
theorem test_clrw :
    nextWith (runWord { base with w := 0x5A } 0x0140)
      (fun t => t.w == 0x00 && t.z && t.pc == 0x011) = true := by decide
/-- S-COMF-1, D-COMF-1. -/
theorem test_comf :
    nextWith (runWord { base with fplane := [(0x25, 0x13)] } 0x0925)
      (fun t => t.w == 0xEC && t.f 0x25 == 0x13 && t.z == false && t.pc == 0x011) = true
    ∧ nextWith (runWord { base with fplane := [(0x25, 0xFF)] } 0x09A5)
      (fun t => t.f 0x25 == 0x00 && t.z && t.pc == 0x011) = true := by decide
/-- S-DECF-1, D-DECF-1. -/
theorem test_decf :
    nextWith (runWord { base with fplane := [(0x25, 0x01)] } 0x03A5)
      (fun t => t.f 0x25 == 0x00 && t.z && t.pc == 0x011) = true
    ∧ nextWith (runWord { base with c := true, fplane := [] } 0x03A5)
      (fun t => t.f 0x25 == 0xFF && t.c && t.z == false && t.pc == 0x011) = true := by decide
/-- D-DECFSZ-1, D-DECFSZ-2, D-DECFSZ-3. -/
theorem test_decfsz :
    nextWith (runWord { base with fplane := [(0x25, 0x01)] } 0x0BA5)
      (fun t => t.f 0x25 == 0x00 && t.z == false && t.pc == 0x012) = true
    ∧ nextWith (runWord { base with fplane := [] } 0x0BA5)
      (fun t => t.f 0x25 == 0xFF && t.pc == 0x011) = true
    ∧ nextWith (runWord { base with w := 0x99, fplane := [(0x25, 0x01)] } 0x0B25)
      (fun t => t.w == 0x00 && t.f 0x25 == 0x01 && t.pc == 0x012) = true := by decide
/-- S-INCF-1, D-INCF-1. -/
theorem test_incf :
    nextWith (runWord { base with fplane := [(0x25, 0xFF)] } 0x0AA5)
      (fun t => t.f 0x25 == 0x00 && t.z && t.pc == 0x011) = true
    ∧ nextWith (runWord { base with w := 0x33, fplane := [(0x25, 0xFF)] } 0x0A25)
      (fun t => t.w == 0x00 && t.f 0x25 == 0xFF && zcd t == (true, false, false) && t.pc == 0x011) = true := by decide
/-- D-INCFSZ-1, D-INCFSZ-2, D-INCFSZ-3. -/
theorem test_incfsz :
    nextWith (runWord { base with fplane := [(0x25, 0xFF)] } 0x0FA5)
      (fun t => t.f 0x25 == 0x00 && t.pc == 0x012) = true
    ∧ nextWith (runWord { base with fplane := [] } 0x0FA5)
      (fun t => t.f 0x25 == 0x01 && t.pc == 0x011) = true
    ∧ nextWith (runWord { base with w := 0x44, fplane := [(0x25, 0xFF)] } 0x0F25)
      (fun t => t.w == 0x00 && t.f 0x25 == 0xFF && t.pc == 0x012) = true := by decide
/-- S-IORWF-1, D-IORWF-2. -/
theorem test_iorwf :
    nextWith (runWord { base with w := 0x91, fplane := [(0x25, 0x13)] } 0x0425)
      (fun t => t.w == 0x93 && t.f 0x25 == 0x13 && t.z == false && t.pc == 0x011) = true
    ∧ nextWith (runWord { base with w := 0x0F, fplane := [(0x25, 0xF0)] } 0x04A5)
      (fun t => t.w == 0x0F && t.f 0x25 == 0xFF && t.z == false && t.pc == 0x011) = true := by decide
/-- S-MOVFW-1, D-MOVFW-1. -/
theorem test_movfw :
    nextWith (runWord { base with fplane := [(0x25, 0xC2)] } 0x0825)
      (fun t => t.w == 0xC2 && t.f 0x25 == 0xC2 && t.pc == 0x011) = true
    ∧ nextWith (runWord { base with w := 0x01, fplane := [] } 0x0825)
      (fun t => t.w == 0x00 && t.z == false && t.pc == 0x011) = true := by decide
/-- S-MOVWF-1, D-MOVWF-1. -/
theorem test_movwf :
    nextWith (runWord { base with w := 0x4F, fplane := [(0x25, 0xFF)] } 0x00A5)
      (fun t => t.w == 0x4F && t.f 0x25 == 0x4F && t.pc == 0x011) = true
    ∧ nextWith (runWord { base with w := 0x3C } 0x00FF)
      (fun t => t.w == 0x3C && t.f 0x7F == 0x3C && t.pc == 0x011) = true := by decide
/-- D-MOVWR-1, D-MOVWR-2. -/
theorem test_movwrA :
    nextWith (runWord { base with w := 0x81 } 0x003F)
      (fun t => t.w == 0x81 && t.r 0x3F == 0x81 && t.f 0x3F == 0x00 && t.pc == 0x011) = true
    ∧ nextWith (runWord { base with w := 0x81 } 0x0001)
      (fun t => t.r 0x01 == 0x81 && t.pc == 0x011) = true := by decide
/-- D-MOVWR-3, D-MOVWR-4. -/
theorem test_movwrB :
    nextWith (runWord { baseB with w := 0x81 } 0x1EFF)
      (fun t => t.w == 0x81 && t.r 0xFF == 0x81 && t.pc == 0x011) = true
    ∧ nextWith (runWord { baseB with w := 0x81 } 0x1E00)
      (fun t => t.r 0x00 == 0x81 && t.f 0x00 == 0x00 && t.pc == 0x011) = true := by decide
/-- S-RLF-1, D-RLF-1, D-RLF-2. -/
theorem test_rlf :
    nextWith (runWord { base with w := 0x02, fplane := [(0x25, 0xE6)] } 0x0D25)
      (fun t => t.w == 0xCC && t.f 0x25 == 0xE6 && t.c && t.pc == 0x011) = true
    ∧ nextWith (runWord { base with fplane := [(0x25, 0x80)] } 0x0DA5)
      (fun t => t.f 0x25 == 0x00 && zcd t == (false, true, false) && t.pc == 0x011) = true
    ∧ nextWith (runWord { base with w := 0xEE, c := true } 0x0D25)
      (fun t => t.w == 0x01 && t.c == false && t.pc == 0x011) = true := by decide
/-- S-RRF-1, D-RRF-2, D-RRF-3. -/
theorem test_rrf :
    nextWith (runWord { base with w := 0x02, fplane := [(0x25, 0xE7)] } 0x0CA5)
      (fun t => t.w == 0x02 && t.f 0x25 == 0x73 && t.c && t.pc == 0x011) = true
    ∧ nextWith (runWord { base with w := 0xEE, c := true } 0x0C25)
      (fun t => t.w == 0x80 && t.f 0x25 == 0x00 && t.c == false && t.pc == 0x011) = true
    ∧ nextWith (runWord { base with c := true, fplane := [(0x25, 0xFE)] } 0x0CA5)
      (fun t => t.f 0x25 == 0xFF && t.c == false && t.pc == 0x011) = true := by decide
/-- S-SUBWF-1, S-SUBWF-2, S-SUBWF-3. -/
theorem test_subwf_source :
    nextWith (runWord { base with w := 0x02, fplane := [(0x25, 0x03)] } 0x02A5)
      (fun t => t.w == 0x02 && t.f 0x25 == 0x01 && zcd t == (false, true, true) && t.pc == 0x011) = true
    ∧ nextWith (runWord { base with w := 0x02, fplane := [(0x25, 0x02)] } 0x02A5)
      (fun t => t.w == 0x02 && t.f 0x25 == 0x00 && zcd t == (true, true, true) && t.pc == 0x011) = true
    ∧ nextWith (runWord { base with w := 0x02, fplane := [(0x25, 0x01)] } 0x02A5)
      (fun t => t.w == 0x02 && t.f 0x25 == 0xFF && zcd t == (false, false, false) && t.pc == 0x011) = true := by decide
/-- D-SUBWF-3, D-SUBWF-4, D-SUBWF-6. -/
theorem test_subwf_borrows :
    nextWith (runWord { base with w := 0x01, fplane := [(0x25, 0x10)] } 0x02A5)
      (fun t => t.w == 0x01 && t.f 0x25 == 0x0F && zcd t == (false, true, false) && t.pc == 0x011) = true
    ∧ nextWith (runWord { base with w := 0x10, fplane := [(0x25, 0x0F)] } 0x02A5)
      (fun t => t.f 0x25 == 0xFF && zcd t == (false, false, true) && t.pc == 0x011) = true
    ∧ nextWith (runWord { base with w := 0x80, fplane := [(0x25, 0x7F)] } 0x0225)
      (fun t => t.w == 0xFF && t.f 0x25 == 0x7F && zcd t == (false, false, true) && t.pc == 0x011) = true := by decide
/-- S-MOVRW-1 at r = 20h, D-MOVRW-2. -/
theorem test_movrw :
    nextWith (runWord { baseB with rplane := [(0x20, 0x4F)] } 0x1F20)
      (fun t => t.w == 0x4F && t.r 0x20 == 0x4F && t.pc == 0x011) = true
    ∧ nextWith (runWord { baseB with w := 0x01 } 0x1FFF)
      (fun t => t.w == 0x00 && t.z == false && t.pc == 0x011) = true := by decide
/-- D-MOVRW-3: an r below 20h runs by the map. -/
theorem test_movrw_below_20h : stopsWith (runWord { baseB with part := mapped baseB.part } 0x1F1F)
      (.registerNotModelled .r 0x1F .read) = true := by decide
/-- S-SWAPF-1, D-SWAPF-2. -/
theorem test_swapf :
    nextWith (runWord { base with w := 0xFF, fplane := [(0x25, 0xA5)] } 0x0E25)
      (fun t => t.w == 0x5A && t.f 0x25 == 0xA5 && t.pc == 0x011) = true
    ∧ nextWith (runWord { base with w := 0x11 } 0x0E25)
      (fun t => t.w == 0x00 && t.z == false && t.pc == 0x011) = true := by decide
/-- D-TESTZ-1, D-TESTZ-2. -/
theorem test_testz :
    nextWith (runWord { base with w := 0x5A } 0x08A5)
      (fun t => t.w == 0x5A && t.f 0x25 == 0x00 && t.z && t.pc == 0x011) = true
    ∧ nextWith (runWord { base with z := true, fplane := [(0x25, 0x01)] } 0x08A5)
      (fun t => t.f 0x25 == 0x01 && t.z == false && t.pc == 0x011) = true := by decide
/-- S-XORWF-1, D-XORWF-1. -/
theorem test_xorwf :
    nextWith (runWord { base with w := 0xB5, fplane := [(0x25, 0xAF)] } 0x06A5)
      (fun t => t.w == 0xB5 && t.f 0x25 == 0x1A && t.z == false && t.pc == 0x011) = true
    ∧ nextWith (runWord { base with w := 0xFF, fplane := [(0x25, 0xFF)] } 0x0625)
      (fun t => t.w == 0x00 && t.f 0x25 == 0xFF && t.z && t.pc == 0x011) = true := by decide
/-- S-BCF-1, D-BCF-1. -/
theorem test_bcf :
    nextWith (runWord { base with fplane := [(0x25, 0xC7)] } 0x11E5)
      (fun t => t.f 0x25 == 0x47 && t.pc == 0x011) = true
    ∧ nextWith (runWord { base with fplane := [(0x3F, 0xFF)] } 0x103F)
      (fun t => t.f 0x3F == 0xFE && t.pc == 0x011) = true := by decide
/-- S-BSF-1, D-BSF-3. -/
theorem test_bsf :
    nextWith (runWord { base with fplane := [(0x25, 0x0A)] } 0x13E5)
      (fun t => t.f 0x25 == 0x8A && t.pc == 0x011) = true
    ∧ nextWith (runWord { base with fplane := [(0x15, 0xA5)] } 0x1315)
      (fun t => t.f 0x15 == 0xB5 && t.pc == 0x011) = true := by decide
/-- D-BTFSC-1, D-BTFSC-2. -/
theorem test_btfsc :
    nextWith (runWord { base with fplane := [(0x20, 0x01)] } 0x1420)
      (fun t => t.f 0x20 == 0x01 && t.pc == 0x011) = true
    ∧ nextWith (runWord { base with fplane := [(0x20, 0xFE)] } 0x1420)
      (fun t => t.f 0x20 == 0xFE && t.pc == 0x012) = true := by decide
/-- D-BTFSS-1, D-BTFSS-2, D-BTFSS-4. -/
theorem test_btfss :
    nextWith (runWord { base with fplane := [(0x3F, 0x80)] } 0x17FF)
      (fun t => t.pc == 0x012) = true
    ∧ nextWith (runWord { base with fplane := [(0x3F, 0x7F)] } 0x17FF)
      (fun t => t.pc == 0x011) = true
    ∧ nextWith (runWord { base with pc := 0xFFF, fplane := [(0x20, 0x08)] } 0x16E0)
      (fun t => t.pc == 0x001) = true := by decide
/-- D-SKIP-1: an unassigned word at 011h. -/
theorem test_skip_does_not_read_the_skipped_word :
    nextWith (runWord { base with rom := [(0x011, 0x0041)], fplane := [(0x20, 0x08)] } 0x16E0)
      (fun t => t.pc == 0x012) = true := by decide
/-- S-ADDLW-3, D-ADDLW-2, D-ADDLW-3. -/
theorem test_addlw :
    nextWith (runWord { base with w := 0xE8 } 0x1C18)
      (fun t => t.w == 0x00 && zcd t == (true, true, true) && t.pc == 0x011) = true
    ∧ nextWith (runWord { base with c := true, dc := true } 0x1C00)
      (fun t => t.w == 0x00 && zcd t == (true, false, false) && t.pc == 0x011) = true
    ∧ nextWith (runWord { base with w := 0x7F } 0x1C01)
      (fun t => t.w == 0x80 && zcd t == (false, false, true) && t.pc == 0x011) = true := by decide
/-- S-ANDLW-1, D-ANDLW-2. -/
theorem test_andlw :
    nextWith (runWord { base with w := 0xA3 } 0x1B5F)
      (fun t => t.w == 0x03 && t.z == false && t.pc == 0x011) = true
    ∧ nextWith (runWord { base with w := 0x80, c := true } 0x1BFF)
      (fun t => t.w == 0x80 && zcd t == (false, true, false) && t.pc == 0x011) = true := by decide
/-- D-CALL-2, D-CALL-4. -/
theorem test_call :
    nextWith (runWord { base with pc := 0xFFF, stk := [0x055] } 0x2123)
      (fun t => t.stk == [0x000, 0x055] && t.pc == 0x123) = true
    ∧ nextWith (runWord base 0x2010)
      (fun t => t.stk == [0x011] && t.pc == 0x010) = true := by decide
/-- D-CALL-5, D-CALL-6: PCW = 13. -/
theorem test_call_pcw13 :
    nextWith (runWord { base with part := { partA with pcw := .w13, romSize := 0x2000 }, pc := 0x1FFF } 0x2000)
      (fun t => t.stk == [0x0000] && t.pc == 0x1000) = true
    ∧ nextWith (runWord { base with part := { partA with pcw := .w13, romSize := 0x2000 }, pc := 0x0FFF } 0x2800)
      (fun t => t.stk == [0x1000] && t.pc == 0x0800) = true := by decide
/-- D-CLRWDT-1. -/
theorem test_clrwdtA :
    nextWith (runWord { base with toFlag := true, pdFlag := true, wdt := 7 } 0x0004)
      (fun t => t.wdt == 0 && t.toFlag == false && t.pdFlag == false && t.pc == 0x011) = true := by decide
/-- D-CLRWDT-2. -/
theorem test_clrwdtB :
    nextWith (runWord { baseB with toFlag := true, pdFlag := true, wdt := 7 } 0x1E04)
      (fun t => t.wdt == 0 && t.toFlag == false && t.pdFlag == false && t.pc == 0x011) = true := by decide
/-- D-GOTO-1, D-GOTO-3 (PCW = 13). -/
theorem test_goto :
    nextWith (runWord { base with stk := [0x055] } 0x3000)
      (fun t => t.stk == [0x055] && t.pc == 0x000) = true
    ∧ nextWith (runWord { base with part := { partA with pcw := .w13, romSize := 0x2000 }, pc := 0x1ABC } 0x3234)
      (fun t => t.pc == 0x1234) = true := by decide
/-- S-IORLW-1, D-IORLW-1. -/
theorem test_iorlw :
    nextWith (runWord { base with w := 0x9A } 0x1A35)
      (fun t => t.w == 0xBF && t.z == false && t.pc == 0x011) = true
    ∧ nextWith (runWord base 0x1A00)
      (fun t => t.w == 0x00 && t.z && t.pc == 0x011) = true := by decide
/-- S-MOVLW-1, D-MOVLW-1. -/
theorem test_movlw :
    nextWith (runWord base 0x195A)
      (fun t => t.w == 0x5A && t.pc == 0x011) = true
    ∧ nextWith (runWord { base with w := 0x12 } 0x1900)
      (fun t => t.w == 0x00 && t.z == false && t.pc == 0x011) = true := by decide
/-- D-NOP-1, D-NOP-2. -/
theorem test_nop :
    nextWith (runWord { base with w := 0x12, z := true } 0x0000)
      (fun t => t.w == 0x12 && zcd t == (true, false, false) && t.pc == 0x011) = true
    ∧ nextWith (runWord { base with pc := 0xFFF } 0x0000)
      (fun t => t.pc == 0x000) = true := by decide
/-- D-RET-1, D-RET-3 (PCW = 13). -/
theorem test_ret :
    nextWith (runWord { base with stk := [0x123, 0x055] } 0x0040)
      (fun t => t.stk == [0x055] && t.pc == 0x123) = true
    ∧ nextWith (runWord { base with part := { partA with pcw := .w13, romSize := 0x2000 }, pc := 0x0005, stk := [0x1234] } 0x0040)
      (fun t => t.pc == 0x1234) = true := by decide
/-- D-RETI-1. -/
theorem test_reti :
    nextWith (runWord { base with stk := [0x123] } 0x0060)
      (fun t => t.stk == [] && t.gie && t.pc == 0x123) = true := by decide
/-- S-RETLW-1 and D-RETLW-1. -/
theorem test_retlw :
    nextWith (runWord { base with stk := [0x123], w := 0x41 } 0x1808)
      (fun t => t.w == 0x08 && t.pc == 0x123) = true
    ∧ nextWith (runWord { base with stk := [0x000], z := true } 0x18FF)
      (fun t => t.w == 0xFF && t.stk == [] && t.z && t.pc == 0x000) = true := by decide
/-- D-TBLWL-1, D-TBLWL-3 (reads its own word). -/
theorem test_tblwl :
    nextWith (runWord { base with rom := [(0x100, 0x3FFF)], fplane := [(0x2E, 0x01)] } 0x0050)
      (fun t => t.w == 0xFF && t.pc == 0x011) = true
    ∧ nextWith (runWord { base with fplane := [(0x2F, 0x10)] } 0x0050)
      (fun t => t.w == 0x50 && t.pc == 0x011) = true := by decide
/-- D-TBLWH-1, D-TBLWH-3 (DPH bits above DPTR_MSB - 8 are ignored). -/
theorem test_tblwh :
    nextWith (runWord { base with rom := [(0x100, 0x3FFF)], fplane := [(0x2E, 0x01)] } 0x0058)
      (fun t => t.w == 0x3F && t.pc == 0x011) = true
    ∧ nextWith (runWord { base with rom := [(0x101, 0x2A34)], fplane := [(0x2E, 0xF1), (0x2F, 0x01)] } 0x0058)
      (fun t => t.w == 0x2A && t.pc == 0x011) = true := by decide
/-- D-SLEEP-1: WDT is not written. -/
theorem test_sleepA :
    nextWith (runWord { base with toFlag := true, wdt := 7 } 0x0003)
      (fun t => t.toFlag == false && t.pdFlag && t.mode == .sleep && t.wdt == 7 && t.pc == 0x011) = true := by decide
/-- D-SLEEP-2. -/
theorem test_sleepB :
    nextWith (runWord { baseB with toFlag := true } 0x1E03)
      (fun t => t.toFlag == false && t.pdFlag && t.mode == .sleep && t.pc == 0x011) = true := by decide
/-- S-XORLW-1, D-XORLW-1. -/
theorem test_xorlwA :
    nextWith (runWord { base with w := 0xB5 } 0x1FAF)
      (fun t => t.w == 0x1A && t.z == false && t.pc == 0x011) = true
    ∧ nextWith (runWord { base with w := 0xFF } 0x1FFF)
      (fun t => t.w == 0x00 && t.z && t.pc == 0x011) = true := by decide
/-- S-XORLW-1, D-XORLW-2. -/
theorem test_xorlwB :
    nextWith (runWord { baseB with w := 0xB5 } 0x1DAF)
      (fun t => t.w == 0x1A && t.z == false && t.pc == 0x011) = true
    ∧ nextWith (runWord { baseB with w := 0xFF } 0x1DFF)
      (fun t => t.w == 0x00 && t.z && t.pc == 0x011) = true := by decide

/-! ### Faults -/

/-- D-MOVWF-3. -/
theorem test_fault_register :
    stopsWith (runWord { base with part := mapped partA, w := 0x3C } 0x0085)
      (.registerNotModelled .f 0x05 .write) = true := by decide
/-- D-CALL-3. -/
theorem test_fault_stack_full :
    stopsWith (runWord { base with stk := [0x055, 0x066] } 0x2123)
      (.stackOverflow 0x010) = true := by decide
/-- D-RET-2. -/
theorem test_fault_stack_empty :
    stopsWith (runWord base 0x0040)
      (.stackUnderflow 0x010) = true := by decide
/-- D-TBLWL-4. -/
theorem test_fault_table_read :
    stopsWith (runWord { base with part := { partA with romSize := 0x400 }, fplane := [(0x2E, 0x04)] } 0x0050)
      (.romReadOutOfRange 0x400) = true := by decide
/-- D-TBLWL-5. -/
theorem test_fault_no_dptr :
    stopsWith (runWord { base with part := { partA with hasDptr := false } } 0x0050)
      (.illegalInstruction 0x010 0x0050) = true := by decide
/-- Program 4 under set A. -/
theorem test_fault_set_B_word_in_set_A :
    stopsWith (runWord base 0x1E40)
      (.illegalInstruction 0x010 0x1E40) = true := by decide
/-- A fetch at ROM_SIZE (R52). -/
theorem test_fault_fetch :
    stopsWith (runWord { base with part := { partA with romSize := 0x010 } } 0x0000)
      (.fetchOutOfRange 0x010) = true := by decide

/-! ### Events -/

/-- A boundary with an interrupt request, a reset, a watchdog event, a wake-up. -/
def irqIn : Input := { Input.quiet with irq := true }
def resetIn : Input := { Input.quiet with reset := true }
def dogIn : Input := { Input.quiet with watchdog := true }
def wakeIn : Input := { Input.quiet with wake := true }

/-- A state with an interrupt request at the next boundary. -/
def requested : State := { base with pc := 0x006, gie := true, env := [irqIn], w := 0x12, z := true }
/-- A sleeping state, SLEEP having stood at 010h. -/
def asleep : State := { base with pc := 0x011, mode := .sleep, pdFlag := true }

/-- D-IRQ-1. -/
theorem test_interrupt_entry : nextWith (step requested)
    (fun t => t.stk == [0x006] && !t.gie && t.pc == 0x001 && t.w == 0x12 && t.z && t.env == []) = true := by decide
/-- D-IRQ-2: with GIE = 0 the instruction at 006h runs. -/
theorem test_request_with_gie_clear : nextWith (step { requested with gie := false })
    (fun t => t.stk == [] && t.pc == 0x007) = true := by decide
/-- D-IRQ-3. -/
theorem test_interrupt_entry_stack_full :
    stopsWith (step { requested with stk := [0x003, 0x001] }) (.stackOverflow 0x006) = true := by decide
/-- D-IRQ-4: after a taken skip the return address is the skip's target. -/
theorem test_interrupt_after_skip : nextWith (step { requested with pc := 0x012 })
    (fun t => t.stk == [0x012] && t.pc == 0x001) = true := by decide
/-- D-WAKE-1. -/
theorem test_wake_up : nextWith (step { asleep with env := [wakeIn] })
    (fun t => t.mode == .run && t.pc == 0x011 && !t.toFlag && t.pdFlag) = true := by decide
/-- R194: asleep and without an event the state stays. -/
theorem test_asleep : nextWith (step { asleep with env := [irqIn] }) (fun t => t == asleep) = true := by decide
/-- D-RESET-1, with GIE_RESET = 0. -/
theorem test_reset_event :
    nextWith (step { requested with
        part := { partA with gieReset := some false }, stk := [0x003], mode := .sleep, env := [resetIn] })
      (fun t => t.pc == 0x000 && t.stk == [] && t.mode == .run && !t.gie) = true := by decide
/-- D-WDT-1. -/
theorem test_watchdog_event : nextWith (step { asleep with env := [dogIn] })
    (fun t => t.pc == 0x000 && t.stk == [] && t.mode == .run) = true := by decide
/-- A part without WDT_ENABLED has no watchdog event (R192). -/
theorem test_watchdog_disabled :
    nextWith (step { asleep with part := { partA with wdtEnabled := false }, env := [dogIn] })
      (fun t => t.mode == .sleep && t.pc == 0x011) = true := by decide

/-! ### Cycles (R214), the assembler (R83 to R86), the host's placing of a word -/

/-- Cycle counts of skips and of a table read. -/
theorem test_cycles : cycles (.btfsc 0x20 0) base = 2 ∧ cycles (.btfss 0x20 0) base = 1
    ∧ cycles (.decfsz 0x20 .w) { base with fplane := [(0x20, 1)] } = 2 ∧ cycles .tblwl base = 2 := by decide

/-- The register symbols of S-TBL. -/
def dpSymbols : Symbols := [("DPH".toList, 0x2E), ("DPL".toList, 0x2F)]

/-- S-TBL: the listing and the words the spec gives for it (1C97h for ADDLW 97H, 90_conflicts.md C7). -/
theorem test_assemble_table_example :
    assemble { partA with pcw := .w13, romSize := 0x2000 } dpSymbols
      ["  MOVLW   12H".toList, "  MOVWF   DPH        ; Where DPH is F-plane register".toList, "  MOVLW   34H".toList,
        "  MOVWF   DPL".toList, "  TBLWL              ; W=0x86".toList, "  TBLWH".toList, "".toList,
        "  ORG 1234H".toList, "  MOVLW   86H".toList, "  ADDLW   97H".toList]
      = .ok [(0, 0x1912), (1, 0x00AE), (2, 0x1934), (3, 0x00AF), (4, 0x0050), (5, 0x0058), (0x1234, 0x1986),
        (0x1235, 0x1C97)] := by decide
/-- The skip example of DECFSZ, its labels with and without a colon. -/
theorem test_assemble_labels :
    assemble partA [("CNT".toList, 0x25)]
      ["LABEL1 DECFSZ CNT, 1".toList, "LABEL2: GOTO LABEL4".toList, "LABEL3: NOP".toList, "LABEL4: RET".toList]
      = .ok [(0, 0x0BA5), (1, 0x3003), (3, 0x0040)] := by decide
/-- R84: an omitted d is refused. R86: MOVRW's range, and MOVRW in set A. -/
theorem test_assembler_refuses :
    assembleInstr .a true "ADDWF".toList [0x25] = .error (.operandCount "ADDWF".toList)
    ∧ assembleInstr .b true "MOVRW".toList [0x1F] = .error (.operandRange "MOVRW".toList)
    ∧ assembleInstr .a true "MOVRW".toList [0x20] = .error (.notOnPart "MOVRW".toList)
    ∧ assembleInstr .a true "BCF".toList [0x40, 0] = .error (.operandRange "BCF".toList)
    ∧ assembleInstr .a false "TBLWL".toList [] = .error (.notOnPart "TBLWL".toList) := by decide

/-- The host's reading of a row's bits: a common row, a row of each set, a word that is none. -/
theorem test_decode_table_word :
    decodeTableWord 16 0x0725 = some (.addwf 0x25 .w) ∧ decodeTableWord 16 0x0005 = some (.movwrA 0x05)
    ∧ decodeTableWord 16 0x1E05 = some (.movwrB 0x05) ∧ decodeTableWord 16 0x0050 = some .tblwl
    ∧ decodeTableWord 16 0x0041 = none ∧ decodeTableWord 16 0x4000 = none := by decide
/-- The placed word is the next step's instruction, a word of set A and of set B, from the reset state. -/
theorem test_with_fetch_word :
    nextWith (step (State.reset.withFetchWord 16 0x0003)) (fun t => t.mode == .sleep && t.part.iset == .a) = true
    ∧ nextWith (step (State.reset.withFetchWord 16 0x195A)) (fun t => t.w == 0x5A && t.part.iset == .b) = true := by
  decide


/-! ### States that meet the statements' hypotheses -/

/-- A part with Special addresses, of which 05h is one and DPH_ADDR is another: that one is storage all the same. -/
def special : State :=
  { base with
    part := { partA with fplaneMap := [(0x05, .special), (0x2E, .special)], rplaneMap := [(0x1F, .unimplemented)] } }

theorem witness_DecodeOfEncodeIsIdentity :
    Instr.wellFormed .a true (.movwrA 0x3F) = true ∧ Instr.wellFormed .b true (.movwrB 0x00) = true
    ∧ Instr.wellFormed .b false (.movrw 0x00) = true ∧ Instr.wellFormed .a true .tblwh = true := by decide
theorem witness_EncodeOfDecodeIsIdentity :
    decode .b true 0x1EFF = .ok (.movwrB 0xFF) ∧ decode .a false 0x3FFF = .ok (.goto 0xFFF) := by decide
theorem witness_AddwfAddsWAndFile :
    base.fClass 0x00 = .plain ∧ base.fClass 0x7F = .plain ∧ special.fClass 0x2E = .plain := by decide
theorem witness_SubwfSubtractsWFromFile :
    base.fClass 0x00 = .plain ∧ base.fClass 0x7F = .plain ∧ special.fClass 0x2E = .plain := by decide
theorem witness_LogicOfWAndFile :
    base.fClass 0x00 = .plain ∧ base.fClass 0x7F = .plain ∧ special.fClass 0x2E = .plain := by decide
theorem witness_ComfInvertsEveryBit :
    base.fClass 0x00 = .plain ∧ base.fClass 0x7F = .plain ∧ special.fClass 0x2E = .plain := by decide
theorem witness_IncfAndDecfCountModulo256 :
    base.fClass 0x00 = .plain ∧ base.fClass 0x7F = .plain ∧ special.fClass 0x2E = .plain := by decide
theorem witness_ClrfAndClrwClearAndSetZ :
    base.fClass 0x00 = .plain ∧ base.fClass 0x7F = .plain ∧ special.fClass 0x2E = .plain := by decide
theorem witness_MovfwAndMovwfCopy :
    base.fClass 0x00 = .plain ∧ base.fClass 0x7F = .plain ∧ special.fClass 0x2E = .plain := by decide
theorem witness_RotatesGoThroughCarry :
    base.fClass 0x00 = .plain ∧ base.fClass 0x7F = .plain ∧ special.fClass 0x2E = .plain := by decide
theorem witness_SwapfExchangesNibbles :
    base.fClass 0x00 = .plain ∧ base.fClass 0x7F = .plain ∧ special.fClass 0x2E = .plain := by decide
theorem witness_NineRotationsRestore :
    base.fClass 0x00 = .plain ∧ base.fClass 0x7F = .plain ∧ special.fClass 0x2E = .plain := by decide
theorem witness_RotatesAndSwapsAreUndone :
    base.fClass 0x00 = .plain ∧ base.fClass 0x7F = .plain ∧ special.fClass 0x2E = .plain := by decide
theorem witness_IncfszAndDecfszSkipOnZero :
    base.fClass 0x7F = .plain ∧ base.f 0x7F ≠ 0xFF ∧ base.f 0x7F ≠ 0x01
    ∧ State.f { base with fplane := [(0x7F, 0xFF)] } 0x7F = 0xFF ∧ State.f { base with fplane := [(0x7F, 0x01)] } 0x7F = 0x01 := by decide
theorem witness_MovwrWritesRPlane :
    base.rClass ((0x3F : BitVec 6).zeroExtend 8) = .plain ∧ base.rClass 0xFF = .plain ∧ base.rClass 0x00 = .plain := by decide
theorem witness_MovrwReadsRPlane :
    base.rClass 0x00 = .plain ∧ base.rClass 0x1F = .plain ∧ base.rClass 0x20 = .plain ∧ base.rClass 0xFF = .plain := by decide
theorem witness_TestzWritesZOnly :
    base.fClass 0x7F = .plain ∧ base.f 0x7F = 0 ∧ State.f { base with fplane := [(0x7F, 0x01)] } 0x7F ≠ 0 := by decide
theorem witness_BcfAndBsfWriteOneBit :
    base.fClass (bitAddr 0x00) = .plain ∧ base.fClass (bitAddr 0x3F) = .plain := by decide
theorem witness_BtfscAndBtfssSkipOnTheBit :
    base.fClass (bitAddr 0x3F) = .plain ∧ (base.f (bitAddr 0x3F)).getLsbD 7 = false
    ∧ (State.f { base with fplane := [(0x3F, 0x80)] } (bitAddr 0x3F)).getLsbD 7 = true := by decide
theorem witness_CallAndGotoLoadPc :
    base.stk.length < base.part.stackDepth ∧ base.part.pcw = .w12
    ∧ base.part.pcHighOnJump.lookup (base.pc, 0xFFF) = none
    ∧ ({ partA with pcw := .w16, pcHighOnJump := [((0x010, 0xFFF), 0xF)] } : Part).pcHighOnJump.lookup (base.pc, 0xFFF) = some 0xF := by decide
theorem witness_ReturnsPopIntoPc : State.stk { base with stk := [0x123, 0x055] } = 0x123 :: [0x055] := by decide
theorem witness_TableReadsGiveTheBytesOfTheWord :
    base.tableAddr.toNat < base.part.romSize
    ∧ (State.tableAddr { base with fplane := [(0x2E, 0xFF), (0x2F, 0xFF)] }).toNat = 0xFFF := by decide
theorem witness_FlagsAreWrittenOnlyAsListed :
    nextWith (exec .nop base) (fun _ => true) = true ∧ Instr.writesZ (.movlw 0) = false ∧ Instr.writesC .clrw = false
    ∧ Instr.writesDc (.rlf 0 .w) = false := by decide
theorem witness_SystemStateIsWrittenOnlyAsListed :
    nextWith (exec .ret { base with stk := [0] }) (fun _ => true) = true ∧ Instr.ret ≠ .reti ∧ Instr.isClrwdt .ret = false
    ∧ Instr.isSleep .ret = false := by decide
theorem witness_RegistersAreWrittenOnlyAtTheDestination :
    nextWith (exec (.addwf 0x25 .file) base) (fun _ => true) = true ∧ Instr.fStored (.addwf 0x25 .file) ≠ some 0x26
    ∧ Instr.rStored (.addwf 0x25 .file) ≠ some 0x25 ∧ Instr.writesW (.addwf 0x25 .file) = false
    ∧ Instr.usesStack (.addwf 0x25 .file) = false := by decide
theorem witness_UndescribedAccessesFault :
    Instr.fOperand (.clrf 0x05) = some 0x05 ∧ special.fClass 0x05 ≠ .plain ∧ Instr.rOperand (.movrw 0x1F) = some 0x1F
    ∧ special.rClass 0x1F ≠ .plain ∧ base.part.stackDepth ≤ (State.stk { base with stk := [1, 2] }).length ∧ base.stk = []
    ∧ Instr.isTableRead .tblwl = true
    ∧ 0x400 ≤ (State.tableAddr { base with part := { partA with romSize := 0x400 }, fplane := [(0x2E, 0x04)] }).toNat := by decide
theorem witness_UnreadStateDoesNotInterfere :
    base.visible = State.visible { base with z := true, dc := true, toFlag := true, pdFlag := true, gie := true, wdt := 9 } := by decide
theorem witness_OnlyTableReadsReadProgramMemory : Instr.isTableRead (.btfss 0x20 3) = false := by decide
theorem witness_PcGoesOnByOneOrSkips :
    Instr.isTransfer (.btfsc 0x20 3) = false ∧ nextWith (exec (.btfsc 0x20 3) base) (fun _ => true) = true
    ∧ Instr.isTableRead (.btfsc 0x20 3) = false ∧ Instr.isTransfer .tblwl = false ∧ Instr.isTableRead .tblwl = true
    ∧ nextWith (exec .tblwl base) (fun _ => true) = true := by decide
theorem witness_StepRunsTheDecodedInstruction :
    base.mode = .run ∧ base.input.reset = false ∧ (base.input.watchdog && base.part.wdtEnabled) = false
    ∧ (base.gie && base.input.irq) = false ∧ base.pc.toNat < base.part.romSize
    ∧ decode base.part.iset base.part.hasDptr (base.romWord base.pc) = .ok .nop ∧ base.input.wdtCount = none
    ∧ (State.input { base with env := [{ Input.quiet with wdtCount := some 0x1FF }] }).wdtCount = some 0x1FF := by decide
theorem witness_PlacedWordIsTheNextInstruction :
    0x3FFF < 2 ^ 14
    ∧ decode (setFor .b (BitVec.ofNat 14 0x0003)) true (BitVec.ofNat 14 0x0003) = .ok .sleepA
    ∧ decode (setFor .b (BitVec.ofNat 14 0x3FFF)) true (BitVec.ofNat 14 0x3FFF) = .ok (.goto 0xFFF) := by decide
theorem witness_StepKeepsWellFormedState :
    base.wf = true ∧ nextWith (step base) (fun _ => true) = true ∧ State.wf { base with stk := [0xFFF, 0x000] } = true := by decide
theorem witness_StepKeepsProgramAndPart : nextWith (step requested) (fun _ => true) = true := by decide
theorem witness_FetchFaultsAreNamed :
    base.mode = .run ∧ base.input.reset = false ∧ (base.input.watchdog && base.part.wdtEnabled) = false
    ∧ (base.gie && base.input.irq) = false ∧ (State.part { base with part := { partA with romSize := 0x010 } }).romSize ≤ base.pc.toNat
    ∧ base.pc.toNat < ({ partA with romSize := 0x011 } : Part).romSize
    ∧ decode base.part.iset base.part.hasDptr (State.romWord { base with rom := [(0x010, 0x0041)] } base.pc)
      = .error (.unassigned 0x0041) := by decide
theorem witness_InterruptEntrySavesPcAndClearsGie :
    requested.mode = .run ∧ requested.input.reset = false
    ∧ (requested.input.watchdog && requested.part.wdtEnabled) = false ∧ requested.gie = true ∧ requested.input.irq = true
    ∧ requested.stk.length < requested.part.stackDepth ∧ requested.input.wdtCount = none
    ∧ (State.input { requested with env := [{ irqIn with wdtCount := some 0x1FF }] }).wdtCount = some 0x1FF := by decide
theorem witness_RetiUndoesInterruptEntry :
    nextWith (interruptEntry requested) (fun t => t.stk == State.stk { base with stk := [0x006] }) = true := by decide
theorem witness_RequestsAreIgnoredWhileGieIsClear : base.mode = .run ∧ base.gie = false := by decide
theorem witness_OnlyRetiOrResetEnablesInterrupts :
    State.gie { base with stk := [0x123] } = false
    ∧ nextWith (runWord { base with stk := [0x123] } 0x0060) (fun t => t.gie) = true
    ∧ nextWith (step { base with part := { partA with gieReset := some true }, env := [resetIn] }) (fun t => t.gie) = true
    ∧ nextWith (step { base with part := { partA with gieReset := some true }, env := [dogIn] }) (fun t => t.gie) = true := by decide
theorem witness_ResetEventRestartsTheCore :
    (State.input { base with env := [resetIn] }).reset = true
    ∧ ({ partA with gieReset := some true } : Part).gieReset = some true ∧ partA.gieReset = none := by decide
theorem witness_EventsComeInOrder :
    (State.input { base with env := [resetIn] }).reset = true ∧ resetIn.reset = true
    ∧ (State.input { base with env := [dogIn] }).reset = false ∧ (State.input { base with env := [dogIn] }).watchdog = true
    ∧ base.part.wdtEnabled = true ∧ requested.input.reset = false
    ∧ (requested.input.watchdog && requested.part.wdtEnabled) = false ∧ requested.mode = .run ∧ requested.gie = true
    ∧ requested.input.irq = true := by decide
theorem witness_SleepingCoreKeepsItsState :
    asleep.mode = .sleep ∧ asleep.input.reset = false ∧ (asleep.input.watchdog && asleep.part.wdtEnabled) = false
    ∧ asleep.input.wake = false ∧ asleep.input.wdtCount = none
    ∧ (State.input { asleep with env := [{ Input.quiet with wdtCount := some 0x1FF }] }).wdtCount = some 0x1FF := by decide
/-- A sleeping state that a wake-up reaches, with or without a request at the same boundary. -/
def waking (gie irq : Bool) : State := { asleep with gie := gie, env := [{ wakeIn with irq := irq }] }
theorem witness_WakeUpResumesAfterSleep :
    (waking true true).mode = .sleep ∧ (waking true true).input.reset = false
    ∧ ((waking true true).input.watchdog && (waking true true).part.wdtEnabled) = false ∧ (waking true true).input.wake = true
    ∧ (waking true true).input.wdtCount = none ∧ (waking true true).gie = true ∧ (waking true true).input.irq = true
    ∧ (waking false true).mode = .sleep ∧ (waking false true).input.wake = true
    ∧ ((waking false true).gie && (waking false true).input.irq) = false ∧ (waking false true).fetch = .ok .nop := by decide
theorem witness_SelfJumpIsAFixedPoint :
    base.mode = .run ∧ base.input = Input.quiet ∧ State.atSelfJump { base with rom := [(0x010, 0x3010)] } = true := by decide
theorem witness_CanonicalMemoriesAreData :
    Memory.wf ([(0, 1), (127, 0xFF)] : Memory 8) 128 = true ∧ (127 : Nat) < 128
    ∧ Memory.wf ([(1, 0)] : Memory 8) 128 = false ∧ Memory.wf ([(128, 1)] : Memory 8) 128 = false := by decide
theorem witness_AssembledStatementsDecodeBack :
    assembleStatement .b true dpSymbols "MOVWF".toList ["DPH".toList] = .ok (.movwf 0x2E)
    ∧ assembleStatement .b true [] "MOVRW".toList ["20H".toList] = .ok (.movrw 0x20)
    ∧ ("ADDWF", [(0x00, 0x7F), (0, 1)]) ∈ operandRanges .a
    ∧ operandValues [] ["80H".toList, "0".toList] = .ok [0x80, 0] ∧ inRanges [(0x00, 0x7F), (0, 1)] [0x80, 0] = false
    ∧ ("MOVRW", [(0x20, 0xFF)]) ∈ operandRanges .b ∧ operandValues [] ["1FH".toList] = .ok [0x1F]
    ∧ inRanges [(0x20, 0xFF)] [0x1F] = false ∧ Instr.wellFormed .b true (.movrw 0xFF) = true
    ∧ Instr.assemblable (.movrw 0xFF) = true ∧ operandValues [] ["0XFF".toList] = .ok (Instr.movrw 0xFF).operands := by decide
theorem witness_OmittedOperandsAreRefused :
    "ADDWF" ∈ ["ADDWF", "ANDWF", "COMF", "DECF", "DECFSZ", "INCF", "INCFSZ", "IORWF", "RLF", "RRF", "SUBWF", "SWAPF",
      "XORWF", "BCF", "BSF", "BTFSC", "BTFSS"] := by decide
theorem witness_EndedRunStaysEnded :
    asleep.mode = .sleep ∧ asleep.ended = true ∧ State.ended { asleep with env := [irqIn, wakeIn] } = false
    ∧ asleep.input.reset = false ∧ (asleep.input.watchdog && asleep.part.wdtEnabled) = false
    ∧ base.mode = .run ∧ State.ended { base with rom := [(0x010, 0x3010)] } = true ∧ base.input.reset = false
    ∧ (base.input.watchdog && base.part.wdtEnabled) = false ∧ (base.gie && base.input.irq) = false := by decide
theorem witness_NumbersReadAsWritten :
    ['0', 'e', '8'] = List.replicate 1 '0' ++ Nat.toDigits 16 0xE8
    ∧ ['0', 'E', '8'] = List.replicate 1 '0' ++ (Nat.toDigits 16 0xE8).map Char.toUpper := by decide
/-- The numbers R6 writes out, its binary string, and one group alone, which is decimal (log 25). -/
theorem test_numbers : number "00h".toList = some 0x00 ∧ number "7Fh".toList = some 0x7F ∧ number "08H".toList = some 0x08
    ∧ number "0x18".toList = some 0x18 ∧ number "0XE8".toList = some 0xE8 ∧ number "1110 0110".toList = some 0xE6
    ∧ number "1110".toList = some 1110 ∧ number "1110 012".toList = none := by decide
/-- R6: a binary operand of a listing, before a comma too. A label alone stands for the next instruction (log 25). -/
theorem test_assemble_binary :
    assemble partA [] ["L1".toList, " MOVLW  1110 0110 ; E6h".toList, " ADDWF 0010 0101, 1".toList, " GOTO L1".toList]
      = .ok [(0, 0x19E6), (1, 0x07A5), (2, 0x3000)] := by decide
/-- Two words that are no groups are no operand; a group and a word are none either. -/
theorem test_assemble_two_words :
    assemble partA [] [" MOVLW 12H 13H".toList] = .error .syntaxError
    ∧ assemble partA [] [" MOVLW 1110 012".toList] = .error .syntaxError := by decide
/-- The address of an ORG is read once: the later label that is spelt like it moves no word off its label. -/
theorem test_org_before_label_of_that_name :
    assemble partA [] [" ORG 0AH".toList, "0AH: GOTO 0AH".toList, "L2: GOTO L2".toList]
      = .ok [(10, 0x300A), (11, 0x300B)]
    ∧ assemble partA [] [" ORG 0BH".toList, "L1: GOTO L1".toList, "0BH: GOTO 0BH".toList]
      = .ok [(11, 0x300B), (12, 0x300C)] := by decide

/-! ### The boot requirements (R212) -/

/-- Item 2: the instructions that give W its first value, and three that do not. -/
theorem test_initialises_w :
    ([.movlw 0, .clrw, .retlw 0, .tblwl, .tblwh, .movrw 0x20, .movfw 0, .comf 0 .w, .decf 0 .w, .decfsz 0 .w, .incf 0 .w,
      .incfsz 0 .w, .rlf 0 .w, .rrf 0 .w, .swapf 0 .w].all Instr.initialisesW) = true
    ∧ Instr.initialisesW (.addlw 0) = false ∧ Instr.initialisesW (.addwf 0 .w) = false
    ∧ Instr.initialisesW (.swapf 0 .file) = false := by decide
/-- Items 2, 3 and 4: MOVLW, MOVWF, ADDLW, RLF meets them; BSF as the first instruction does not (item 3). -/
theorem test_boot_order :
    Written.allowsRun .atReset 4 { base with rom := [(0x010, 0x1912), (0x011, 0x00A5), (0x012, 0x1C01), (0x013, 0x0DA5)] }
      = true
    ∧ Written.allowsRun .atReset 1 { base with rom := [(0x010, 0x1225)] } = false := by decide


end Sys2Proof.Tests
end

section
/-! SUPPORT. Reading a number as it is written (R6): digit strings are read back digit by digit, a string of digits holds
none of the marks by which `number` tells the spellings apart, and each spelling is then one case of `number`. -/

namespace Sys2Proof.Machine

/-! ### Digit strings -/

/-- No digits leave the accumulator. -/
@[simp] theorem digits_nil (base acc : Nat) : digits base acc [] = some acc := rfl

/-- A first digit is read onto the accumulator. -/
theorem digits_cons {base d : Nat} {c : Char} (hc : hexDigit c = some d) (hd : d < base) (acc : Nat) (cs : List Char) :
    digits base acc (c :: cs) = digits base (acc * base + d) cs := by
  simp [digits, hc, hd]

/-- A text that reads as digits holds digits of the base only. -/
theorem hexDigit_of_digits_eq_some {base acc n : Nat} {cs : List Char} (h : digits base acc cs = some n) :
    ∀ c ∈ cs, ∃ d < base, hexDigit c = some d := by
  induction cs generalizing acc with
  | nil => exact nofun
  | cons c cs ih =>
    simp only [digits] at h
    split at h
    · next d hc =>
      split at h
      · next hd => exact List.forall_mem_cons.mpr ⟨⟨d, hd, hc⟩, ih h⟩
      · cases h
    · cases h

/-- A character that is no digit stands in no text that reads as digits. -/
theorem not_mem_of_digits_eq_some {base acc n : Nat} {cs : List Char} {c : Char} (h : digits base acc cs = some n)
    (hc : hexDigit c = none) : c ∉ cs := by
  intro hmem
  obtain ⟨d, -, hd⟩ := hexDigit_of_digits_eq_some h c hmem
  cases hc.symm.trans hd

/-- Leading zeros do not change what is read. -/
theorem digits_replicate_zero {base : Nat} (hb : 0 < base) (z : Nat) (cs : List Char) :
    digits base 0 (List.replicate z '0' ++ cs) = digits base 0 cs := by
  induction z with
  | zero => rfl
  | succ z ih =>
    have hzero : hexDigit '0' = some 0 := by decide
    rw [List.replicate_succ, List.cons_append, digits_cons hzero hb, Nat.zero_mul, ih]

/-- The digits of n read as n, however each digit is spelt. -/
theorem digits_map_toDigits {base : Nat} {spell : Char → Char} (hb : 1 < base)
    (hspell : ∀ d < base, hexDigit (spell (Nat.digitChar d)) = some d) (n : Nat) :
    digits base 0 ((Nat.toDigits base n).map spell) = some n := by
  induction n using Nat.strongRecOn with
  | ind n ih =>
    by_cases hn : n < base
    · rw [Nat.toDigits_of_lt_base hn, List.map_singleton, digits_cons (hspell n hn) hn, Nat.zero_mul, Nat.zero_add,
        digits_nil]
    · have hlast : n % base < base := Nat.mod_lt _ (by omega)
      have hinit := ih (n / base) (Nat.div_lt_self (by omega) hb)
      rw [Nat.toDigits_of_base_le hb (by omega), List.map_append, digits_append, hinit, Option.bind_some,
        List.map_singleton, digits_cons (hspell _ hlast) hlast, Nat.div_add_mod', digits_nil]

/-- The upper-case digit of a value below 16 reads as that value. -/
theorem hexDigit_toUpper_digitChar {d : Nat} (h : d < 16) : hexDigit (Nat.digitChar d).toUpper = some d := by
  have all : ∀ d : Fin 16, hexDigit (Nat.digitChar d).toUpper = some d.val := by decide
  exact all ⟨d, h⟩

/-- The digits of n after any count of zeros read as n, however each digit is spelt. -/
theorem digits_zeros_append_toDigits {base : Nat} {spell : Char → Char} (hb : 1 < base)
    (hspell : ∀ d < base, hexDigit (spell (Nat.digitChar d)) = some d) (n z : Nat) :
    digits base 0 (List.replicate z '0' ++ (Nat.toDigits base n).map spell) = some n := by
  rw [digits_replicate_zero (by omega), digits_map_toDigits hb hspell]

/-! ### The spellings of a number -/

/-- Digits after `0x` or `0X` are read as hexadecimal. -/
theorem number_hex_of_leading_mark {cs : List Char} {n : Nat} (hne : cs ≠ []) (h : digits 16 0 cs = some n) :
    number ('0' :: 'x' :: cs) = some n ∧ number ('0' :: 'X' :: cs) = some n := by
  have hblank : ' ' ∉ cs := not_mem_of_digits_eq_some h (by decide)
  simp [number, digits1, hblank, hne, h]

/-- Without a blank and without `x` or `X`, the last character says the base. -/
theorem number_of_no_leading_mark {cs : List Char} {c : Char} (hblank : ' ' ∉ cs) (hx : 'x' ∉ cs) (hX : 'X' ∉ cs)
    (hlast : cs.getLast? = some c) :
    number cs = if c = 'h' ∨ c = 'H' then digits1 16 cs.dropLast else digits1 10 cs := by
  have hcontains : ¬cs.contains ' ' = true := by simpa using hblank
  unfold number
  rw [if_neg hcontains, hlast]
  split
  · simp at hx
  · simp at hX
  · split
    · next hh => cases hh; rw [if_pos (.inl rfl)]
    · next hH => cases hH; rw [if_pos (.inr rfl)]
    · next hh hH => rw [if_neg (by rintro (rfl | rfl); exacts [hh rfl, hH rfl])]

/-- Digits before `h` or `H` are read as hexadecimal. -/
theorem number_hex_of_trailing_mark {cs : List Char} {c : Char} {n : Nat} (hc : c = 'h' ∨ c = 'H') (hne : cs ≠ [])
    (h : digits 16 0 cs = some n) : number (cs ++ [c]) = some n := by
  have hmark : ∀ m : Char, hexDigit m = none → m ≠ 'h' → m ≠ 'H' → m ∉ cs ++ [c] := by
    intro m hm hh hH
    have hmc : m ≠ c := by rintro rfl; exact hc.elim hh hH
    simp [not_mem_of_digits_eq_some h hm, hmc]
  have hnum := number_of_no_leading_mark (hmark ' ' (by decide) (by decide) (by decide))
    (hmark 'x' (by decide) (by decide) (by decide)) (hmark 'X' (by decide) (by decide) (by decide))
    List.getLast?_concat
  rw [hnum, if_pos hc, List.dropLast_concat, digits1, if_neg hne, h]

/-- Decimal digits alone are read as decimal. -/
theorem number_decimal {cs : List Char} {n : Nat} (hne : cs ≠ []) (h : digits 10 0 cs = some n) :
    number cs = some n := by
  have hmark : ∀ m : Char, hexDigit m = none → m ∉ cs := fun m hm => not_mem_of_digits_eq_some h hm
  have hend : ¬(cs.getLast hne = 'h' ∨ cs.getLast hne = 'H') := by
    have hmem := List.getLast_mem hne
    rintro (e | e) <;> rw [e] at hmem
    · exact hmark 'h' (by decide) hmem
    · exact hmark 'H' (by decide) hmem
  rw [number_of_no_leading_mark (hmark ' ' (by decide)) (hmark 'x' (by decide)) (hmark 'X' (by decide))
    (List.getLast?_eq_some_getLast hne), if_neg hend, digits1, if_neg hne, h]

/-! ### Bytes in binary -/

/-- A text with a blank is read as groups of binary digits. -/
theorem number_of_blank {cs : List Char} (h : ' ' ∈ cs) : number cs = binaryGroups 0 cs := by
  unfold number
  rw [if_pos (by simpa using h)]

/-- The binary digit of a bit. -/
def bitChar (b : Bool) : Char := if b then '1' else '0'

/-- The binary digit of a bit reads as the bit. -/
theorem hexDigit_bitChar (b : Bool) : hexDigit (bitChar b) = some b.toNat := by cases b <;> decide

/-- A first binary digit is read onto the accumulator. -/
theorem digits_two_bitChar (acc : Nat) (b : Bool) (cs : List Char) :
    digits 2 acc (bitChar b :: cs) = digits 2 (acc * 2 + b.toNat) cs :=
  digits_cons (hexDigit_bitChar b) b.toNat_lt acc cs

/-- Two groups of four binary digits, a blank between them, read as the value of their eight bits, high bit first. -/
theorem number_two_groups (b₇ b₆ b₅ b₄ b₃ b₂ b₁ b₀ : Bool) :
    number [bitChar b₇, bitChar b₆, bitChar b₅, bitChar b₄, ' ', bitChar b₃, bitChar b₂, bitChar b₁, bitChar b₀]
      = some (128 * b₇.toNat + 64 * b₆.toNat + 32 * b₅.toNat + 16 * b₄.toNat
        + 8 * b₃.toNat + 4 * b₂.toNat + 2 * b₁.toNat + b₀.toNat) := by
  rw [number_of_blank (by simp)]
  simp only [binaryGroups, digits_two_bitChar, digits_nil, if_true, Option.some.injEq]
  omega

/-- A byte is the value of its eight bits. -/
theorem byte_toNat_eq_bits (x : Byte) :
    128 * (x.getLsbD 7).toNat + 64 * (x.getLsbD 6).toNat + 32 * (x.getLsbD 5).toNat + 16 * (x.getLsbD 4).toNat
      + 8 * (x.getLsbD 3).toNat + 4 * (x.getLsbD 2).toNat + 2 * (x.getLsbD 1).toNat + (x.getLsbD 0).toNat
      = x.toNat := by
  have hx : x.toNat < 256 := x.isLt
  simp only [BitVec.getLsbD, Nat.toNat_testBit]
  omega

/-! ### The obligation -/

/-- Settles O60: each spelling is one case of `number`, and its digits read back by induction on the number. -/
theorem numbersReadAsWritten : Obligations.NumbersReadAsWritten := by
  unfold Obligations.NumbersReadAsWritten
  refine ⟨fun n z => ⟨?decimal, fun hex hhex => ?hexadecimal⟩, fun x => ?binary⟩
  case decimal =>
    have hread := digits_zeros_append_toDigits (base := 10) (spell := id) (by decide)
      (fun d hd => hexDigit_digitChar (by omega)) n z
    rw [List.map_id] at hread
    exact number_decimal (by simp [Nat.toDigits_ne_nil]) hread
  case hexadecimal =>
    have hne : hex ≠ [] := by rcases hhex with rfl | rfl <;> simp [Nat.toDigits_ne_nil]
    have hread : digits 16 0 hex = some n := by
      rcases hhex with rfl | rfl
      · have hread := digits_zeros_append_toDigits (base := 16) (spell := id) (by decide)
          (fun d hd => hexDigit_digitChar hd) n z
        rwa [List.map_id] at hread
      · exact digits_zeros_append_toDigits (by decide) (fun d hd => hexDigit_toUpper_digitChar hd) n z
    obtain ⟨hlower, hupper⟩ := number_hex_of_leading_mark hne hread
    exact ⟨hlower, hupper, number_hex_of_trailing_mark (.inl rfl) hne hread,
      number_hex_of_trailing_mark (.inr rfl) hne hread⟩
  case binary =>
    exact (number_two_groups ..).trans (congrArg some (byte_toNat_eq_bits x))

end Sys2Proof.Machine
end

section
/-! PROOFS. A memory in canonical form is determined by what its addresses read as (log 4, log 5), so that writing back a
value changes nothing (spec/20_memory.md R57). -/

namespace Sys2Proof.Machine

/-! ### The first entry of a canonical memory -/

/-- What the canonical form says of the first entry and of the rest. -/
theorem Memory.wfFrom_cons_iff {n : Nat} {m : Memory n} {k lo size : Nat} {v : BitVec n} :
    Memory.wfFrom ((k, v) :: m) lo size = true
      ↔ lo ≤ k ∧ k < size ∧ v ≠ 0#n ∧ Memory.wfFrom m (k + 1) size = true := by
  simp [Memory.wfFrom, and_assoc]

/-- The first entry is what its address reads as. -/
theorem Memory.read_cons_self {n : Nat} (m : Memory n) (k : Nat) (v : BitVec n) :
    Memory.read ((k, v) :: m) k = v := if_pos rfl

/-- The first entry does not count for any other address. -/
theorem Memory.read_cons_ne {n : Nat} (m : Memory n) {k a : Nat} (v : BitVec n) (h : k ≠ a) :
    Memory.read ((k, v) :: m) a = Memory.read m a := if_neg h

/-- The address of the first entry does not read as 0. -/
theorem Memory.read_cons_self_ne_zero {n : Nat} {m : Memory n} {k lo size : Nat} {v : BitVec n}
    (hm : Memory.wfFrom ((k, v) :: m) lo size = true) : Memory.read ((k, v) :: m) k ≠ 0#n := by
  obtain ⟨-, -, hv, -⟩ := Memory.wfFrom_cons_iff.mp hm
  rwa [Memory.read_cons_self]

/-- A canonical memory that agrees at the address of the first entry starts no higher: below its start it reads as 0. -/
theorem Memory.lo_le_of_read_cons_eq {n : Nat} {m m' : Memory n} {k lo lo' size : Nat} {v : BitVec n}
    (hm : Memory.wfFrom ((k, v) :: m) lo size = true) (hm' : Memory.wfFrom m' lo' size = true)
    (hread : Memory.read ((k, v) :: m) k = Memory.read m' k) : lo' ≤ k := by
  by_contra hlt
  exact Memory.read_cons_self_ne_zero hm (hread.trans (Memory.read_of_wfFrom_lt m' hm' (by omega)))

/-- A canonical memory may be taken to start at its first entry. -/
theorem Memory.wfFrom_cons_self {n : Nat} {m : Memory n} {k lo size : Nat} {v : BitVec n}
    (hm : Memory.wfFrom ((k, v) :: m) lo size = true) : Memory.wfFrom ((k, v) :: m) k size = true :=
  Memory.wfFrom_cons_iff.mpr ⟨le_rfl, (Memory.wfFrom_cons_iff.mp hm).2⟩

/-- Behind equal first entries, canonical memories that read the same still read the same. -/
theorem Memory.read_eq_of_read_cons_eq {n : Nat} {m m' : Memory n} {k size : Nat} {v : BitVec n}
    (hm : Memory.wfFrom m (k + 1) size = true) (hm' : Memory.wfFrom m' (k + 1) size = true)
    (hread : ∀ a, Memory.read ((k, v) :: m) a = Memory.read ((k, v) :: m') a) (a : Nat) :
    Memory.read m a = Memory.read m' a := by
  by_cases hk : k = a
  · have hlt : a < k + 1 := by omega
    rw [Memory.read_of_wfFrom_lt m hm hlt, Memory.read_of_wfFrom_lt m' hm' hlt]
  · rw [← Memory.read_cons_ne m v hk, hread a, Memory.read_cons_ne m' v hk]

/-! ### Canonical memories are data -/

/-- Canonical memories that read the same have the same entries, in the same order. -/
theorem Memory.wfFrom_ext {n : Nat} {m m' : Memory n} {lo size : Nat} (hm : Memory.wfFrom m lo size = true)
    (hm' : Memory.wfFrom m' lo size = true) (hread : ∀ a, Memory.read m a = Memory.read m' a) : m = m' := by
  induction m generalizing m' lo with
  | nil =>
    cases m' with
    | nil => rfl
    | cons cell m' =>
      obtain ⟨k, v⟩ := cell
      exact absurd (hread k).symm (Memory.read_cons_self_ne_zero hm')
  | cons cell m ih =>
    obtain ⟨k, v⟩ := cell
    cases m' with
    | nil => exact absurd (hread k) (Memory.read_cons_self_ne_zero hm)
    | cons cell' m' =>
      obtain ⟨k', v'⟩ := cell'
      have hk : k = k' := le_antisymm
        (Memory.lo_le_of_read_cons_eq hm' (Memory.wfFrom_cons_self hm) (hread k').symm)
        (Memory.lo_le_of_read_cons_eq hm (Memory.wfFrom_cons_self hm') (hread k))
      subst hk
      have hv : v = v' := by simpa only [Memory.read_cons_self] using hread k
      subst hv
      obtain ⟨-, -, -, htail⟩ := Memory.wfFrom_cons_iff.mp hm
      obtain ⟨-, -, -, htail'⟩ := Memory.wfFrom_cons_iff.mp hm'
      rw [ih htail htail' (Memory.read_eq_of_read_cons_eq htail htail' hread)]

/-- Writing the value an address already holds leaves every read as it was. -/
theorem Memory.read_write_read {n : Nat} (m : Memory n) (a b : Nat) :
    Memory.read (Memory.write m a (Memory.read m a)) b = Memory.read m b := by
  by_cases h : b = a
  · rw [h, Memory.read_write_self]
  · exact Memory.read_write_ne m a b _ h

/-- Settles O56: the entries are compared one by one from the lowest address on, and a write keeps the canonical form. -/
theorem canonicalMemoriesAreData : Obligations.CanonicalMemoriesAreData := by
  unfold Obligations.CanonicalMemoriesAreData
  refine ⟨fun _ _ _ _ hm hm' hread => Memory.wfFrom_ext hm hm' hread, fun _ _ m a hm ha => ?_⟩
  exact Memory.wfFrom_ext (Memory.write_wf m a _ hm ha) hm (Memory.read_write_read m a)

end Sys2Proof.Machine
end

section
/-! PROOFS. Every instruction of a part is what its word decodes to (spec/30_encoding.md R70 to R78), one case for each
format of R71. -/

namespace Sys2Proof

/-! ### The bits the decoder looks at, for the formats BD, BIT, BF and R6 -/

/-- Bits 13..12 of a BD word. -/
theorem bd_top (op : BitVec 6) (d : BitVec 1) (f : BitVec 7) :
    (op ++ d ++ f : BitVec 14).extractLsb' 12 2 = op.extractLsb' 4 2 := by rw [bd_assoc, op6_top]

/-- Bits 12..8 of a BD word. -/
theorem bd_low (op : BitVec 6) (d : BitVec 1) (f : BitVec 7) :
    (op ++ d ++ f : BitVec 14).extractLsb' 8 5 = op.extractLsb' 0 5 := by rw [bd_assoc, op6_low]

/-- Bits 13..12 of a BIT word. -/
theorem bit_top (op : BitVec 5) (b : BitVec 3) (f : BitVec 6) :
    (op ++ b ++ f : BitVec 14).extractLsb' 12 2 = op.extractLsb' 3 2 := by
  rw [bit_assoc]; exact extract_append_high op (b ++ f) 3 2

/-- Bits 12..8 of a BIT word: the last four bits of its opcode, and the high bit of b. -/
theorem bit_low (op : BitVec 5) (b : BitVec 3) (f : BitVec 6) :
    (op ++ b ++ f : BitVec 14).extractLsb' 8 5 = op.extractLsb' 0 4 ++ b.extractLsb' 2 1 := by
  refine (extract_append_high (op ++ b) f 2 5).trans ?_
  revert op b; decide

/-- Bit 7 of a BF word, as an element of the word. -/
theorem bf_getElem7 (op : BitVec 7) (f : BitVec 7) : (op ++ f : BitVec 14)[7] = op[0] := bf_bit7 op f

/-- Bits 13..12 of an R6 word. -/
theorem r6_top (op : BitVec 8) (r : BitVec 6) : (op ++ r : BitVec 14).extractLsb' 12 2 = op.extractLsb' 6 2 :=
  extract_append_high op r 6 2

/-- Bits 12..8 of an R6 word. -/
theorem r6_low (op : BitVec 8) (r : BitVec 6) : (op ++ r : BitVec 14).extractLsb' 8 5 = op.extractLsb' 2 5 :=
  extract_append_high op r 2 5

/-- Bit 7 of an R6 word. -/
theorem r6_getElem7 (op : BitVec 8) (r : BitVec 6) : (op ++ r : BitVec 14)[7] = op[1] := by
  show (op ++ r)[7] = _
  rw [BitVec.getElem_append]; rfl

/-- Bit 6 of an R6 word. -/
theorem r6_getElem6 (op : BitVec 8) (r : BitVec 6) : (op ++ r : BitVec 14)[6] = op[0] := by
  show (op ++ r)[6] = _
  rw [BitVec.getElem_append]; rfl

/-- A concatenation is a given vector when both parts are that vector's. -/
theorem append_eq_iff {m n : Nat} (a : BitVec m) (b : BitVec n) (w : BitVec (m + n)) :
    a ++ b = w ↔ a = w.extractLsb' n m ∧ b = w.extractLsb' 0 n := by
  constructor
  · rintro rfl
    exact ⟨((extract_append_high a b 0 m).trans (extract_whole a)).symm,
      ((extract_append_low a b 0 n (by omega)).trans (extract_whole b)).symm⟩
  · rintro ⟨rfl, rfl⟩
    exact BitVec.extractLsb'_append_extractLsb' ..

/-! ### MOVWR, which shares words with instructions of a fixed pattern -/

/-- The r values for which MOVWR of set A has a word of its own (R82 (a)). -/
theorem wellFormed_movwrA_iff {iset : ISet} {hasDptr : Bool} {r : BitVec 6} :
    (Instr.movwrA r).wellFormed iset hasDptr = true ↔ iset = .a ∧ r ≠ 0x00#6 ∧ r ≠ 0x03#6 ∧ r ≠ 0x04#6 := by
  simp [Instr.wellFormed, and_assoc]

/-- The r values for which MOVWR of set B has a word of its own (R82 (a)). -/
theorem wellFormed_movwrB_iff {iset : ISet} {hasDptr : Bool} {r : BitVec 8} :
    (Instr.movwrB r).wellFormed iset hasDptr = true ↔ iset = .b ∧ r ≠ 0x03#8 ∧ r ≠ 0x04#8 := by
  simp [Instr.wellFormed, and_assoc]

/-- MOVWR of set A, for an r whose word is not that of NOP, SLEEP or CLRWDT (R76, R82 (a)). -/
theorem decode_movwrA {hasDptr : Bool} {r : BitVec 6} (h0 : r ≠ 0x00#6) (h3 : r ≠ 0x03#6) (h4 : r ≠ 0x04#6) :
    decode .a hasDptr (encode (.movwrA r)) = .ok (.movwrA r) := by
  have heq (w : ProgWord) : 0#8 ++ r = w ↔ 0#8 = w.extractLsb' 6 8 ∧ r = w.extractLsb' 0 6 :=
    append_eq_iff (0#8) r w
  simp [encode, decode, decodePage00, r6_top, r6_low, r6_getElem7, r6_getElem6, heq, h0, h3, h4]

/-- MOVWR of set B, for an r whose word is not that of SLEEP or CLRWDT (R76, R82 (a)). -/
theorem decode_movwrB {hasDptr : Bool} {r : BitVec 8} (h3 : r ≠ 0x03#8) (h4 : r ≠ 0x04#8) :
    decode .b hasDptr (encode (.movwrB r)) = .ok (.movwrB r) := by
  have heq (w : ProgWord) : 30#6 ++ r = w ↔ 30#6 = w.extractLsb' 8 6 ∧ r = w.extractLsb' 0 8 :=
    append_eq_iff (30#6) r w
  simp [encode, decode, decodePage1D, op6_top, op6_low, heq, h3, h4]

/-! ### Every instruction -/

/-- An instruction of a part is what its word decodes to. -/
theorem decode_encode_of_wellFormed {iset : ISet} {hasDptr : Bool} {i : Instr} (h : i.wellFormed iset hasDptr = true) :
    decode iset hasDptr (encode i) = .ok i := by
  cases i with
  | addwf f d | andwf f d | comf f d | decf f d | decfsz f d | incf f d | incfsz f d | iorwf f d | rlf f d | rrf f d
  | subwf f d | swapf f d | xorwf f d => simp [encode, decode, bd_top, bd_low]
  | clrf f | movfw f | movwf f | testz f =>
    simp [encode, decode, decodePage00, decodePage01, bf_top, bf_low, bf_getElem7]
  | bcf f b | bsf f b | btfsc f b | btfss f b =>
    -- the opcode maps list each of these twice, once for each value of the high bit of b
    rcases BitVec.eq_zero_or_eq_one (b.extractLsb' 2 1) with hb | hb <;> simp [encode, decode, bit_top, bit_low, hb]
  | addlw k | andlw k | iorlw k | movlw k | retlw k => simp [encode, decode, op6_top, op6_low]
  | call k | goto k => simp [encode, decode, k12_opcode]
  | xorlwA k | xorlwB k | movrw k =>
    obtain rfl := eq_of_beq h
    simp [encode, decode, decodePage1D, op6_top, op6_low]
  | movwrA r =>
    obtain ⟨rfl, h0, h3, h4⟩ := wellFormed_movwrA_iff.mp h
    exact decode_movwrA h0 h3 h4
  | movwrB r =>
    obtain ⟨rfl, h3, h4⟩ := wellFormed_movwrB_iff.mp h
    exact decode_movwrB h3 h4
  | nop | ret | reti | clrw => cases iset <;> rfl
  | clrwdtA | clrwdtB | sleepA | sleepB => obtain rfl := eq_of_beq h; rfl
  | tblwl | tblwh => cases iset <;> cases h <;> rfl

end Sys2Proof
end

section
/-! PROOFS. What the assembler accepts and refuses (spec/30_encoding.md R83, R85, R86): what a form makes of operand
values, which ranges a row of the assembler's list has, and what its mnemonic names. -/

namespace Sys2Proof.Machine

/-! ### Forms and the values of their operands -/

/-- The instructions of a form, each with the values of its operands (R83). -/
inductive AsmForm.Makes : AsmForm → List Nat → Instr → Prop
  | fd (mk : BitVec 7 → Dest → Instr) (f : BitVec 7) (d : Dest) : Makes (.fd mk) [f.toNat, d.bit.toNat] (mk f d)
  | f (mk : BitVec 7 → Instr) (f : BitVec 7) : Makes (.f mk) [f.toNat] (mk f)
  | r6 (mk : BitVec 6 → Instr) (r : BitVec 6) : Makes (.r6 mk) [r.toNat] (mk r)
  | r8 (mk : BitVec 8 → Instr) (r : BitVec 8) : Makes (.r8 mk) [r.toNat] (mk r)
  | fb (mk : BitVec 6 → BitVec 3 → Instr) (f : BitVec 6) (b : BitVec 3) : Makes (.fb mk) [f.toNat, b.toNat] (mk f b)
  | k8 (mk : BitVec 8 → Instr) (k : BitVec 8) : Makes (.k8 mk) [k.toNat] (mk k)
  | k12 (mk : BitVec 12 → Instr) (k : BitVec 12) : Makes (.k12 mk) [k.toNat] (mk k)
  | bare (i : Instr) : Makes (.bare i) [] i

/-- A form builds exactly the instructions it makes, from their operand values. -/
theorem AsmForm.build_eq_some_some_iff {form : AsmForm} {vs : List Nat} {i : Instr} :
    form.build vs = some (some i) ↔ form.Makes vs i := by
  constructor
  · intro h
    unfold AsmForm.build at h
    split at h
    case h_1 mk a d =>
      split at h
      · next f dest hf hd =>
        cases h
        obtain ⟨-, rfl⟩ := field_eq_some hf
        obtain ⟨-, rfl⟩ := asmDest_eq_some hd
        exact .fd mk f dest
      · cases h
    case h_5 mk a b =>
      split at h
      · next f b hf hb =>
        cases h
        obtain ⟨-, rfl⟩ := field_eq_some hf
        obtain ⟨-, rfl⟩ := field_eq_some hb
        exact .fb mk f b
      · cases h
    case h_8 => cases h; exact .bare _
    case h_9 => cases h
    all_goals -- the forms with one operand
      obtain ⟨x, hx, rfl⟩ := Option.map_eq_some_iff.mp (Option.some.inj h)
      obtain ⟨-, rfl⟩ := field_eq_some hx
      constructor
  · intro h
    cases h <;> simp [AsmForm.build]

/-- The lowest and highest value that each field of a form holds. -/
def AsmForm.fieldRanges : AsmForm → List (Nat × Nat)
  | .fd _ => [(0x00, 0x7F), (0, 1)]
  | .f _ => [(0x00, 0x7F)]
  | .r6 _ => [(0x00, 0x3F)]
  | .r8 _ => [(0x00, 0xFF)]
  | .fb _ => [(0x00, 0x3F), (0, 7)]
  | .k8 _ => [(0x00, 0xFF)]
  | .k12 _ => [(0x000, 0xFFF)]
  | .bare _ => []

/-- A form builds something from as many values as it has fields. -/
theorem AsmForm.build_ne_none {form : AsmForm} {vs : List Nat} (h : vs.length = form.fieldRanges.length) :
    form.build vs ≠ none := by
  cases form with
  | fd _ | fb _ => obtain ⟨a, b, rfl⟩ := List.length_eq_two.mp h; exact nofun
  | bare _ => obtain rfl := List.length_eq_zero_iff.mp h; exact nofun
  | f _ | r6 _ | r8 _ | k8 _ | k12 _ => obtain ⟨a, rfl⟩ := List.length_eq_one_iff.mp h; exact nofun

/-- The operand values of an instruction lie in the ranges of the form that makes it. -/
theorem AsmForm.Makes.inRanges {form : AsmForm} {vs : List Nat} {i : Instr} (h : form.Makes vs i) :
    inRanges form.fieldRanges vs = true := by
  cases h <;> simp [fieldRanges, Sys2Proof.inRanges] <;> bv_omega

/-! ### The rows of the assembler's list -/

/-- The lowest and highest value of each operand of a row: its fields' own, and from 20h on for MOVRW (R82 (b), R86). -/
def rowRanges (row : String × AsmForm) : List (Nat × Nat) :=
  if row.1 = "MOVRW" then [(0x20, 0xFF)] else row.2.fieldRanges

/-- The ranges of R86 are those of the assembler's rows. -/
theorem operandRanges_perm (iset : ISet) :
    (operandRanges iset).Perm ((commonForms ++ setForms iset).map fun row => (row.1, rowRanges row)) := by
  cases iset <;> decide

/-- A row has a range for each field of its form. -/
theorem length_rowRanges {iset : ISet} {row : String × AsmForm} (hrow : row ∈ commonForms ++ setForms iset) :
    (rowRanges row).length = row.2.fieldRanges.length := by
  revert row
  cases iset <;> decide

/-- No two rows have the same mnemonic. -/
theorem mnemonics_nodup (iset : ISet) : ((commonForms ++ setForms iset).map fun row => row.1.toList).Nodup := by
  cases iset <;> decide

/-- The form of a row's mnemonic is the row's. -/
theorem formOf_of_mem {iset : ISet} {row : String × AsmForm} (hrow : row ∈ commonForms ++ setForms iset) :
    formOf iset row.1.toList = some row.2 := by
  have hsome : ((commonForms ++ setForms iset).find? fun r => r.1.toList == row.1.toList).isSome :=
    List.find?_isSome.mpr ⟨row, hrow, beq_self_eq_true _⟩
  obtain ⟨row', hfind⟩ := Option.isSome_iff_exists.mp hsome
  have hname : row'.1.toList = row.1.toList := by simpa using List.find?_some hfind
  have hrow' : row' = row :=
    List.inj_on_of_nodup_map (mnemonics_nodup iset) (List.mem_of_find?_eq_some hfind) hrow hname
  rw [formOf, hfind, hrow']; rfl

/-! ### What a row's mnemonic names -/

/-- A row that both sets share makes instructions of its own mnemonic and operand values. -/
theorem own_of_makes_common : ∀ row ∈ commonForms, ∀ vs i, row.2.Makes vs i →
    row.1.toList = i.mnemonic.toList ∧ vs = i.operands := by
  simp only [commonForms, List.forall_mem_cons, List.not_mem_nil, false_imp_iff, implies_true, and_true]
  and_intros
  all_goals
    rintro vs i ⟨⟩
    exact ⟨rfl, rfl⟩

/-- MOVWR of set A names the instruction it gives (R85). -/
theorem asmMovwrA_namedBy (r : BitVec 6) : (asmMovwrA r).namedBy .a "MOVWR".toList [r.toNat] := by
  unfold asmMovwrA
  split_ifs with h0 h3 h4
  · subst h0; exact .inr ⟨rfl, by decide⟩
  · subst h3; exact .inr ⟨rfl, by decide⟩
  · subst h4; exact .inr ⟨rfl, by decide⟩
  · exact .inl ⟨rfl, rfl⟩

/-- MOVWR of set B names the instruction it gives (R85). -/
theorem asmMovwrB_namedBy (r : BitVec 8) : (asmMovwrB r).namedBy .b "MOVWR".toList [r.toNat] := by
  unfold asmMovwrB
  split_ifs with h3 h4
  · subst h3; exact .inr ⟨rfl, by decide⟩
  · subst h4; exact .inr ⟨rfl, by decide⟩
  · exact .inl ⟨rfl, rfl⟩

/-- A row's mnemonic and operand values name the instruction that its form makes of them. -/
theorem namedBy_of_makes {iset : ISet} {row : String × AsmForm} {vs : List Nat} {i : Instr}
    (hrow : row ∈ commonForms ++ setForms iset) (h : row.2.Makes vs i) : i.namedBy iset row.1.toList vs := by
  rcases List.mem_append.mp hrow with hcommon | hset
  · exact .inl (own_of_makes_common row hcommon vs i h)
  · cases iset with
    | a =>
      simp only [setForms, List.mem_cons, List.not_mem_nil, or_false] at hset
      obtain rfl | rfl | rfl | rfl := hset <;> cases h
      · exact asmMovwrA_namedBy _
      all_goals exact .inl ⟨rfl, rfl⟩
    | b =>
      simp only [setForms, List.mem_cons, List.not_mem_nil, or_false] at hset
      obtain rfl | rfl | rfl | rfl | rfl := hset <;> cases h
      · exact asmMovwrB_namedBy _
      all_goals exact .inl ⟨rfl, rfl⟩

/-- Every instruction of a part is made by the row of its mnemonic, from its operand values. -/
theorem exists_row_of_wellFormed {iset : ISet} {hasDptr : Bool} {i : Instr} (h : i.wellFormed iset hasDptr = true) :
    ∃ form, (i.mnemonic, form) ∈ commonForms ++ setForms iset ∧ form.Makes i.operands i := by
  cases i with
  | addwf f d | andwf f d | comf f d | decf f d | decfsz f d | incf f d | incfsz f d | iorwf f d | rlf f d | rrf f d
  | subwf f d | swapf f d | xorwf f d => exact ⟨_, by simp [commonForms, Instr.mnemonic], .fd _ f d⟩
  | clrf f | movfw f | movwf f | testz f => exact ⟨_, by simp [commonForms, Instr.mnemonic], .f _ f⟩
  | bcf f b | bsf f b | btfsc f b | btfss f b => exact ⟨_, by simp [commonForms, Instr.mnemonic], .fb _ f b⟩
  | addlw k | andlw k | iorlw k | movlw k | retlw k => exact ⟨_, by simp [commonForms, Instr.mnemonic], .k8 _ k⟩
  | call k | goto k => exact ⟨_, by simp [commonForms, Instr.mnemonic], .k12 _ k⟩
  | clrw | nop | ret | reti | tblwl | tblwh => exact ⟨_, by simp [commonForms, Instr.mnemonic], .bare _⟩
  | xorlwA k | xorlwB k => obtain rfl := eq_of_beq h; exact ⟨_, by simp [setForms, Instr.mnemonic], .k8 _ k⟩
  | movrw r => obtain rfl := eq_of_beq h; exact ⟨_, by simp [setForms, Instr.mnemonic], .r8 _ r⟩
  | clrwdtA | clrwdtB | sleepA | sleepB =>
    obtain rfl := eq_of_beq h; exact ⟨_, by simp [setForms, Instr.mnemonic], .bare _⟩
  | movwrA r =>
    obtain ⟨rfl, h0, h3, h4⟩ := wellFormed_movwrA_iff.mp h
    have hr : asmMovwrA r = .movwrA r := by simp [asmMovwrA, h0, h3, h4]
    have hmakes := AsmForm.Makes.r6 asmMovwrA r
    rw [hr] at hmakes
    exact ⟨_, by simp [setForms, Instr.mnemonic], hmakes⟩
  | movwrB r =>
    obtain ⟨rfl, h3, h4⟩ := wellFormed_movwrB_iff.mp h
    have hr : asmMovwrB r = .movwrB r := by simp [asmMovwrB, h3, h4]
    have hmakes := AsmForm.Makes.r8 asmMovwrB r
    rw [hr] at hmakes
    exact ⟨_, by simp [setForms, Instr.mnemonic], hmakes⟩

/-! ### Operands within the ranges of R86 -/

/-- MOVRW is of set B alone (R81), and its operand is a value of 8 bits. -/
theorem form_of_movrw_row {iset : ISet} {form : AsmForm} (hrow : ("MOVRW", form) ∈ commonForms ++ setForms iset) :
    iset = .b ∧ form = .r8 .movrw := by
  cases iset with
  | a => simp [commonForms, setForms] at hrow
  | b => exact ⟨rfl, by simpa [commonForms, setForms] using hrow⟩

/-- The assembler refuses no instruction for its operands but MOVRW with an r below 20h (R82 (b)). -/
theorem eq_movrw_of_not_assemblable {i : Instr} (h : i.assemblable = false) : ∃ r, i = .movrw r := by
  cases i with
  | movrw r => exact ⟨r, rfl⟩
  | _ => cases h

/-- What a row makes and the part cannot assemble is MOVRW on a part of set B: the part has it. -/
theorem wellFormed_of_not_assemblable {iset : ISet} {hasDptr : Bool} {row : String × AsmForm} {vs : List Nat}
    {i : Instr} (hrow : row ∈ commonForms ++ setForms iset) (h : row.2.Makes vs i) (ha : i.assemblable = false) :
    i.wellFormed iset hasDptr = true := by
  obtain ⟨r, rfl⟩ := eq_movrw_of_not_assemblable ha
  obtain ⟨name, form⟩ := row
  have hname : name = "MOVRW" := by
    rcases namedBy_of_makes hrow h with ⟨hm, -⟩ | ⟨-, halias⟩
    · exact String.toList_injective hm
    · simp [movwrAliases] at halias
  subst hname
  obtain ⟨rfl, -⟩ := form_of_movrw_row hrow
  rfl

/-- The operand values of an assemblable instruction lie in the ranges of the row that makes it. -/
theorem inRanges_rowRanges_of_makes {iset : ISet} {row : String × AsmForm} {vs : List Nat} {i : Instr}
    (hrow : row ∈ commonForms ++ setForms iset) (h : row.2.Makes vs i) (ha : i.assemblable = true) :
    inRanges (rowRanges row) vs = true := by
  obtain ⟨name, form⟩ := row
  by_cases hname : name = "MOVRW"
  · subst hname
    obtain ⟨-, rfl⟩ := form_of_movrw_row hrow
    have hrange := h.inRanges
    cases h
    simpa [rowRanges, AsmForm.fieldRanges, inRanges, Instr.assemblable] using And.intro ha hrange
  · rw [rowRanges, if_neg hname]
    exact h.inRanges

/-! ### What the assembler gives for a row -/

/-- The mnemonic of a row and operand values from which it makes an instruction of the part give that instruction,
unless its operands are out of range. -/
theorem assembleInstr_of_makes {iset : ISet} {hasDptr : Bool} {row : String × AsmForm} {vs : List Nat} {i : Instr}
    (hrow : row ∈ commonForms ++ setForms iset) (h : row.2.Makes vs i) (hw : i.wellFormed iset hasDptr = true) :
    assembleInstr iset hasDptr row.1.toList vs
      = if i.assemblable then .ok i else .error (.operandRange row.1.toList) := by
  rw [assembleInstr, formOf_of_mem hrow]
  simp only [AsmForm.build_eq_some_some_iff.mpr h, hw]
  cases i.assemblable <;> rfl

/-- The mnemonic of a row with its number of operand values, one of them outside its range, is refused. -/
theorem assembleInstr_of_not_inRanges {iset : ISet} {hasDptr : Bool} {row : String × AsmForm} {vs : List Nat}
    (hrow : row ∈ commonForms ++ setForms iset) (hlen : vs.length = (rowRanges row).length)
    (hrange : inRanges (rowRanges row) vs = false) :
    assembleInstr iset hasDptr row.1.toList vs = .error (.operandRange row.1.toList) := by
  match hbuild : row.2.build vs with
  | none => exact absurd hbuild (AsmForm.build_ne_none (hlen.trans (length_rowRanges hrow)))
  | some none => rw [assembleInstr, formOf_of_mem hrow]; simp only [hbuild]
  | some (some i) =>
    have hmakes := AsmForm.build_eq_some_some_iff.mp hbuild
    have ha : i.assemblable = false := by
      by_contra ha
      have hin := inRanges_rowRanges_of_makes hrow hmakes (Bool.eq_true_of_not_eq_false ha)
      cases hin.symm.trans hrange
    rw [assembleInstr_of_makes hrow hmakes (wellFormed_of_not_assemblable hrow hmakes ha), ha]; rfl

/-- A statement is its mnemonic with the values of its operands. -/
theorem assembleStatement_of_operandValues {iset : ISet} {hasDptr : Bool} {syms : Symbols} {m : List Char}
    {ops : List (List Char)} {vs : List Nat} (h : operandValues syms ops = .ok vs) :
    assembleStatement iset hasDptr syms m ops = assembleInstr iset hasDptr m vs := by
  rw [assembleStatement, h]

/-! ### The obligation -/

/-- Settles O57: a statement is accepted through the row of its mnemonic, which makes the instruction from the operand
values; the row's ranges are those of R86, and an instruction of the part is what its word decodes to. -/
theorem assembledStatementsDecodeBack : Obligations.AssembledStatementsDecodeBack := by
  unfold Obligations.AssembledStatementsDecodeBack
  refine fun iset hasDptr syms ops => ⟨fun m i h => ?accepted, fun ranges hranges vs hvs hlen hout => ?refused,
    fun i hw ha hvs => ?named⟩
  case accepted =>
    obtain ⟨vs, hvs, hinstr⟩ := assembleStatement_ok h
    obtain ⟨form, hform, hbuild, hw, ha⟩ := assembleInstr_ok hinstr
    obtain ⟨row, hrow, rfl, rfl⟩ := formOf_eq_some hform
    have hmakes := AsmForm.build_eq_some_some_iff.mp hbuild
    have hranges : (row.1, rowRanges row) ∈ operandRanges iset :=
      (operandRanges_perm iset).mem_iff.mpr (List.mem_map_of_mem hrow)
    exact ⟨vs, hvs, namedBy_of_makes hrow hmakes, ⟨_, hranges, rfl, inRanges_rowRanges_of_makes hrow hmakes ha⟩,
      decode_encode_of_wellFormed hw, ha⟩
  case refused =>
    obtain ⟨row, hrow, rfl⟩ := List.mem_map.mp ((operandRanges_perm iset).mem_iff.mp hranges)
    rw [assembleStatement_of_operandValues hvs]
    exact assembleInstr_of_not_inRanges hrow hlen hout
  case named =>
    obtain ⟨form, hrow, hmakes⟩ := exists_row_of_wellFormed hw
    rw [assembleStatement_of_operandValues hvs, assembleInstr_of_makes hrow hmakes hw, ha]; rfl

end Sys2Proof.Machine
end

section
/-! PROOFS. When an instruction completes: each shape of Machine/Operands.lean has one condition, which is what
`State.canComplete` asks of its instructions (spec/20_memory.md R50 to R52; spec/10_state.md R23). -/

namespace Sys2Proof.Machine

/-! ### When each access and each shape completes -/

theorem State.fRead_completes_iff {s : State} {a : BitVec 7} {k : Byte → Out} (hk : ∀ v, ∃ t, k v = .next t) :
    (∃ t, s.fRead a k = .next t) ↔ s.fClass a = .plain :=
  ⟨fun ⟨_, h⟩ => (State.fRead_next h).1, fun h => State.fRead_plain k h ▸ hk _⟩

theorem State.fWrite_completes_iff {s : State} {a : BitVec 7} {v : Byte} {k : State → Out}
    (hk : ∀ u, ∃ t, k u = .next t) : (∃ t, s.fWrite a v k = .next t) ↔ s.fClass a = .plain :=
  ⟨fun ⟨_, h⟩ => (State.fWrite_next h).1, fun h => State.fWrite_plain v k h ▸ hk _⟩

theorem State.rRead_completes_iff {s : State} {a : BitVec 8} {k : Byte → Out} (hk : ∀ v, ∃ t, k v = .next t) :
    (∃ t, s.rRead a k = .next t) ↔ s.rClass a = .plain :=
  ⟨fun ⟨_, h⟩ => (State.rRead_next h).1, fun h => State.rRead_plain k h ▸ hk _⟩

theorem State.byteOriented_completes_iff {s : State} {f : BitVec 7} {d : Dest} {res : Byte → Byte}
    {flags : Byte → FlagWrite} : (∃ t, s.byteOriented f d res flags = .next t) ↔ s.fClass f = .plain :=
  ⟨fun ⟨_, h⟩ => (State.byteOriented_next h).1, fun h => ⟨_, State.byteOriented_plain d res flags h⟩⟩

theorem State.byteSkip_completes_iff {s : State} {f : BitVec 7} {d : Dest} {res : Byte → Byte} :
    (∃ t, s.byteSkip f d res = .next t) ↔ s.fClass f = .plain :=
  ⟨fun ⟨_, h⟩ => (State.byteSkip_next h).1, fun h => ⟨_, State.byteSkip_plain d res h⟩⟩

theorem State.bitWrite_completes_iff {s : State} {f : BitVec 6} {op : Byte → Byte} :
    (∃ t, s.bitWrite f op = .next t) ↔ s.fClass (bitAddr f) = .plain :=
  ⟨fun ⟨_, h⟩ => (State.bitWrite_next h).1, fun h => ⟨_, State.bitWrite_plain op h⟩⟩

theorem State.bitTest_completes_iff {s : State} {f : BitVec 6} {b : BitVec 3} {on : Bool} :
    (∃ t, s.bitTest f b on = .next t) ↔ s.fClass (bitAddr f) = .plain :=
  ⟨fun ⟨_, h⟩ => (State.bitTest_next h).1, fun h => ⟨_, State.bitTest_plain b on h⟩⟩

theorem State.moveWToR_completes_iff {s : State} {r : BitVec 8} :
    (∃ t, s.moveWToR r = .next t) ↔ s.rClass r = .plain :=
  ⟨fun ⟨_, h⟩ => (State.moveWToR_next h).1, fun h => ⟨_, State.moveWToR_plain h⟩⟩

/-- A table read needs no storage register, since DPH and DPL are storage on every part (R50): its address alone
decides. -/
theorem State.tableRead_completes_iff {s : State} {pick : ProgWord → Byte} :
    (∃ t, s.tableRead pick = .next t) ↔ s.tableAddr.toNat < s.part.romSize :=
  ⟨fun ⟨_, h⟩ => (State.tableRead_next h).1, fun h => ⟨_, State.tableRead_inside pick h⟩⟩

theorem State.push_completes_iff {s : State} {a : PAddr} {k : State → Out} (hk : ∀ u, ∃ t, k u = .next t) :
    (∃ t, s.push a k = .next t) ↔ s.stk.length < s.part.stackDepth :=
  ⟨fun ⟨_, h⟩ => (State.push_next h).1, fun h => State.push_room a k h ▸ hk _⟩

theorem State.popPc_completes_iff {s : State} {k : State → State} : (∃ t, s.popPc k = .next t) ↔ s.stk ≠ [] := by
  constructor
  · rintro ⟨t, h⟩
    obtain ⟨a, rest, hs, -⟩ := State.popPc_next h
    simp [hs]
  · intro hne
    obtain ⟨a, rest, hs⟩ := List.exists_cons_of_ne_nil hne
    exact ⟨_, State.pop_cons _ hs⟩

/-! ### What `canComplete` asks of an instruction -/

/-- An instruction with an F-plane operand makes no other access. -/
theorem State.canComplete_iff_of_fOperand {i : Instr} {a : BitVec 7} (s : State) (h : i.fOperand = some a) :
    s.canComplete i = true ↔ s.fClass a = .plain := by
  cases i <;> cases h <;> simp [State.canComplete, Instr.fOperand, Instr.rOperand]

/-- An instruction with an R-plane operand makes no other access. -/
theorem State.canComplete_iff_of_rOperand {i : Instr} {a : BitVec 8} (s : State) (h : i.rOperand = some a) :
    s.canComplete i = true ↔ s.rClass a = .plain := by
  cases i <;> cases h <;> simp [State.canComplete, Instr.fOperand, Instr.rOperand]

theorem State.canComplete_call_iff (s : State) (k : BitVec 12) :
    s.canComplete (.call k) = true ↔ s.stk.length < s.part.stackDepth := by
  simp [State.canComplete, Instr.fOperand, Instr.rOperand]

theorem State.canComplete_return_iff {i : Instr} (s : State) (h : i = .ret ∨ i = .reti ∨ ∃ k, i = .retlw k) :
    s.canComplete i = true ↔ s.stk ≠ [] := by
  obtain rfl | rfl | ⟨k, rfl⟩ := h <;> simp [State.canComplete, Instr.fOperand, Instr.rOperand]

theorem State.canComplete_tableRead_iff {i : Instr} (s : State) (h : i.isTableRead = true) :
    s.canComplete i = true ↔ s.tableAddr.toNat < s.part.romSize := by
  cases i <;> cases h <;> simp [State.canComplete, Instr.fOperand, Instr.rOperand]

/-! ### The obligation -/

/-- Settles O34, one case for each shape of an instruction: the condition under which the shape completes is the one that
`canComplete` asks of its instructions. -/
theorem instructionsCompleteExactlyWhenAccessesAre : Obligations.InstructionsCompleteExactlyWhenAccessesAre := by
  unfold Obligations.InstructionsCompleteExactlyWhenAccessesAre
  intro i s
  cases i with
  | addwf f d | andwf f d | comf f d | decf f d | incf f d | iorwf f d | rlf f d | rrf f d | subwf f d | swapf f d
  | xorwf f d =>
    refine .trans ?_ (s.canComplete_iff_of_fOperand rfl).symm
    simp only [exec_addwf, exec_andwf, exec_comf, exec_decf, exec_incf, exec_iorwf, exec_rlf, exec_rrf, exec_subwf,
      exec_swapf, exec_xorwf, State.byteOriented_completes_iff]
  | decfsz f d | incfsz f d =>
    refine .trans ?_ (s.canComplete_iff_of_fOperand rfl).symm
    simp only [exec_decfsz, exec_incfsz, State.byteSkip_completes_iff]
  | movfw f | testz f =>
    refine .trans ?_ (s.canComplete_iff_of_fOperand rfl).symm
    simp only [exec_movfw, exec_testz]
    exact State.fRead_completes_iff fun _ => ⟨_, rfl⟩
  | clrf f | movwf f =>
    refine .trans ?_ (s.canComplete_iff_of_fOperand rfl).symm
    simp only [exec_clrf, exec_movwf]
    exact State.fWrite_completes_iff fun _ => ⟨_, rfl⟩
  | bcf f b | bsf f b =>
    refine .trans ?_ (s.canComplete_iff_of_fOperand rfl).symm
    simp only [exec_bcf, exec_bsf, State.bitWrite_completes_iff]
  | btfsc f b | btfss f b =>
    refine .trans ?_ (s.canComplete_iff_of_fOperand rfl).symm
    simp only [exec_btfsc, exec_btfss, State.bitTest_completes_iff]
  | movwrA r | movwrB r =>
    refine .trans ?_ (s.canComplete_iff_of_rOperand rfl).symm
    simp only [exec_movwrA, exec_movwrB, State.moveWToR_completes_iff]
  | movrw r =>
    refine .trans ?_ (s.canComplete_iff_of_rOperand rfl).symm
    rw [exec_movrw]
    exact State.rRead_completes_iff fun _ => ⟨_, rfl⟩
  | call k =>
    rw [exec_call, s.canComplete_call_iff]
    exact State.push_completes_iff fun _ => ⟨_, rfl⟩
  | ret | reti | retlw k =>
    refine .trans ?_ (s.canComplete_return_iff (by simp)).symm
    simp only [exec_ret, exec_reti, exec_retlw, State.popPc_completes_iff]
  | tblwl | tblwh =>
    refine .trans ?_ (s.canComplete_tableRead_iff rfl).symm
    simp only [exec_tblwl, exec_tblwh, State.tableRead_completes_iff]
  | clrw | addlw k | andlw k | clrwdtA | clrwdtB | goto k | iorlw k | movlw k | nop | sleepA | sleepB | xorlwA k
  | xorlwB k => exact ⟨fun _ => rfl, fun _ => ⟨_, rfl⟩⟩

end Sys2Proof.Machine
end

section
/-! PROOFS. The byte-oriented file register instructions (spec/40_byte_oriented.md R100 to R121): what the updates of a
state keep, what each shape of instruction leaves on a storage register, said once in the words of the statements, and
from these each instruction with its own arithmetic. -/

namespace Sys2Proof.Machine

/-! ### The word of an instruction of format BD, as a number (R71) -/

theorem bd_toNat (op : BitVec 6) (d : BitVec 1) (f : BitVec 7) :
    (op ++ d ++ f : BitVec 14).toNat = op.toNat * 0x100 + 0x80 * d.toNat + f.toNat := by
  have happend : (op ++ d ++ f : BitVec 14).toNat = (op ++ d : BitVec 7).toNat * 2 ^ 7 + f.toNat :=
    toNat_append_eq (op ++ d) f
  rw [happend, toNat_append_eq]
  omega

/-! ### What the updates of a state keep -/

theorem storesF_setF (s : State) (a : BitVec 7) (v : Byte) : StoresF s (s.setF a v) a v :=
  ⟨s.setF_f_self a v, fun _ hx => s.setF_f_ne v hx, fun _ => rfl⟩

theorem storesR_setR (s : State) (a : BitVec 8) (v : Byte) : StoresR s (s.setR a v) a v :=
  ⟨s.setR_r_self a v, fun _ hx => s.setR_r_ne v hx, fun _ => rfl⟩

/-- A result that is put where `d` says is there, and nowhere else (R100). -/
theorem resultIn_putDest (s : State) (d : Dest) (f : BitVec 7) (v : Byte) : ResultIn s (s.putDest d f v) d f v := by
  cases d with
  | w => exact ⟨rfl, fun _ => rfl, fun _ => rfl⟩
  | file => exact ⟨rfl, storesF_setF s f v⟩

/-- The flags are no result. -/
theorem ResultIn.setFlags {s t : State} {d : Dest} {f : BitVec 7} {v : Byte} (h : ResultIn s t d f v) (u : FlagWrite) :
    ResultIn s (t.setFlags u) d f v := by
  cases d <;> exact h

/-- PC is no result. -/
theorem ResultIn.setPc {s t : State} {d : Dest} {f : BitVec 7} {v : Byte} (h : ResultIn s t d f v) (a : PAddr) :
    ResultIn s (t.setPc a) d f v := by
  cases d <;> exact h

@[simp] theorem State.putDest_pcPlus (s : State) (d : Dest) (f : BitVec 7) (v : Byte) (n : Nat) :
    (s.putDest d f v).pcPlus n = s.pcPlus n := by
  cases d <;> rfl

theorem pcPlus_of_pc_eq {s t : State} {n : Nat} (h : t.pc = s.pcPlus n) : PcPlus s t n := by
  rw [PcPlus, h, State.pcPlus_toNat]

/-! ### What each shape leaves on a storage register -/

/-- A BD instruction on a storage register completes with its result, its flags and PC + 1 (R100, R101). -/
theorem State.byteOriented_completes {s : State} {f : BitVec 7} (d : Dest) (res : Byte → Byte)
    (flags : Byte → FlagWrite) (hf : s.fClass f = .plain) :
    ∃ t, s.byteOriented f d res flags = .next t ∧ ResultIn s t d f (res (s.f f))
      ∧ t.z = (flags (s.f f)).z.getD s.z ∧ t.c = (flags (s.f f)).c.getD s.c ∧ t.dc = (flags (s.f f)).dc.getD s.dc
      ∧ PcPlus s t 1 ∧ KeepsSystem s t := by
  refine ⟨_, State.byteOriented_plain d res flags hf, ?result, ?z, ?c, ?dc, ?pc, ?system⟩
  case result => exact ((resultIn_putDest s d f _).setFlags _).setPc _
  case pc => exact pcPlus_of_pc_eq (by simp)
  case system => simp [KeepsSystem]
  all_goals simp

/-- A BD instruction that writes Z alone, by its result (R24): Z says whatever the result's being 0 comes to. -/
theorem State.byteOriented_zero_completes {s : State} {f : BitVec 7} (d : Dest) (res : Byte → Byte) {p : Prop}
    [Decidable p] (hf : s.fClass f = .plain) (hz : res (s.f f) = 0 ↔ p) :
    ∃ t, s.byteOriented f d res (fun v => .zero (res v)) = .next t ∧ ResultIn s t d f (res (s.f f))
      ∧ t.z = decide p ∧ t.c = s.c ∧ t.dc = s.dc ∧ PcPlus s t 1 ∧ KeepsSystem s t := by
  obtain ⟨t, hexec, hres, hflag, hrest⟩ := State.byteOriented_completes d res (fun v => .zero (res v)) hf
  exact ⟨t, hexec, hres, hflag.trans (decide_eq_decide.mpr hz), hrest⟩

/-- DECFSZ and INCFSZ on a storage register complete with their result and no flag, and go as many instructions on as
they take cycles (R108, R110, R140). -/
theorem State.byteSkip_completes {s : State} {f : BitVec 7} (d : Dest) (res : Byte → Byte) {p : Prop}
    (hf : s.fClass f = .plain) (hz : res (s.f f) = 0 ↔ p) :
    ∃ t, s.byteSkip f d res = .next t ∧ ResultIn s t d f (res (s.f f))
      ∧ (p → PcPlus s t 2 ∧ skipCycles (isZero (res (s.f f))) = 2)
      ∧ (¬p → PcPlus s t 1 ∧ skipCycles (isZero (res (s.f f))) = 1)
      ∧ KeepsFlags s t ∧ KeepsSystem s t := by
  have hpc : PcPlus s ((s.putDest d f (res (s.f f))).advanceSkip (isZero (res (s.f f))))
      (skipCycles (isZero (res (s.f f)))) := pcPlus_of_pc_eq (by simp [skipCycles])
  have hskip : isZero (res (s.f f)) = true ↔ p := beq_iff_eq.trans hz
  refine ⟨_, State.byteSkip_plain d res hf, (resultIn_putDest s d f _).setPc _, fun hp => ?taken, fun hp => ?not_taken,
    by simp [KeepsFlags], by simp [KeepsSystem]⟩
  case taken =>
    have hcycles : skipCycles (isZero (res (s.f f))) = 2 := if_pos (hskip.mpr hp)
    exact ⟨hcycles ▸ hpc, hcycles⟩
  case not_taken =>
    have hcycles : skipCycles (isZero (res (s.f f))) = 1 := if_neg (mt hskip.mp hp)
    exact ⟨hcycles ▸ hpc, hcycles⟩

/-- MOVWR to a storage register completes as a store of W (R114). -/
theorem State.moveWToR_completes {s : State} {r : BitVec 8} (hr : s.rClass r = .plain) :
    ∃ t, s.moveWToR r = .next t ∧ t.w = s.w ∧ StoresR s t r s.w ∧ KeepsFlags s t ∧ PcPlus s t 1 ∧ KeepsSystem s t :=
  ⟨_, State.moveWToR_plain hr, rfl, storesR_setR s r s.w, by simp [KeepsFlags], pcPlus_of_pc_eq rfl,
    by simp [KeepsSystem]⟩

/-! ### Addition and subtraction (R102, R117) -/

theorem add8_res_eq (a b : Byte) : (add8 a b 0#1).res = BitVec.ofNat 8 (a.toNat + b.toNat) :=
  BitVec.eq_of_toNat_eq (by simp [add8_res_toNat])

theorem isZero_add8_res (a b : Byte) : isZero (add8 a b 0#1).res = decide ((a.toNat + b.toNat) % 256 = 0) := by
  simp [isZero_eq, add8_res_toNat]

theorem sub8_res_eq (a b : Byte) : (sub8 a b).res = BitVec.ofInt 8 (a.toNat - b.toNat) := by
  have hb := b.isLt
  apply BitVec.eq_of_toNat_eq
  rw [sub8_res_toNat, BitVec.toNat_ofInt]
  omega

/-- A difference is 0 exactly where the two bytes agree. -/
theorem isZero_sub8_res (a b : Byte) : isZero (sub8 a b).res = decide (a = b) := by
  have ha := a.isLt
  have hb := b.isLt
  rw [isZero_eq, sub8_res_toNat, decide_eq_decide, ← BitVec.toNat_inj]
  omega

/-- Settles O7: `add8` is the sum of R9, with its carries out of bit 7 and bit 3. -/
theorem addwfAddsWAndFile : Obligations.AddwfAddsWAndFile := by
  unfold Obligations.AddwfAddsWAndFile
  refine fun s f d => ⟨bd_toNat _ _ _, rfl, fun hf => ?_⟩
  obtain ⟨t, hexec, hres, hz, hc, hdc, hpc, hsystem⟩ :=
    State.byteOriented_completes d (fun v => (add8 v s.w 0#1).res) (fun v => .arith (add8 v s.w 0#1)) hf
  exact ⟨t, (exec_addwf f d s).trans hexec, add8_res_eq _ _ ▸ hres, hc.trans (add8_c _ _ _), hdc.trans (add8_dc _ _ _),
    hz.trans (isZero_add8_res _ _), hpc, hsystem⟩

/-- Settles O8: `sub8` is the subtraction of R9 by the two's complement, whose carries say that there is no borrow. -/
theorem subwfSubtractsWFromFile : Obligations.SubwfSubtractsWFromFile := by
  unfold Obligations.SubwfSubtractsWFromFile
  refine fun s f d => ⟨bd_toNat _ _ _, rfl, fun hf => ?_⟩
  obtain ⟨t, hexec, hres, hz, hc, hdc, hpc, hsystem⟩ :=
    State.byteOriented_completes d (fun v => (sub8 v s.w).res) (fun v => .arith (sub8 v s.w)) hf
  exact ⟨t, (exec_subwf f d s).trans hexec, sub8_res_eq _ _ ▸ hres, hc.trans (sub8_c _ _), hdc.trans (sub8_dc _ _),
    hz.trans (isZero_sub8_res _ _), hpc, hsystem⟩

/-! ### Logic, complement and counting (R103, R106 to R111, R121) -/

/-- Settles O9: the three write Z alone, and the exclusive or is 0 exactly where W and the register agree. -/
theorem logicOfWAndFile : Obligations.LogicOfWAndFile := by
  unfold Obligations.LogicOfWAndFile
  refine fun s f d => ⟨bd_toNat _ _ _, rfl, bd_toNat _ _ _, rfl, bd_toNat _ _ _, rfl, fun hf => ⟨?and, ?or, ?xor⟩⟩
  case and =>
    rw [exec_andwf]
    exact State.byteOriented_zero_completes d (fun v => s.w &&& v) hf BitVec.toNat_inj.symm
  case or =>
    rw [exec_iorwf]
    exact State.byteOriented_zero_completes d (fun v => s.w ||| v) hf BitVec.toNat_inj.symm
  case xor =>
    rw [exec_xorwf]
    exact State.byteOriented_zero_completes d (fun v => s.w ^^^ v) hf BitVec.xor_eq_zero_iff

/-- Settles O10: the complement inverts bit by bit, and is 0 exactly where every bit is 1. -/
theorem comfInvertsEveryBit : Obligations.ComfInvertsEveryBit := by
  unfold Obligations.ComfInvertsEveryBit
  refine fun s f d => ⟨bd_toNat _ _ _, rfl, fun hf => ?_⟩
  have hzero : ~~~(s.f f) = 0 ↔ s.f f = 0xFF := BitVec.not_eq_comm
  obtain ⟨t, hexec, hres, hrest⟩ := State.byteOriented_zero_completes d (fun v => ~~~v) hf hzero
  exact ⟨t, _, (exec_comf f d s).trans hexec, hres, fun n hn => by simp [hn], hrest⟩

/-- Counting up gives 0 from FFh alone. -/
theorem add_one_eq_zero_iff (v : Byte) : v + 1 = 0 ↔ v = 0xFF := add_eq_zero_iff_eq_neg

theorem add_one_eq_ofNat (v : Byte) : v + 1 = BitVec.ofNat 8 (v.toNat + 1) :=
  BitVec.eq_of_toNat_eq (by simp [BitVec.toNat_add])

/-- Counting down modulo 256 is adding 255. -/
theorem sub_one_eq_ofNat (v : Byte) : v - 1 = BitVec.ofNat 8 (v.toNat + 255) :=
  BitVec.eq_of_toNat_eq (by simp [BitVec.toNat_sub, Nat.add_comm])

/-- Settles O11: counting is modulo 256, and gives 0 from FFh upwards and from 01h downwards alone. -/
theorem incfAndDecfCountModulo256 : Obligations.IncfAndDecfCountModulo256 := by
  unfold Obligations.IncfAndDecfCountModulo256
  refine fun s f d => ⟨bd_toNat _ _ _, rfl, bd_toNat _ _ _, rfl, fun hf => ⟨?incf, ?decf⟩⟩
  case incf =>
    rw [exec_incf, ← add_one_eq_ofNat]
    exact State.byteOriented_zero_completes d (fun v => v + 1) hf (add_one_eq_zero_iff _)
  case decf =>
    rw [exec_decf, ← sub_one_eq_ofNat]
    exact State.byteOriented_zero_completes d (fun v => v - 1) hf sub_eq_zero

/-- Settles O12: the skip is taken exactly where the count is 0, for either destination. -/
theorem incfszAndDecfszSkipOnZero : Obligations.IncfszAndDecfszSkipOnZero := by
  unfold Obligations.IncfszAndDecfszSkipOnZero
  refine fun s f d => ⟨bd_toNat _ _ _, bd_toNat _ _ _, fun hf => ⟨?incfsz, ?decfsz⟩⟩
  case incfsz =>
    rw [exec_incfsz, ← add_one_eq_ofNat]
    exact State.byteSkip_completes d (fun v => v + 1) hf (add_one_eq_zero_iff _)
  case decfsz =>
    rw [exec_decfsz, ← sub_one_eq_ofNat]
    exact State.byteSkip_completes d (fun v => v - 1) hf sub_eq_zero

/-! ### Clearing, copying and exchanging nibbles (R104, R105, R112 to R114, R119) -/

/-- Settles O13: CLRF is a store of 0, and CLRW a literal instruction with the literal 0. -/
theorem clrfAndClrwClearAndSetZ : Obligations.ClrfAndClrwClearAndSetZ := by
  unfold Obligations.ClrfAndClrwClearAndSetZ
  refine fun s f => ⟨toNat_append_eq _ _, rfl, rfl, rfl, fun hf => ?clrf, ?clrw⟩
  case clrf =>
    rw [exec_clrf, State.fWrite_plain _ _ hf]
    exact ⟨_, rfl, rfl, storesF_setF s f 0, rfl, rfl, rfl, pcPlus_of_pc_eq rfl, by simp [KeepsSystem]⟩
  case clrw =>
    rw [exec_clrw]
    exact ⟨_, rfl, rfl, ⟨fun _ => rfl, fun _ => rfl⟩, rfl, rfl, rfl, pcPlus_of_pc_eq rfl, by simp [KeepsSystem]⟩

/-- Settles O14: MOVFW writes W alone, MOVWF the register alone. -/
theorem movfwAndMovwfCopy : Obligations.MovfwAndMovwfCopy := by
  unfold Obligations.MovfwAndMovwfCopy
  refine fun s f => ⟨toNat_append_eq _ _, rfl, toNat_append_eq _ _, rfl, fun hf => ⟨?movfw, ?movwf⟩⟩
  case movfw =>
    rw [exec_movfw, State.fRead_plain _ hf]
    exact ⟨_, rfl, rfl, ⟨fun _ => rfl, fun _ => rfl⟩, by simp [KeepsFlags], pcPlus_of_pc_eq rfl, by simp [KeepsSystem]⟩
  case movwf =>
    rw [exec_movwf, State.fWrite_plain _ _ hf]
    exact ⟨_, rfl, rfl, storesF_setF s f s.w, by simp [KeepsFlags], pcPlus_of_pc_eq rfl, by simp [KeepsSystem]⟩

/-- Settles O15: both codes are the one move to the R-plane, and the five words are those of NOP, SLEEP and CLRWDT, which
decode back. -/
theorem movwrWritesRPlane : Obligations.MovwrWritesRPlane := by
  unfold Obligations.MovwrWritesRPlane
  refine ⟨fun s r => ⟨toNat_append_eq _ _, rfl, fun hr => ?setA⟩, fun s r => ⟨toNat_append_eq _ _, rfl, fun hr => ?setB⟩,
    fun hasDptr => ?fixed_words⟩
  case setA => rw [exec_movwrA]; exact State.moveWToR_completes hr
  case setB => rw [exec_movwrB]; exact State.moveWToR_completes hr
  case fixed_words =>
    exact ⟨decode_encode_of_wellFormed (i := .nop) rfl, decode_encode_of_wellFormed (i := .sleepA) rfl,
      decode_encode_of_wellFormed (i := .clrwdtA) rfl, decode_encode_of_wellFormed (i := .sleepB) rfl,
      decode_encode_of_wellFormed (i := .clrwdtB) rfl⟩

/-- The low nibble of a byte above its high nibble, as a number. -/
theorem swap_nibbles_toNat (v : Byte) :
    (v.extractLsb' 0 4 ++ v.extractLsb' 4 4 : Byte).toNat = v.toNat % 16 * 16 + v.toNat / 16 := by
  have happend : (v.extractLsb' 0 4 ++ v.extractLsb' 4 4 : Byte).toNat
      = (v.extractLsb' 0 4).toNat * 2 ^ 4 + (v.extractLsb' 4 4).toNat := toNat_append_eq _ _
  have hv := v.isLt
  rw [happend, BitVec.extractLsb'_toNat, BitVec.extractLsb'_toNat, Nat.shiftRight_zero, Nat.shiftRight_eq_div_pow]
  omega

/-- Settles O18: the byte put together from the low nibble above the high one, with no flag written. -/
theorem swapfExchangesNibbles : Obligations.SwapfExchangesNibbles := by
  unfold Obligations.SwapfExchangesNibbles
  refine fun s f d => ⟨bd_toNat _ _ _, rfl, fun hf => ?_⟩
  obtain ⟨t, hexec, hres, hz, hc, hdc, hpc, hsystem⟩ :=
    State.byteOriented_completes d (fun v => v.extractLsb' 0 4 ++ v.extractLsb' 4 4) (fun _ => .nothing) hf
  have hnibbles := swap_nibbles_toNat (s.f f)
  have hbyte := (s.f f).isLt
  exact ⟨t, _, (exec_swapf f d s).trans hexec, hres, by omega, by omega, ⟨hz, hc, hdc⟩, hpc, hsystem⟩

end Sys2Proof.Machine
end

section
/-! PROOFS. The bit test instructions (spec/41_bit_oriented.md R139, R140, R143, R144): a skip goes as many instructions on
as it takes cycles, and the test of a bit leaves everything but PC as it was. -/

namespace Sys2Proof.Machine

/-! ### The word of an instruction of format BIT, as a number (R71) -/

theorem bit_toNat (op : BitVec 5) (b : BitVec 3) (f : BitVec 6) :
    (op ++ b ++ f : BitVec 14).toNat = op.toNat * 0x200 + 0x40 * b.toNat + f.toNat := by
  have happend : (op ++ b ++ f : BitVec 14).toNat = (op ++ b : BitVec 8).toNat * 2 ^ 6 + f.toNat :=
    toNat_append_eq (op ++ b) f
  rw [happend, toNat_append_eq]
  omega

/-! ### What a skip and a bit test leave -/

/-- A skip, taken or not, goes as many instructions on as it takes cycles (R140). -/
theorem State.pcPlus_advanceSkip (s : State) (taken : Bool) : PcPlus s (s.advanceSkip taken) (skipCycles taken) :=
  pcPlus_of_pc_eq rfl

/-- BTFSC and BTFSS on a storage register complete with nothing but PC written, and skip exactly where the bit has the
value they test for (R143, R144). -/
theorem State.bitTest_completes {s : State} {f : BitVec 6} (b : BitVec 3) (on : Bool)
    (hf : s.fClass (bitAddr f) = .plain) :
    ∃ t, s.bitTest f b on = .next t ∧ t.w = s.w ∧ KeepsPlanes s t ∧ KeepsFlags s t ∧ KeepsSystem s t
      ∧ ((s.f (bitAddr f)).getLsbD b.toNat = on →
        PcPlus s t 2 ∧ skipCycles ((s.f (bitAddr f)).getLsbD b.toNat == on) = 2)
      ∧ ((s.f (bitAddr f)).getLsbD b.toNat = !on →
        PcPlus s t 1 ∧ skipCycles ((s.f (bitAddr f)).getLsbD b.toNat == on) = 1) := by
  have hpc := s.pcPlus_advanceSkip ((s.f (bitAddr f)).getLsbD b.toNat == on)
  refine ⟨_, State.bitTest_plain b on hf, rfl, ⟨fun _ => rfl, fun _ => rfl⟩, by simp [KeepsFlags], by simp [KeepsSystem],
    fun hbit => ?taken, fun hbit => ?not_taken⟩
  case taken =>
    have hcycles : skipCycles ((s.f (bitAddr f)).getLsbD b.toNat == on) = 2 := by simp [hbit, skipCycles]
    exact ⟨hcycles ▸ hpc, hcycles⟩
  case not_taken =>
    have hcycles : skipCycles ((s.f (bitAddr f)).getLsbD b.toNat == on) = 1 := by simp [hbit, skipCycles]
    exact ⟨hcycles ▸ hpc, hcycles⟩

/-! ### The obligation -/

/-- Settles O21: the two are the one bit test, for the value 0 and for the value 1. -/
theorem btfscAndBtfssSkipOnTheBit : Obligations.BtfscAndBtfssSkipOnTheBit := by
  unfold Obligations.BtfscAndBtfssSkipOnTheBit
  refine fun s f b => ⟨bit_toNat _ _ _, bit_toNat _ _ _, fun hf => ⟨?btfsc, ?btfss⟩⟩
  case btfsc =>
    rw [exec_btfsc]
    exact State.bitTest_completes b false hf
  case btfss =>
    rw [exec_btfss]
    exact State.bitTest_completes b true hf

end Sys2Proof.Machine
end

section
/-! PROOFS. The literal and control instructions that neither jump nor return (spec/42_literal_control.md R150 to R165):
what a literal instruction and a table read leave, said once in the words of the statements, and from these each
instruction. -/

namespace Sys2Proof.Machine

/-! ### What a literal instruction leaves -/

/-- A literal instruction completes in every state with its result in W, its flags and PC + 1 (R150). -/
theorem State.literal_completes (s : State) (res : Byte) (flags : FlagWrite) :
    ∃ t, s.literal res flags = .next t ∧ t.w = res
      ∧ t.z = flags.z.getD s.z ∧ t.c = flags.c.getD s.c ∧ t.dc = flags.dc.getD s.dc
      ∧ KeepsPlanes s t ∧ PcPlus s t 1 ∧ KeepsSystem s t :=
  ⟨_, rfl, rfl, rfl, rfl, rfl, ⟨fun _ => rfl, fun _ => rfl⟩, pcPlus_of_pc_eq rfl, by simp [KeepsSystem]⟩

/-- A literal instruction that writes Z alone, by its result (R24): Z says whatever the result's being 0 comes to. -/
theorem State.literal_zero_completes (s : State) {res : Byte} {p : Prop} [Decidable p] (hz : res = 0 ↔ p) :
    ∃ t, s.literal res (.zero res) = .next t ∧ t.w = res ∧ t.z = decide p ∧ t.c = s.c ∧ t.dc = s.dc
      ∧ KeepsPlanes s t ∧ PcPlus s t 1 ∧ KeepsSystem s t := by
  obtain ⟨t, hexec, hw, hflag, hrest⟩ := s.literal_completes res (.zero res)
  exact ⟨t, hexec, hw, hflag.trans (decide_eq_decide.mpr hz), hrest⟩

/-! ### What a table read leaves, and the two bytes of a program word (R54, R162, R163) -/

/-- A table read inside program memory writes W and PC alone. -/
theorem State.tableRead_completes {s : State} (pick : ProgWord → Byte) (h : s.tableAddr.toNat < s.part.romSize) :
    ∃ t, s.tableRead pick = .next t ∧ t.w = pick (s.romWord s.tableAddr)
      ∧ t = { s with w := t.w, pc := t.pc } ∧ PcPlus s t 1 :=
  ⟨_, State.tableRead_inside pick h, rfl, rfl, pcPlus_of_pc_eq rfl⟩

theorem low_byte_toNat (w : ProgWord) : (w.extractLsb' 0 8).toNat = w.toNat % 256 := by
  rw [BitVec.extractLsb'_toNat, Nat.shiftRight_zero]

/-- A program word has 14 bits, so what is above its low byte fits in 6 (R54). -/
theorem high_byte_toNat (w : ProgWord) : ((w.extractLsb' 8 6).zeroExtend 8 : Byte).toNat = w.toNat / 256 := by
  have hw := w.isLt
  rw [BitVec.zeroExtend, BitVec.toNat_setWidth, BitVec.extractLsb'_toNat, Nat.shiftRight_eq_div_pow]
  omega

/-! ### The obligations -/

/-- Settles O22: `add8` is the sum of R9, with its carries out of bit 7 and bit 3. -/
theorem addlwAddsLiteral : Obligations.AddlwAddsLiteral := by
  unfold Obligations.AddlwAddsLiteral
  refine fun s k => ⟨toNat_append_eq _ _, rfl, ?_⟩
  obtain ⟨t, hexec, hw, hz, hc, hdc, hrest⟩ :=
    s.literal_completes (add8 s.w k 0#1).res (.arith (add8 s.w k 0#1))
  exact ⟨t, (exec_addlw k s).trans hexec, hw ▸ add8_res_toNat _ _ _, hc.trans (add8_c _ _ _),
    hdc.trans (add8_dc _ _ _), hz.trans (isZero_add8_res _ _), hrest⟩

/-- Settles O23: the three write Z alone, the exclusive or is 0 exactly where W is the literal, and both codes of XORLW
are the one instruction. -/
theorem logicOfWAndLiteral : Obligations.LogicOfWAndLiteral := by
  unfold Obligations.LogicOfWAndLiteral
  refine fun s k => ⟨⟨toNat_append_eq _ _, toNat_append_eq _ _, toNat_append_eq _ _, toNat_append_eq _ _⟩,
    ⟨rfl, rfl, rfl, rfl⟩, ?and, ?or, ?xor⟩
  case and =>
    rw [exec_andlw]
    exact s.literal_zero_completes BitVec.toNat_inj.symm
  case or =>
    rw [exec_iorlw]
    exact s.literal_zero_completes BitVec.toNat_inj.symm
  case xor =>
    obtain ⟨t, hexec, hrest⟩ := s.literal_zero_completes (BitVec.xor_eq_zero_iff (x := s.w) (y := k))
    exact ⟨t, (exec_xorlwA k s).trans hexec, (exec_xorlwB k s).trans hexec, hrest⟩

/-- Settles O25: both codes are the one instruction, which writes WDT, TO, PD and PC. -/
theorem clrwdtClearsWdtToAndPd : Obligations.ClrwdtClearsWdtToAndPd := by
  unfold Obligations.ClrwdtClearsWdtToAndPd
  exact fun s => ⟨rfl, rfl, rfl, rfl, _, exec_clrwdtA s, exec_clrwdtB s, rfl, pcPlus_of_pc_eq rfl⟩

/-- Settles O26: a literal instruction that writes no flag changes W and PC alone. -/
theorem movlwLoadsLiteral : Obligations.MovlwLoadsLiteral := by
  unfold Obligations.MovlwLoadsLiteral
  exact fun s k => ⟨toNat_append_eq _ _, rfl, _, exec_movlw k s, rfl, pcPlus_of_pc_eq rfl⟩

/-- Settles O27: NOP is well formed on every part, so that its word decodes back to it. -/
theorem nopOnlyMovesPc : Obligations.NopOnlyMovesPc := by
  unfold Obligations.NopOnlyMovesPc
  exact fun s => ⟨rfl, rfl, fun _ _ => decode_encode_of_wellFormed (i := .nop) rfl, _, exec_nop s, rfl,
    pcPlus_of_pc_eq rfl⟩

/-- Settles O29: the two bytes are the remainder and the quotient of the one word by 256. -/
theorem tableReadsGiveTheBytesOfTheWord : Obligations.TableReadsGiveTheBytesOfTheWord := by
  unfold Obligations.TableReadsGiveTheBytesOfTheWord
  refine fun s => ⟨s.toPAddr_toNat _, rfl, rfl, rfl, rfl, fun hinside => ?_⟩
  obtain ⟨lo, hexecLo, hlo, hframeLo, hpcLo⟩ := State.tableRead_completes (fun w => w.extractLsb' 0 8) hinside
  obtain ⟨hi, hexecHi, hhi, hframeHi, hpcHi⟩ :=
    State.tableRead_completes (fun w => (w.extractLsb' 8 6).zeroExtend 8) hinside
  have hloNat : lo.w.toNat = (s.romWord s.tableAddr).toNat % 256 := hlo ▸ low_byte_toNat _
  have hhiNat : hi.w.toNat = (s.romWord s.tableAddr).toNat / 256 := hhi ▸ high_byte_toNat _
  have hword := (s.romWord s.tableAddr).isLt
  exact ⟨lo, hi, (exec_tblwl s).trans hexecLo, (exec_tblwh s).trans hexecHi, by omega, by omega,
    hframeLo, hpcLo, hframeHi, hpcHi⟩

end Sys2Proof.Machine
end

section
/-! PROOFS. The end of a run (R215, the spec's decision D26): what the boundary leads to when none of its events happens,
said once for each mode, and why an ended run stays ended. -/

namespace Sys2Proof.Machine

/-! ### A boundary without an event (R190) -/

/-- Asleep, a boundary without reset, watchdog event and wake-up leaves the state as it arrives (R194). -/
theorem State.boundary_of_sleep {s : State} (hmode : s.mode = .sleep) (hreset : s.input.reset = false)
    (hdog : (s.input.watchdog && s.part.wdtEnabled) = false) (hwake : s.input.wake = false) :
    s.boundary = .event (.next s.arrive) := by
  simp [State.boundary, hreset, hdog, hmode, hwake]

/-- Running, a boundary without reset, watchdog event and interrupt entry lets the next instruction run (R187). -/
theorem State.boundary_of_run {s : State} (hmode : s.mode = .run) (hreset : s.input.reset = false)
    (hdog : (s.input.watchdog && s.part.wdtEnabled) = false) (hirq : (s.gie && s.input.irq) = false) :
    s.boundary = .runs s.arrive := by
  simp [State.boundary, hreset, hdog, hmode, hirq]

theorem step_of_event {s : State} {o : Out} (h : s.boundary = .event o) : step s = o := by
  rw [step, h]

theorem step_of_fetch {s t : State} {i : Instr} (h : s.boundary = .runs t) (hfetch : t.fetch = .ok i) :
    step s = exec i t := by
  simp [step, h, hfetch]

/-! ### Asleep: the wake-ups to come (R194) -/

theorem State.wakeUpAdmitted_eq_false_iff {s : State} : s.wakeUpAdmitted = false ↔ ∀ i ∈ s.env, i.wake = false := by
  simp [State.wakeUpAdmitted]

theorem State.ended_of_sleep {s : State} (h : s.mode = .sleep) : s.ended = !s.wakeUpAdmitted := by
  simp [State.ended, h]

theorem State.ended_iff_of_sleep {s : State} (h : s.mode = .sleep) :
    s.ended = true ↔ ∀ i ∈ s.env, i.wake = false := by
  rw [s.ended_of_sleep h, Bool.not_eq_true', State.wakeUpAdmitted_eq_false_iff]

/-- The input of a boundary is one of the list, or the quiet one after its end (log 7). -/
theorem State.input_mem_or_quiet (s : State) : s.input ∈ s.env ∨ s.input = Input.quiet := by
  unfold State.input
  cases s.env with
  | nil => exact .inr rfl
  | cons i rest => exact .inl List.mem_cons_self

/-- Where no wake-up is to come, none is at this boundary. -/
theorem State.input_wake_of_env {s : State} (h : ∀ i ∈ s.env, i.wake = false) : s.input.wake = false := by
  rcases s.input_mem_or_quiet with hmem | hquiet
  · exact h _ hmem
  · rw [hquiet]; rfl

/-- An ended run in Sleep: the step consumes the boundary, and what is left of the list has no wake-up either. -/
theorem step_of_ended_sleep {s : State} (hmode : s.mode = .sleep) (hended : s.ended = true)
    (hreset : s.input.reset = false) (hdog : (s.input.watchdog && s.part.wdtEnabled) = false) :
    step s = .next s.arrive ∧ s.arrive.ended = true := by
  have hnone : ∀ i ∈ s.env, i.wake = false := (s.ended_iff_of_sleep hmode).mp hended
  have hrest : ∀ i ∈ s.arrive.env, i.wake = false := fun i hi => hnone i (List.mem_of_mem_tail hi)
  exact ⟨step_of_event (s.boundary_of_sleep hmode hreset hdog (State.input_wake_of_env hnone)),
    (s.arrive.ended_iff_of_sleep hmode).mpr hrest⟩

/-! ### Running: the GOTO to its own address -/

/-- Neither the boundary's input nor WDT is in what is fetched or in where it jumps. -/
@[simp] theorem State.arrive_fetch (s : State) : s.arrive.fetch = s.fetch := rfl
@[simp] theorem State.arrive_jumpTarget (s : State) (k : BitVec 12) : s.arrive.jumpTarget k = s.jumpTarget k := rfl
@[simp] theorem State.arrive_atSelfJump (s : State) : s.arrive.atSelfJump = s.atSelfJump := rfl
@[simp] theorem State.setPc_self (s : State) : s.setPc s.pc = s := rfl

theorem State.ended_of_run {s : State} (h : s.mode = .run) : s.ended = s.atSelfJump := by
  simp [State.ended, h]

theorem State.atSelfJump_iff {s : State} :
    s.atSelfJump = true ↔ ∃ k, s.fetch = .ok (.goto k) ∧ s.jumpTarget k = s.pc := by
  unfold State.atSelfJump
  split
  · next k hfetch => simp [hfetch]
  · next hother =>
    refine ⟨fun h => absurd h Bool.false_ne_true, ?_⟩
    rintro ⟨k, hfetch, -⟩
    exact absurd hfetch (hother k)

/-- A GOTO to its own address changes nothing (R155). -/
theorem exec_goto_of_jumpTarget_eq_pc {s : State} {k : BitVec 12} (h : s.jumpTarget k = s.pc) :
    exec (.goto k) s = .next s := by
  rw [exec_goto, h, State.setPc_self]

/-- An ended run in Run: the step is the GOTO, which leaves the state as it arrives, at the same GOTO. -/
theorem step_of_ended_run {s : State} (hmode : s.mode = .run) (hended : s.ended = true)
    (hreset : s.input.reset = false) (hdog : (s.input.watchdog && s.part.wdtEnabled) = false)
    (hirq : (s.gie && s.input.irq) = false) : step s = .next s.arrive ∧ s.arrive.ended = true := by
  have hself : s.arrive.atSelfJump = true := by rw [State.arrive_atSelfJump, ← s.ended_of_run hmode, hended]
  obtain ⟨k, hfetch, htarget⟩ := State.atSelfJump_iff.mp hself
  constructor
  · calc step s = exec (.goto k) s.arrive := step_of_fetch (s.boundary_of_run hmode hreset hdog hirq) hfetch
      _ = .next s.arrive := exec_goto_of_jumpTarget_eq_pc htarget
  · rw [s.arrive.ended_of_run hmode, hself]

/-! ### The obligation -/

/-- Settles O59: asleep, the boundaries to come lose one and gain none; running, the GOTO leaves PC where it is. -/
theorem endedRunStaysEnded : Obligations.EndedRunStaysEnded := by
  unfold Obligations.EndedRunStaysEnded
  refine fun s => ⟨State.ended_iff_of_sleep, fun hended hreset hdog hirq => ?_⟩
  cases hmode : s.mode with
  | sleep => exact step_of_ended_sleep hmode hended hreset hdog
  | run => exact step_of_ended_run hmode hended hreset hdog (hirq hmode)

end Sys2Proof.Machine
end

section
/-! PROOFS. Decoding read backwards (spec/30_encoding.md R70 to R82): a word is put together from its fields, for every
format of R71, and so whatever the decoder accepts has the word it was read from. -/

namespace Sys2Proof

open Machine

/-! ### Fields and bits of a word, as numbers (R71, R72) -/

theorem fField_toNat (w : ProgWord) : (fField w).toNat = w.toNat % 0x80 := by
  rw [fField, BitVec.extractLsb'_toNat, Nat.shiftRight_zero]

theorem bitFField_toNat (w : ProgWord) : (bitFField w).toNat = w.toNat % 0x40 := by
  rw [bitFField, BitVec.extractLsb'_toNat, Nat.shiftRight_zero]

theorem bField_toNat (w : ProgWord) : (bField w).toNat = w.toNat / 0x40 % 8 := by
  rw [bField, BitVec.extractLsb'_toNat, Nat.shiftRight_eq_div_pow]

theorem r6Field_toNat (w : ProgWord) : (r6Field w).toNat = w.toNat % 0x40 := by
  rw [r6Field, BitVec.extractLsb'_toNat, Nat.shiftRight_zero]

theorem r8Field_toNat (w : ProgWord) : (r8Field w).toNat = w.toNat % 0x100 := by
  rw [r8Field, BitVec.extractLsb'_toNat, Nat.shiftRight_zero]

theorem k12Field_toNat (w : ProgWord) : (k12Field w).toNat = w.toNat % 0x1000 := by
  rw [k12Field, BitVec.extractLsb'_toNat, Nat.shiftRight_zero]

theorem bit6_iff (w : ProgWord) : w.getLsbD 6 = true ↔ w.toNat / 0x40 % 2 = 1 := by
  simp [BitVec.getLsbD, Nat.testBit_eq_decide_div_mod_eq]

theorem bit7_iff (w : ProgWord) : w.getLsbD 7 = true ↔ w.toNat / 0x80 % 2 = 1 := by
  simp [BitVec.getLsbD, Nat.testBit_eq_decide_div_mod_eq]

theorem dField_bit_toNat (w : ProgWord) : (dField w).bit.toNat = w.toNat / 0x80 % 2 := by
  by_cases h : w.getLsbD 7 = true
  · rw [dField, if_pos h, (bit7_iff w).mp h]; rfl
  · have hbit := mt (bit7_iff w).mpr h
    rw [dField, if_neg h]
    show 0 = _
    omega

/-! ### A word put together from its opcode and its fields (R71) -/

theorem bd_word {w : ProgWord} {op : BitVec 6} (h : w.toNat / 0x100 = op.toNat) :
    op ++ (dField w).bit ++ fField w = w :=
  BitVec.eq_of_toNat_eq (by rw [bd_toNat, dField_bit_toNat, fField_toNat]; omega)

theorem bf_word {w : ProgWord} {op : BitVec 7} (h : w.toNat / 0x80 = op.toNat) : op ++ fField w = w :=
  BitVec.eq_of_toNat_eq (by
    refine (toNat_append_eq op (fField w)).trans ?_
    rw [fField_toNat]; omega)

theorem r6_word {w : ProgWord} {op : BitVec 8} (h : w.toNat / 0x40 = op.toNat) : op ++ r6Field w = w :=
  BitVec.eq_of_toNat_eq (by
    refine (toNat_append_eq op (r6Field w)).trans ?_
    rw [r6Field_toNat]; omega)

theorem r8_word {w : ProgWord} {op : BitVec 6} (h : w.toNat / 0x100 = op.toNat) : op ++ r8Field w = w :=
  BitVec.eq_of_toNat_eq (by
    refine (toNat_append_eq op (r8Field w)).trans ?_
    rw [r8Field_toNat]; omega)

theorem k8_word {w : ProgWord} {op : BitVec 6} (h : w.toNat / 0x100 = op.toNat) : op ++ k8Field w = w := r8_word h

theorem bit_word {w : ProgWord} {op : BitVec 5} (h : w.toNat / 0x200 = op.toNat) :
    op ++ bField w ++ bitFField w = w :=
  BitVec.eq_of_toNat_eq (by rw [bit_toNat, bField_toNat, bitFField_toNat]; omega)

theorem k12_word {w : ProgWord} {op : BitVec 2} (h : w.toNat / 0x1000 = op.toNat) : op ++ k12Field w = w :=
  BitVec.eq_of_toNat_eq (by
    refine (toNat_append_eq op (k12Field w)).trans ?_
    rw [k12Field_toNat]; omega)

/-! ### The opcode bits the decoder looks at, as numbers -/

theorem top_eq_iff (w : ProgWord) (op : BitVec 2) : w.extractLsb' 12 2 = op ↔ w.toNat / 0x1000 = op.toNat := by
  have hw := w.isLt
  rw [← BitVec.toNat_inj, BitVec.extractLsb'_toNat, Nat.shiftRight_eq_div_pow]
  omega

/-- Below 2000h bits 12..8 are the word's page. -/
theorem page_of_low {w : ProgWord} {op : BitVec 5} (hcall : w.extractLsb' 12 2 ≠ 0b10#2)
    (hgoto : w.extractLsb' 12 2 ≠ 0b11#2) (h : w.extractLsb' 8 5 = op) : w.toNat / 0x100 = op.toNat := by
  have hw := w.isLt
  rw [ne_eq, top_eq_iff] at hcall hgoto
  rw [← BitVec.toNat_inj, BitVec.extractLsb'_toNat, Nat.shiftRight_eq_div_pow] at h
  simp only [BitVec.reduceToNat] at hcall hgoto h
  omega

theorem extract_page_bits (w : ProgWord) : (w.extractLsb' 8 5).extractLsb' 0 2 = w.extractLsb' 8 2 := by
  apply BitVec.eq_of_toNat_eq
  simp only [BitVec.extractLsb'_toNat, Nat.shiftRight_eq_div_pow]
  omega

/-! ### The decoder, page by page (R77, R78) -/

/-- The instruction has the word `w` and is one of every part. -/
def Instr.OnEveryPart (i : Instr) (w : ProgWord) : Prop :=
  encode i = w ∧ ∀ iset hasDptr, i.wellFormed iset hasDptr = true

/-- What the decoder does with a word, by the page of 256 words in which it lies: three places where the parts differ,
and everywhere else an instruction that every part has. -/
theorem decode_pages (iset : ISet) (hasDptr : Bool) (w : ProgWord) :
    (w.toNat / 0x100 = 0x00 ∧ decode iset hasDptr w = decodePage00 iset hasDptr w)
    ∨ (w.toNat / 0x100 = 0x01 ∧ decode iset hasDptr w = decodePage01 w)
    ∨ (0x1D ≤ w.toNat / 0x100 ∧ w.toNat / 0x100 ≤ 0x1F
      ∧ decode iset hasDptr w = decodePage1D iset (w.extractLsb' 8 2) w)
    ∨ (2 ≤ w.toNat / 0x100 ∧ (w.toNat / 0x100 < 0x1D ∨ 0x20 ≤ w.toNat / 0x100)
      ∧ ∃ i, decode iset hasDptr w = .ok i ∧ i.OnEveryPart w) := by
  unfold decode
  split
  case h_1 hcall =>
    have htop : w.toNat / 0x1000 = 2 := (top_eq_iff w _).mp hcall
    exact .inr (.inr (.inr ⟨by omega, by omega, _, rfl, k12_word htop, fun _ _ => rfl⟩))
  case h_2 hgoto =>
    have htop : w.toNat / 0x1000 = 3 := (top_eq_iff w _).mp hgoto
    exact .inr (.inr (.inr ⟨by omega, by omega, _, rfl, k12_word htop, fun _ _ => rfl⟩))
  split
  case h_30 =>
    have hlow : ¬ (w.extractLsb' 8 5).toNat < 0x1D := fun hlt => by
      simp only [imp_false] at *
      bv_omega
    have hpage := page_of_low ‹_› ‹_› (Eq.refl (w.extractLsb' 8 5))
    have hop := (w.extractLsb' 8 5).isLt
    exact .inr (.inr (.inl ⟨by omega, by omega, congrArg (decodePage1D iset · w) (extract_page_bits w)⟩))
  all_goals
    rename_i hcall hgoto _ hop
    have hpage := page_of_low hcall hgoto hop
    simp only [BitVec.reduceToNat] at hpage
  case h_1 => exact .inl ⟨hpage, rfl⟩
  case h_2 => exact .inr (.inl ⟨hpage, rfl⟩)
  all_goals refine .inr (.inr (.inr ⟨by omega, by omega, ?_⟩))
  case h_3 | h_4 | h_5 | h_6 | h_7 | h_8 | h_10 | h_11 | h_12 | h_13 | h_14 | h_15 | h_16 =>
    exact ⟨_, rfl, bd_word hpage, fun _ _ => rfl⟩
  case h_9 =>
    split
    case isTrue hbit =>
      rw [bit7_iff] at hbit
      exact ⟨_, rfl, bf_word (by simp only [BitVec.reduceToNat]; omega), fun _ _ => rfl⟩
    case isFalse hbit =>
      rw [bit7_iff] at hbit
      exact ⟨_, rfl, bf_word (by simp only [BitVec.reduceToNat]; omega), fun _ _ => rfl⟩
  case h_17 | h_18 | h_19 | h_20 | h_21 | h_22 | h_23 | h_24 =>
    exact ⟨_, rfl, bit_word (by simp only [BitVec.reduceToNat]; omega), fun _ _ => rfl⟩
  case h_25 | h_26 | h_27 | h_28 | h_29 => exact ⟨_, rfl, k8_word hpage, fun _ _ => rfl⟩

/-! ### What is accepted in the three places -/

/-- MOVWR of set A is reached for the words that are not NOP, SLEEP or CLRWDT (R76). -/
theorem movwrA_of_word {w : ProgWord} (hasDptr : Bool) (hw : w.toNat < 0x40) (h0 : w ≠ 0x0000) (h3 : w ≠ 0x0003)
    (h4 : w ≠ 0x0004) :
    encode (.movwrA (r6Field w)) = w ∧ (Instr.movwrA (r6Field w)).wellFormed .a hasDptr = true := by
  have henc : encode (.movwrA (r6Field w)) = w := r6_word (Nat.div_eq_of_lt hw)
  have hne (v : ProgWord) (hv : w ≠ v) (r : BitVec 6) (hr : encode (.movwrA r) = v) : r6Field w ≠ r :=
    fun h => hv (by rw [← henc, h, hr])
  exact ⟨henc, wellFormed_movwrA_iff.mpr ⟨rfl, hne _ h0 _ rfl, hne _ h3 _ rfl, hne _ h4 _ rfl⟩⟩

/-- MOVWR of set B is reached for the words that are not SLEEP or CLRWDT (R76). -/
theorem movwrB_of_word {w : ProgWord} (hasDptr : Bool) (hw : w.toNat / 0x100 = 0x1E) (h3 : w ≠ 0x1E03)
    (h4 : w ≠ 0x1E04) :
    encode (.movwrB (r8Field w)) = w ∧ (Instr.movwrB (r8Field w)).wellFormed .b hasDptr = true := by
  have henc : encode (.movwrB (r8Field w)) = w := r8_word hw
  have hne (v : ProgWord) (hv : w ≠ v) (r : BitVec 8) (hr : encode (.movwrB r) = v) : r8Field w ≠ r :=
    fun h => hv (by rw [← henc, h, hr])
  exact ⟨henc, wellFormed_movwrB_iff.mpr ⟨rfl, hne _ h3 _ rfl, hne _ h4 _ rfl⟩⟩

theorem encode_of_decodePage00 {iset : ISet} {hasDptr : Bool} {w : ProgWord} {i : Instr}
    (hpage : w.toNat / 0x100 = 0x00) (h : decodePage00 iset hasDptr w = .ok i) :
    encode i = w ∧ i.wellFormed iset hasDptr = true := by
  unfold decodePage00 at h
  split at h
  case isTrue hbit =>
    cases h
    rw [bit7_iff] at hbit
    exact ⟨bf_word (by simp only [BitVec.reduceToNat]; omega), rfl⟩
  case isFalse hbit7 =>
  rw [bit7_iff] at hbit7
  split at h
  case isTrue h0 => cases h; exact ⟨h0.symm, rfl⟩
  case isFalse h0 =>
  split at h
  case isTrue hret => cases h; exact ⟨hret.symm, rfl⟩
  split at h
  case isTrue hreti => cases h; exact ⟨hreti.symm, rfl⟩
  split at h
  case isTrue htblwl =>
    cases hasDptr <;> cases h
    exact ⟨htblwl.symm, rfl⟩
  split at h
  case isTrue htblwh =>
    cases hasDptr <;> cases h
    exact ⟨htblwh.symm, rfl⟩
  split at h
  case isTrue => cases h
  case isFalse hbit6 =>
  rw [bit6_iff] at hbit6
  cases iset with
  | b => cases h
  | a =>
    simp only at h
    split at h
    case isTrue h3 => cases h; exact ⟨h3.symm, rfl⟩
    case isFalse h3 =>
    split at h
    case isTrue h4 => cases h; exact ⟨h4.symm, rfl⟩
    case isFalse h4 => cases h; exact movwrA_of_word hasDptr (by omega) h0 h3 h4

theorem encode_of_decodePage01 {iset : ISet} {hasDptr : Bool} {w : ProgWord} {i : Instr}
    (hpage : w.toNat / 0x100 = 0x01) (h : decodePage01 w = .ok i) :
    encode i = w ∧ i.wellFormed iset hasDptr = true := by
  unfold decodePage01 at h
  split at h
  case isTrue hbit =>
    cases h
    rw [bit7_iff] at hbit
    exact ⟨bf_word (by simp only [BitVec.reduceToNat]; omega), rfl⟩
  case isFalse =>
    split at h
    case isTrue hclrw => cases h; exact ⟨hclrw.symm, rfl⟩
    case isFalse => cases h

theorem op_eq_iff (w : ProgWord) (op : BitVec 2) : w.extractLsb' 8 2 = op ↔ w.toNat / 0x100 % 4 = op.toNat := by
  rw [← BitVec.toNat_inj, BitVec.extractLsb'_toNat, Nat.shiftRight_eq_div_pow]

theorem encode_of_decodePage1D {iset : ISet} {hasDptr : Bool} {w : ProgWord} {i : Instr}
    (hlow : 0x1D ≤ w.toNat / 0x100) (hhigh : w.toNat / 0x100 ≤ 0x1F)
    (h : decodePage1D iset (w.extractLsb' 8 2) w = .ok i) : encode i = w ∧ i.wellFormed iset hasDptr = true := by
  unfold decodePage1D at h
  simp only [op_eq_iff, BitVec.reduceToNat] at h
  cases iset with
  | a =>
    simp only at h
    split at h
    case isTrue h1F => cases h; exact ⟨k8_word (by simp only [BitVec.reduceToNat]; omega), rfl⟩
    case isFalse => cases h
  | b =>
    simp only at h
    split at h
    case isTrue h1D => cases h; exact ⟨k8_word (by simp only [BitVec.reduceToNat]; omega), rfl⟩
    split at h
    case isTrue h1F => cases h; exact ⟨r8_word (by simp only [BitVec.reduceToNat]; omega), rfl⟩
    split at h
    case isTrue hsleep => cases h; exact ⟨hsleep.symm, rfl⟩
    split at h
    case isTrue hclrwdt => cases h; exact ⟨hclrwdt.symm, rfl⟩
    case isFalse => cases h; exact movwrB_of_word hasDptr (by omega) ‹_› ‹_›

/-- Whatever the decoder accepts is an instruction of the part, with the word it was read from. -/
theorem encode_of_decode {iset : ISet} {hasDptr : Bool} {w : ProgWord} {i : Instr}
    (h : decode iset hasDptr w = .ok i) : encode i = w ∧ i.wellFormed iset hasDptr = true := by
  rcases decode_pages iset hasDptr w with ⟨hpage, hdec⟩ | ⟨hpage, hdec⟩ | ⟨hlow, hhigh, hdec⟩ | ⟨-, -, j, hdec, hw, hwf⟩
  · exact encode_of_decodePage00 hpage (hdec ▸ h)
  · exact encode_of_decodePage01 hpage (hdec ▸ h)
  · exact encode_of_decodePage1D hlow hhigh (hdec ▸ h)
  · obtain rfl : j = i := by simpa [hdec] using h
    exact ⟨hw, hwf iset hasDptr⟩

/-! ### The obligations -/

/-- Settles O1: one case for each format of R71. -/
theorem decodeOfEncodeIsIdentity : Obligations.DecodeOfEncodeIsIdentity := by
  unfold Obligations.DecodeOfEncodeIsIdentity
  exact fun _ _ _ h => decode_encode_of_wellFormed h

/-- Settles O2: the decoder's pages, each with the words its fields put together again. -/
theorem encodeOfDecodeIsIdentity : Obligations.EncodeOfDecodeIsIdentity := by
  unfold Obligations.EncodeOfDecodeIsIdentity
  exact fun _ _ _ _ h => encode_of_decode h

end Sys2Proof
end

section
/-! PROOFS. What an instruction comes to, said once for the whole set: the fault that stops it, or the state it leaves.
From this, what instructions write and read (spec/10_state.md R21 to R29; spec/20_memory.md R53). -/

namespace Sys2Proof.Machine

/-! ### The fault that stops an instruction, and the state that it leaves -/

/-- Whether an operand register is read first or only written (R104, R113, R114). -/
def operandAccess : Instr → Access
  | .clrf _ | .movwf _ | .movwrA _ | .movwrB _ => .write
  | _ => .read

/-- The fault of an access to an F-plane address that is not storage (R50). -/
def State.fStop (s : State) (a : BitVec 7) (x : Access) : Option Fault :=
  if s.fClass a = .plain then none else some (.registerNotModelled .f a.toNat x)

/-- The fault of an access to an R-plane address that is not storage (R51). -/
def State.rStop (s : State) (a : BitVec 8) (x : Access) : Option Fault :=
  if s.rClass a = .plain then none else some (.registerNotModelled .r a.toNat x)

/-- The fault an instruction stops with, if it stops (R23, R50 to R52). -/
def State.stop (s : State) (i : Instr) : Option Fault :=
  match i.fOperand, i.rOperand, i with
  | some a, _, _ => s.fStop a (operandAccess i)
  | _, some a, _ => s.rStop a (operandAccess i)
  | _, _, .call _ => if s.stk.length < s.part.stackDepth then none else some (.stackOverflow s.pc)
  | _, _, .ret | _, _, .reti | _, _, .retlw _ => if s.stk ≠ [] then none else some (.stackUnderflow s.pc)
  | _, _, .tblwl | _, _, .tblwh =>
    if s.tableAddr.toNat < s.part.romSize then none else some (.romReadOutOfRange s.tableAddr)
  | _, _, _ => none

/-- The state after a BD instruction on a storage register. -/
@[simp] def State.afterByte (s : State) (f : BitVec 7) (d : Dest) (res : Byte) (flags : FlagWrite) : State :=
  ((s.putDest d f res).setFlags flags).advance

/-- The state after a literal instruction. -/
@[simp] def State.afterLiteral (s : State) (res : Byte) (flags : FlagWrite) : State :=
  ((s.setW res).setFlags flags).advance

/-- The state after a return on a stack that is not empty. -/
@[simp] def State.afterReturn (s : State) : State := (s.setStk s.stk.tail).setPc (s.stk.headD 0)

/-- The state an instruction leaves where nothing stops it. -/
def State.after (s : State) : Instr → State
  | .addwf f d => s.afterByte f d (add8 (s.f f) s.w 0#1).res (.arith (add8 (s.f f) s.w 0#1))
  | .subwf f d => s.afterByte f d (sub8 (s.f f) s.w).res (.arith (sub8 (s.f f) s.w))
  | .andwf f d => s.afterByte f d (s.w &&& s.f f) (.zero (s.w &&& s.f f))
  | .iorwf f d => s.afterByte f d (s.w ||| s.f f) (.zero (s.w ||| s.f f))
  | .xorwf f d => s.afterByte f d (s.w ^^^ s.f f) (.zero (s.w ^^^ s.f f))
  | .comf f d => s.afterByte f d (~~~(s.f f)) (.zero (~~~(s.f f)))
  | .decf f d => s.afterByte f d (s.f f - 1) (.zero (s.f f - 1))
  | .incf f d => s.afterByte f d (s.f f + 1) (.zero (s.f f + 1))
  | .rlf f d => s.afterByte f d ((s.f f).extractLsb' 0 7 ++ BitVec.ofBool s.c) (.carry ((s.f f).getLsbD 7))
  | .rrf f d => s.afterByte f d (BitVec.ofBool s.c ++ (s.f f).extractLsb' 1 7) (.carry ((s.f f).getLsbD 0))
  | .swapf f d => s.afterByte f d ((s.f f).extractLsb' 0 4 ++ (s.f f).extractLsb' 4 4) .nothing
  | .decfsz f d => (s.putDest d f (s.f f - 1)).advanceSkip (isZero (s.f f - 1))
  | .incfsz f d => (s.putDest d f (s.f f + 1)).advanceSkip (isZero (s.f f + 1))
  | .clrf f => ((s.setF f 0).setFlags (.zero 0)).advance
  | .movfw f => (s.setW (s.f f)).advance
  | .movwf f => (s.setF f s.w).advance
  | .testz f => (s.setFlags (.zero (s.f f))).advance
  | .movwrA r => (s.setR (r.zeroExtend 8) s.w).advance
  | .movwrB r => (s.setR r s.w).advance
  | .movrw r => (s.setW (s.r r)).advance
  | .bcf f b => (s.setF (bitAddr f) (s.f (bitAddr f) &&& ~~~(bitMask b))).advance
  | .bsf f b => (s.setF (bitAddr f) (s.f (bitAddr f) ||| bitMask b)).advance
  | .btfsc f b => s.advanceSkip ((s.f (bitAddr f)).getLsbD b.toNat == false)
  | .btfss f b => s.advanceSkip ((s.f (bitAddr f)).getLsbD b.toNat == true)
  | .clrw => s.afterLiteral 0 (.zero 0)
  | .addlw k => s.afterLiteral (add8 s.w k 0#1).res (.arith (add8 s.w k 0#1))
  | .andlw k => s.afterLiteral (s.w &&& k) (.zero (s.w &&& k))
  | .iorlw k => s.afterLiteral (s.w ||| k) (.zero (s.w ||| k))
  | .xorlwA k | .xorlwB k => s.afterLiteral (s.w ^^^ k) (.zero (s.w ^^^ k))
  | .movlw k => s.afterLiteral k .nothing
  | .call k => (s.setStk (s.pcPlus 1 :: s.stk)).setPc (s.jumpTarget k)
  | .goto k => s.setPc (s.jumpTarget k)
  | .ret => s.afterReturn
  | .reti => s.afterReturn.setGie true
  | .retlw k => s.afterReturn.setW k
  | .tblwl => (s.setW ((s.romWord s.tableAddr).extractLsb' 0 8)).advance
  | .tblwh => (s.setW (((s.romWord s.tableAddr).extractLsb' 8 6).zeroExtend 8)).advance
  | .clrwdtA | .clrwdtB => ((s.setWdt 0).setToPd false false).advance
  | .sleepA | .sleepB => ((s.setToPd false true).setMode .sleep).advance
  | .nop => s.advance

/-- A fault if there is one, else the next state. -/
def outcome : Option Fault → State → Out
  | none, t => .next t
  | some e, _ => .fault e

@[simp] theorem outcome_eq_next_iff {e : Option Fault} {t t' : State} :
    outcome e t = .next t' ↔ e = none ∧ t' = t := by
  cases e <;> simp [outcome, eq_comm]

theorem stop_if_eq_none_iff {p : Prop} [Decidable p] {e : Fault} : (if p then none else some e) = none ↔ p := by
  simp

/-! ### Each shape as an outcome -/

theorem eq_outcome_of_cases {p : Prop} [Decidable p] {o : Out} {e : Fault} {t : State} (hp : p → o = .next t)
    (hn : ¬p → o = .fault e) : o = outcome (if p then none else some e) t := by
  by_cases h : p
  · rw [if_pos h, hp h]; rfl
  · rw [if_neg h, hn h]; rfl

theorem State.fRead_eq_outcome (s : State) (a : BitVec 7) (k : Byte → Out) {t : State}
    (hk : k (s.f a) = .next t) : s.fRead a k = outcome (s.fStop a .read) t :=
  eq_outcome_of_cases (fun h => (State.fRead_plain k h).trans hk) (State.fRead_not_plain k)

theorem State.fWrite_eq_outcome (s : State) (a : BitVec 7) (v : Byte) (k : State → Out) {t : State}
    (hk : k (s.setF a v) = .next t) : s.fWrite a v k = outcome (s.fStop a .write) t :=
  eq_outcome_of_cases (fun h => (State.fWrite_plain v k h).trans hk) (State.fWrite_not_plain v k)

theorem State.rRead_eq_outcome (s : State) (a : BitVec 8) (k : Byte → Out) {t : State} (hk : k (s.r a) = .next t) :
    s.rRead a k = outcome (s.rStop a .read) t :=
  eq_outcome_of_cases (fun h => (State.rRead_plain k h).trans hk) (State.rRead_not_plain k)

theorem State.moveWToR_eq_outcome (s : State) (r : BitVec 8) :
    s.moveWToR r = outcome (s.rStop r .write) (s.setR r s.w).advance :=
  eq_outcome_of_cases State.moveWToR_plain (State.rWrite_not_plain _ _)

theorem State.byteOriented_eq_outcome (s : State) (f : BitVec 7) (d : Dest) (res : Byte → Byte)
    (flags : Byte → FlagWrite) :
    s.byteOriented f d res flags = outcome (s.fStop f .read) (s.afterByte f d (res (s.f f)) (flags (s.f f))) :=
  eq_outcome_of_cases (State.byteOriented_plain d res flags) (State.fRead_not_plain _)

theorem State.byteSkip_eq_outcome (s : State) (f : BitVec 7) (d : Dest) (res : Byte → Byte) :
    s.byteSkip f d res
      = outcome (s.fStop f .read) ((s.putDest d f (res (s.f f))).advanceSkip (isZero (res (s.f f)))) :=
  eq_outcome_of_cases (State.byteSkip_plain d res) (State.fRead_not_plain _)

theorem State.bitWrite_eq_outcome (s : State) (f : BitVec 6) (op : Byte → Byte) :
    s.bitWrite f op
      = outcome (s.fStop (bitAddr f) .read) (s.setF (bitAddr f) (op (s.f (bitAddr f)))).advance :=
  eq_outcome_of_cases (State.bitWrite_plain op) (State.fRead_not_plain _)

theorem State.bitTest_eq_outcome (s : State) (f : BitVec 6) (b : BitVec 3) (on : Bool) :
    s.bitTest f b on
      = outcome (s.fStop (bitAddr f) .read) (s.advanceSkip ((s.f (bitAddr f)).getLsbD b.toNat == on)) :=
  eq_outcome_of_cases (State.bitTest_plain b on) (State.fRead_not_plain _)

theorem State.popPc_eq_outcome (s : State) (k : State → State) :
    s.popPc k = outcome (if s.stk ≠ [] then none else some (.stackUnderflow s.pc)) (k s.afterReturn) := by
  refine eq_outcome_of_cases (fun hne => ?_) fun h => State.pop_nil _ (not_ne_iff.mp h)
  obtain ⟨a, rest, hs⟩ := List.exists_cons_of_ne_nil hne
  simp [State.popPc, State.pop_cons _ hs, hs]

theorem State.tableRead_eq_outcome (s : State) (pick : ProgWord → Byte) :
    s.tableRead pick
      = outcome (if s.tableAddr.toNat < s.part.romSize then none else some (.romReadOutOfRange s.tableAddr))
          (s.setW (pick (s.romWord s.tableAddr))).advance :=
  eq_outcome_of_cases (State.tableRead_inside pick) (State.tableRead_outside pick)

/-! ### Every instruction -/

/-- An instruction stops with its fault, or leaves the state after it. -/
theorem exec_eq_outcome (i : Instr) (s : State) : exec i s = outcome (s.stop i) (s.after i) := by
  cases i with
  | addwf f d | andwf f d | comf f d | decf f d | incf f d | iorwf f d | rlf f d | rrf f d | subwf f d | swapf f d
  | xorwf f d =>
    simp only [exec_addwf, exec_andwf, exec_comf, exec_decf, exec_incf, exec_iorwf, exec_rlf, exec_rrf, exec_subwf,
      exec_swapf, exec_xorwf]
    exact .trans (s.byteOriented_eq_outcome f d _ _) rfl
  | decfsz f d | incfsz f d =>
    simp only [exec_decfsz, exec_incfsz]
    exact .trans (s.byteSkip_eq_outcome f d _) rfl
  | movfw f | testz f =>
    simp only [exec_movfw, exec_testz]
    exact s.fRead_eq_outcome f _ rfl
  | clrf f | movwf f =>
    simp only [exec_clrf, exec_movwf]
    exact s.fWrite_eq_outcome f _ _ rfl
  | bcf f b | bsf f b =>
    simp only [exec_bcf, exec_bsf]
    exact .trans (s.bitWrite_eq_outcome f _) rfl
  | btfsc f b | btfss f b =>
    simp only [exec_btfsc, exec_btfss]
    exact s.bitTest_eq_outcome f b _
  | movwrA r | movwrB r =>
    simp only [exec_movwrA, exec_movwrB]
    exact s.moveWToR_eq_outcome _
  | movrw r =>
    rw [exec_movrw]
    exact s.rRead_eq_outcome r _ rfl
  | call k =>
    rw [exec_call]
    exact eq_outcome_of_cases (State.push_room _ _) fun h => State.push_full _ _ (Nat.not_lt.mp h)
  | ret | reti | retlw k =>
    simp only [exec_ret, exec_reti, exec_retlw]
    exact s.popPc_eq_outcome _
  | tblwl | tblwh =>
    simp only [exec_tblwl, exec_tblwh]
    exact s.tableRead_eq_outcome _
  | clrw | addlw k | andlw k | clrwdtA | clrwdtB | goto k | iorlw k | movlw k | nop | sleepA | sleepB | xorlwA k
  | xorlwB k => rfl

/-- An instruction that answers a next state was not stopped, and leaves the state after it. -/
theorem exec_next {i : Instr} {s t : State} (h : exec i s = .next t) : s.stop i = none ∧ t = s.after i :=
  outcome_eq_next_iff.mp (exec_eq_outcome i s ▸ h)

theorem exec_of_stop {i : Instr} {s : State} {e : Fault} (h : s.stop i = some e) : exec i s = .fault e := by
  rw [exec_eq_outcome, h]; rfl

theorem exec_of_not_stopped {i : Instr} {s : State} (h : s.stop i = none) : exec i s = .next (s.after i) := by
  rw [exec_eq_outcome, h]; rfl

/-! ### Where an access has no meaning (R23, R50 to R52, R181) -/

theorem State.fStop_of_not_plain {s : State} {a : BitVec 7} (x : Access) (h : s.fClass a ≠ .plain) :
    s.fStop a x = some (.registerNotModelled .f a.toNat x) := if_neg h

theorem State.rStop_of_not_plain {s : State} {a : BitVec 8} (x : Access) (h : s.rClass a ≠ .plain) :
    s.rStop a x = some (.registerNotModelled .r a.toNat x) := if_neg h

/-- Settles O35: each clause is the fault that stops the instruction, by the access that its operand makes. -/
theorem undescribedAccessesFault : Obligations.UndescribedAccessesFault := by
  unfold Obligations.UndescribedAccessesFault
  refine fun i s => ⟨fun a ha hc => ?fplane, fun a ha hc => ?rplane, fun k hi hfull => ?full, fun hi hempty => ?empty,
    fun hi hout => ?outside, State.push_full _ _⟩
  case fplane => cases i <;> cases ha <;> exact exec_of_stop (State.fStop_of_not_plain _ hc)
  case rplane => cases i <;> cases ha <;> exact exec_of_stop (State.rStop_of_not_plain _ hc)
  case full => subst hi; exact exec_of_stop (if_neg (Nat.not_lt.mpr hfull))
  case empty => obtain rfl | rfl | ⟨k, rfl⟩ := hi <;> exact exec_of_stop (if_neg (not_ne_iff.mpr hempty))
  case outside => cases i <;> cases hi <;> exact exec_of_stop (if_neg (Nat.not_lt.mpr hout))

/-! ### What an instruction leaves as it was (R21 to R29, R53) -/

theorem State.after_z {i : Instr} (s : State) (h : i.writesZ = false) : (s.after i).z = s.z := by
  cases i <;> cases h <;> simp [State.after, FlagWrite.carry,
    FlagWrite.nothing]

theorem State.after_c {i : Instr} (s : State) (h : i.writesC = false) : (s.after i).c = s.c := by
  cases i <;> cases h <;> simp [State.after, FlagWrite.zero,
    FlagWrite.nothing]

theorem State.after_dc {i : Instr} (s : State) (h : i.writesDc = false) : (s.after i).dc = s.dc := by
  cases i <;> cases h <;> simp [State.after, FlagWrite.carry,
    FlagWrite.zero, FlagWrite.nothing]

theorem State.after_gie {i : Instr} (s : State) (h : i ≠ .reti) : (s.after i).gie = s.gie := by
  cases i with
  | reti => exact absurd rfl h
  | _ => simp [State.after]

theorem State.after_wdt {i : Instr} (s : State) (h : i.isClrwdt = false) : (s.after i).wdt = s.wdt := by
  cases i <;> cases h <;> simp [State.after]

theorem State.after_mode {i : Instr} (s : State) (h : i.isSleep = false) : (s.after i).mode = s.mode := by
  cases i <;> cases h <;> simp [State.after]

theorem State.after_toPd {i : Instr} (s : State) (hc : i.isClrwdt = false) (hs : i.isSleep = false) :
    (s.after i).toFlag = s.toFlag ∧ (s.after i).pdFlag = s.pdFlag := by
  cases i <;> cases hc <;> cases hs <;>
    simp [State.after]

theorem State.after_stk {i : Instr} (s : State) (h : i.usesStack = false) : (s.after i).stk = s.stk := by
  cases i <;> cases h <;> simp [State.after]

@[simp] theorem State.after_part (s : State) (i : Instr) : (s.after i).part = s.part := by
  cases i <;> simp [State.after]

@[simp] theorem State.after_rom (s : State) (i : Instr) : (s.after i).rom = s.rom := by
  cases i <;> simp [State.after]

theorem State.after_f {i : Instr} {a : BitVec 7} (s : State) (h : i.fStored ≠ some a) : (s.after i).f a = s.f a := by
  cases i with
  | addwf f d | andwf f d | comf f d | decf f d | incf f d | iorwf f d | rlf f d | rrf f d | subwf f d | swapf f d
  | xorwf f d | decfsz f d | incfsz f d =>
    cases d with
    | w => rfl
    | file => exact s.setF_f_ne _ fun e => h (congrArg some e.symm)
  | clrf f | movwf f | bcf f b | bsf f b => exact s.setF_f_ne _ fun e => h (congrArg some e.symm)
  | _ => rfl

theorem State.after_r {i : Instr} {a : BitVec 8} (s : State) (h : i.rStored ≠ some a) : (s.after i).r a = s.r a := by
  cases i with
  | addwf f d | andwf f d | comf f d | decf f d | incf f d | iorwf f d | rlf f d | rrf f d | subwf f d | swapf f d
  | xorwf f d | decfsz f d | incfsz f d => cases d <;> rfl
  | movwrA r | movwrB r => exact s.setR_r_ne _ fun e => h (congrArg some e.symm)
  | _ => rfl

theorem State.after_w {i : Instr} (s : State) (h : i.writesW = false) : (s.after i).w = s.w := by
  cases i with
  | addwf f d | andwf f d | comf f d | decf f d | incf f d | iorwf f d | rlf f d | rrf f d | subwf f d | swapf f d
  | xorwf f d | decfsz f d | incfsz f d =>
    cases d with
    | w => cases h
    | file => rfl
  | _ => cases h <;> rfl

/-- Settles O31: the state that an instruction leaves, flag by flag. -/
theorem flagsAreWrittenOnlyAsListed : Obligations.FlagsAreWrittenOnlyAsListed := by
  unfold Obligations.FlagsAreWrittenOnlyAsListed
  intro i s t h
  obtain ⟨-, rfl⟩ := exec_next h
  exact ⟨s.after_z, s.after_c, s.after_dc⟩

/-- Settles O32: the state that an instruction leaves, element by element. -/
theorem systemStateIsWrittenOnlyAsListed : Obligations.SystemStateIsWrittenOnlyAsListed := by
  unfold Obligations.SystemStateIsWrittenOnlyAsListed
  intro i s t h
  obtain ⟨-, rfl⟩ := exec_next h
  exact ⟨s.after_gie, s.after_wdt, s.after_mode, s.after_toPd⟩

/-- Settles O33: the state that an instruction leaves, in the planes, in W and on the stack. -/
theorem registersAreWrittenOnlyAtTheDestination : Obligations.RegistersAreWrittenOnlyAtTheDestination := by
  unfold Obligations.RegistersAreWrittenOnlyAtTheDestination
  intro i s t h
  obtain ⟨-, rfl⟩ := exec_next h
  exact ⟨fun _ => s.after_f, fun _ => s.after_r, s.after_w, s.after_stk⟩

/-! ### Where PC goes (R22, R140) -/

theorem State.after_pc {i : Instr} (s : State) (h : i.isTransfer = false) :
    PcPlus s (s.after i) (if i.isTableRead then 1 else cycles i s) := by
  cases i with
  | decfsz f d | incfsz f d =>
    exact pcPlus_of_pc_eq (s.putDest_pcPlus d f _ _)
  | btfsc f b | btfss f b => exact s.pcPlus_advanceSkip _
  | call k | goto k | ret | reti | retlw k => cases h
  | _ => exact pcPlus_of_pc_eq (by simp [State.after, cycles, Instr.isTableRead])

/-- Settles O38: what is no transfer goes on by its cycles, but a table read, which takes two and goes on by one. -/
theorem pcGoesOnByOneOrSkips : Obligations.PcGoesOnByOneOrSkips := by
  unfold Obligations.PcGoesOnByOneOrSkips
  intro i s t hi h
  obtain ⟨-, rfl⟩ := exec_next h
  have hpc := s.after_pc hi
  exact ⟨fun ht => by rwa [ht] at hpc, fun ht => by rwa [ht] at hpc⟩

/-! ### What an instruction does not read (R24, R25, R26, R28, R53) -/

@[simp] theorem State.visible_stop (s : State) (i : Instr) : s.visible.stop i = s.stop i := by cases i <;> rfl

/-- What no instruction reads makes no difference to the rest of the state that it leaves. -/
theorem State.visible_after (s : State) (i : Instr) : (s.visible.after i).visible = (s.after i).visible := by
  cases i with
  | addwf f d | andwf f d | comf f d | decf f d | incf f d | iorwf f d | rlf f d | rrf f d | subwf f d | swapf f d
  | xorwf f d | decfsz f d | incfsz f d => cases d <;> rfl
  | _ => rfl

/-- Settles O36: both outcomes are that of the one visible state. -/
theorem unreadStateDoesNotInterfere : Obligations.UnreadStateDoesNotInterfere := by
  unfold Obligations.UnreadStateDoesNotInterfere
  intro i s t h
  have hstop : s.stop i = t.stop i := by rw [← s.visible_stop, h, t.visible_stop]
  have hafter : (s.after i).visible = (t.after i).visible := by rw [← s.visible_after, h, t.visible_after]
  rw [exec_eq_outcome, exec_eq_outcome, hstop]
  cases t.stop i with
  | none => exact hafter
  | some e => exact rfl

/-- The state with its program memory replaced. -/
def State.setRom (s : State) (m : Memory 14) : State := { s with rom := m }

@[simp] theorem State.setRom_stop (s : State) (m : Memory 14) (i : Instr) : (s.setRom m).stop i = s.stop i := by
  cases i <;> rfl

theorem State.setRom_after {i : Instr} (s : State) (m : Memory 14) (h : i.isTableRead = false) :
    (s.setRom m).after i = (s.after i).setRom m := by
  cases i with
  | addwf f d | andwf f d | comf f d | decf f d | incf f d | iorwf f d | rlf f d | rrf f d | subwf f d | swapf f d
  | xorwf f d | decfsz f d | incfsz f d => cases d <;> rfl
  | tblwl | tblwh => cases h
  | _ => rfl

/-- Settles O37: neither what stops the instruction nor the state it leaves depends on program memory. -/
theorem onlyTableReadsReadProgramMemory : Obligations.OnlyTableReadsReadProgramMemory := by
  unfold Obligations.OnlyTableReadsReadProgramMemory
  intro i s m h
  calc exec i (s.setRom m)
    _ = outcome (s.stop i) ((s.after i).setRom m) := by rw [exec_eq_outcome, s.setRom_stop, s.setRom_after m h]
    _ = withRom m (outcome (s.stop i) (s.after i)) := by cases s.stop i <;> rfl
    _ = withRom m (exec i s) := by rw [exec_eq_outcome]

end Sys2Proof.Machine
end

section
/-! PROOFS. What every step keeps (spec/10_state.md R22 to R36; spec/20_memory.md R53): the well-formedness of the
state, which each update keeps under its own condition, the program and the part, and GIE where nothing sets it. -/

namespace Sys2Proof.Machine

/-! ### Well-formed states, field by field -/

/-- `State.wf`, its conditions named (R22, R23, R28, R30 to R32). -/
structure State.WellFormed (s : State) : Prop where
  part : partWf s.part = true
  pc : s.pc.toNat < 2 ^ s.part.pcw.bits
  depth : s.stk.length ≤ s.part.stackDepth
  entries : ∀ a ∈ s.stk, a.toNat < 2 ^ s.part.pcw.bits
  wdt : s.wdt < 2 ^ s.part.wdtw
  fplane : Memory.wf s.fplane 128 = true
  rplane : Memory.wf s.rplane 256 = true
  rom : Memory.wf s.rom s.part.romSize = true

theorem State.wf_iff {s : State} : s.wf = true ↔ s.WellFormed := by
  simp only [State.wf, Bool.and_eq_true, decide_eq_true_eq, List.all_eq_true]
  exact ⟨fun ⟨⟨⟨⟨⟨⟨⟨part, pc⟩, depth⟩, entries⟩, wdt⟩, fplane⟩, rplane⟩, rom⟩ =>
      ⟨part, pc, depth, entries, wdt, fplane, rplane, rom⟩,
    fun h => ⟨⟨⟨⟨⟨⟨⟨h.part, h.pc⟩, h.depth⟩, h.entries⟩, h.wdt⟩, h.fplane⟩, h.rplane⟩, h.rom⟩⟩

theorem partWf_vectors {p : Part} (h : partWf p = true) :
    p.resetVector.toNat < 2 ^ p.pcw.bits ∧ p.intVector.toNat < 2 ^ p.pcw.bits := by
  simp only [partWf, Bool.and_eq_true, decide_eq_true_eq] at h
  obtain ⟨⟨⟨-, hreset⟩, hint⟩, -⟩ := h
  exact ⟨hreset, hint⟩

/-! ### What each update asks for -/

section Updates

variable {s : State} (h : s.WellFormed)
include h

theorem State.WellFormed.setW (v : Byte) : (s.setW v).WellFormed := { h with }
theorem State.WellFormed.setFlags (u : FlagWrite) : (s.setFlags u).WellFormed := { h with }
theorem State.WellFormed.setToPd (t p : Bool) : (s.setToPd t p).WellFormed := { h with }
theorem State.WellFormed.setGie (b : Bool) : (s.setGie b).WellFormed := { h with }
theorem State.WellFormed.setMode (m : Mode) : (s.setMode m).WellFormed := { h with }

theorem State.WellFormed.setPc {a : PAddr} (ha : a.toNat < 2 ^ s.part.pcw.bits) : (s.setPc a).WellFormed :=
  { h with pc := ha }

theorem State.WellFormed.setStk {l : List PAddr} (hdepth : l.length ≤ s.part.stackDepth)
    (hentries : ∀ a ∈ l, a.toNat < 2 ^ s.part.pcw.bits) : (s.setStk l).WellFormed :=
  { h with depth := hdepth, entries := hentries }

theorem State.WellFormed.setWdt {n : Nat} (hn : n < 2 ^ s.part.wdtw) : (s.setWdt n).WellFormed := { h with wdt := hn }

theorem State.WellFormed.setF (a : BitVec 7) (v : Byte) : (s.setF a v).WellFormed :=
  { h with fplane := Memory.write_wf _ _ _ h.fplane a.isLt }

theorem State.WellFormed.setR (a : BitVec 8) (v : Byte) : (s.setR a v).WellFormed :=
  { h with rplane := Memory.write_wf _ _ _ h.rplane a.isLt }

theorem State.WellFormed.putDest (d : Dest) (f : BitVec 7) (v : Byte) : (s.putDest d f v).WellFormed := by
  cases d with
  | w => exact h.setW v
  | file => exact h.setF f v

theorem State.WellFormed.advance : s.advance.WellFormed := h.setPc (s.toPAddr_lt _)

theorem State.WellFormed.advanceSkip (b : Bool) : (s.advanceSkip b).WellFormed := h.setPc (s.toPAddr_lt _)

/-- A push where there is room. -/
theorem State.WellFormed.push {a : PAddr} (hroom : s.stk.length < s.part.stackDepth)
    (ha : a.toNat < 2 ^ s.part.pcw.bits) : (s.setStk (a :: s.stk)).WellFormed :=
  h.setStk hroom (List.forall_mem_cons.mpr ⟨ha, h.entries⟩)

/-- A return on a stack that is not empty. -/
theorem State.WellFormed.afterReturn (hne : s.stk ≠ []) : s.afterReturn.WellFormed := by
  obtain ⟨a, rest, hs⟩ := List.exists_cons_of_ne_nil hne
  have hdepth := h.depth
  have hentries := h.entries
  rw [hs] at hdepth hentries
  obtain ⟨ha, hrest⟩ := List.forall_mem_cons.mp hentries
  rw [State.afterReturn, hs]
  exact (h.setStk (Nat.le_of_succ_le hdepth) hrest).setPc ha

/-- What an instruction leaves where nothing stops it. -/
theorem State.WellFormed.after {i : Instr} (hstop : s.stop i = none) : (s.after i).WellFormed := by
  cases i with
  | addwf f d | andwf f d | comf f d | decf f d | incf f d | iorwf f d | rlf f d | rrf f d | subwf f d | swapf f d
  | xorwf f d => exact ((h.putDest d f _).setFlags _).advance
  | decfsz f d | incfsz f d => exact (h.putDest d f _).advanceSkip _
  | clrf f => exact ((h.setF f 0).setFlags _).advance
  | movwf f | bcf f b | bsf f b => exact (h.setF _ _).advance
  | movfw f | movrw r | tblwl | tblwh => exact (h.setW _).advance
  | testz f => exact (h.setFlags _).advance
  | movwrA r | movwrB r => exact (h.setR _ _).advance
  | btfsc f b | btfss f b => exact h.advanceSkip _
  | clrw | addlw k | andlw k | iorlw k | movlw k | xorlwA k | xorlwB k => exact ((h.setW _).setFlags _).advance
  | call k =>
    have hroom : s.stk.length < s.part.stackDepth := stop_if_eq_none_iff.mp hstop
    exact (h.push hroom (s.toPAddr_lt _)).setPc (s.toPAddr_lt _)
  | goto k => exact h.setPc (s.toPAddr_lt _)
  | ret => exact h.afterReturn (stop_if_eq_none_iff.mp hstop)
  | reti => exact (h.afterReturn (stop_if_eq_none_iff.mp hstop)).setGie true
  | retlw k => exact (h.afterReturn (stop_if_eq_none_iff.mp hstop)).setW k
  | clrwdtA | clrwdtB => exact ((h.setWdt (by simp)).setToPd false false).advance
  | sleepA | sleepB => exact ((h.setToPd false true).setMode .sleep).advance
  | nop => exact h.advance

/-! ### Events -/

theorem State.WellFormed.arrive : s.arrive.WellFormed := { h with wdt := State.arrive_wdt_lt h.wdt }

theorem State.WellFormed.resetEvent : s.resetEvent.WellFormed where
  part := h.part
  pc := (partWf_vectors h.part).1
  depth := Nat.zero_le _
  entries := nofun
  wdt := Nat.mod_lt _ (by positivity)
  fplane := Memory.ofFun_wf (fun a => Config.freeByte s.resetCount (.fplane (BitVec.ofNat 7 a))) 128
  rplane := Memory.ofFun_wf (fun a => Config.freeByte s.resetCount (.rplane (BitVec.ofNat 8 a))) 256
  rom := h.rom

theorem State.WellFormed.wakeEvent (i : Input) : (s.wakeEvent i).WellFormed := { h with }

theorem State.WellFormed.interruptEntry {t : State} (ht : interruptEntry s = .next t) : t.WellFormed := by
  obtain ⟨hroom, rfl⟩ := interruptEntry_next ht
  exact ((h.push hroom h.pc).setGie false).setPc (partWf_vectors h.part).2

end Updates

/-- Settles O41: each way a step can go, by what its updates keep. -/
theorem stepKeepsWellFormedState : Obligations.StepKeepsWellFormedState := by
  unfold Obligations.StepKeepsWellFormedState
  intro s t hs hstep
  rw [State.wf_iff] at hs ⊢
  rcases step_cases hstep with ⟨-, rfl⟩ | ⟨-, -, rfl⟩ | ⟨-, -, rfl⟩ | ⟨-, -, rfl⟩ | ⟨-, -, -, hentry⟩ | ⟨-, i, -, hexec⟩
  · exact hs.arrive.resetEvent
  · exact hs.arrive.resetEvent
  · exact hs.arrive.wakeEvent _
  · exact hs.arrive
  · exact hs.arrive.interruptEntry hentry
  · obtain ⟨hstop, rfl⟩ := exec_next hexec
    exact hs.arrive.after hstop

/-- Settles O43: no event and no instruction writes either. -/
theorem stepKeepsProgramAndPart : Obligations.StepKeepsProgramAndPart := by
  unfold Obligations.StepKeepsProgramAndPart
  intro s t hstep
  rcases step_cases hstep with ⟨-, rfl⟩ | ⟨-, -, rfl⟩ | ⟨-, -, rfl⟩ | ⟨-, -, rfl⟩ | ⟨-, -, -, hentry⟩ | ⟨-, i, -, hexec⟩
  · exact ⟨rfl, rfl⟩
  · exact ⟨rfl, rfl⟩
  · exact ⟨rfl, rfl⟩
  · exact ⟨rfl, rfl⟩
  · obtain ⟨-, rfl⟩ := interruptEntry_next hentry
    exact ⟨rfl, rfl⟩
  · obtain ⟨-, rfl⟩ := exec_next hexec
    exact ⟨State.after_rom _ i, State.after_part _ i⟩

/-- Settles O48: apart from the two resets, only an instruction can set GIE, and of the instructions RETI alone. -/
theorem onlyRetiOrResetEnablesInterrupts : Obligations.OnlyRetiOrResetEnablesInterrupts := by
  unfold Obligations.OnlyRetiOrResetEnablesInterrupts
  intro s t hstep hclear hset
  rcases step_cases hstep with
    ⟨hreset, -⟩ | ⟨hdog, hen, -⟩ | ⟨-, -, rfl⟩ | ⟨-, -, rfl⟩ | ⟨-, hgie, -⟩ | ⟨hmode, i, hfetch, hexec⟩
  · exact .inl hreset
  · exact .inr (.inl ⟨hdog, hen⟩)
  · exact absurd hset (ne_true_of_eq_false hclear)
  · exact absurd hset (ne_true_of_eq_false hclear)
  · exact absurd hgie (ne_true_of_eq_false hclear)
  · obtain ⟨-, rfl⟩ := exec_next hexec
    have hi : i = .reti := by
      by_contra hne
      exact absurd ((State.after_gie _ hne).symm.trans hset) (ne_true_of_eq_false hclear)
    exact .inr (.inr ⟨hmode, hi ▸ hfetch⟩)

end Sys2Proof.Machine
end

section
/-! PROOFS. Which words are no instruction (spec/30_encoding.md R79, R81), page by page of the opcode maps. -/

namespace Sys2Proof

/-- The words of the first page that no part decodes, those of TBLWL and TBLWH where the part has not the pair, and
those of MOVWR of set A in set B (R77 to R79). -/
theorem decodePage00_eq_error_iff {w : ProgWord} (iset : ISet) (hasDptr : Bool) (hpage : w.toNat / 0x100 = 0x00) :
    decodePage00 iset hasDptr w = .error (.unassigned w) ↔
      (0x40 < w.toNat ∧ w.toNat < 0x80 ∧ w.toNat ≠ 0x60
        ∧ (hasDptr = true → w.toNat ≠ 0x50 ∧ w.toNat ≠ 0x58))
      ∨ (iset = .b ∧ 0x00 < w.toNat ∧ w.toNat < 0x40) := by
  unfold decodePage00
  simp only [bit7_iff, bit6_iff, ← BitVec.toNat_inj, BitVec.reduceToNat]
  -- every branch of the page answers an instruction or the error, by the conditions that lead to it
  cases iset <;> cases hasDptr <;> simp <;> split_ifs <;> simp <;> omega

theorem decodePage01_eq_error_iff {w : ProgWord} (hpage : w.toNat / 0x100 = 0x01) :
    decodePage01 w = .error (.unassigned w) ↔ w.toNat < 0x180 ∧ w.toNat ≠ 0x140 := by
  unfold decodePage01
  simp only [bit7_iff, ← BitVec.toNat_inj, BitVec.reduceToNat]
  split_ifs <;> grind

theorem decodePage1D_eq_error_iff {w : ProgWord} (iset : ISet) (hlow : 0x1D ≤ w.toNat / 0x100)
    (hhigh : w.toNat / 0x100 ≤ 0x1F) :
    decodePage1D iset (w.extractLsb' 8 2) w = .error (.unassigned w) ↔ iset = .a ∧ w.toNat < 0x1F00 := by
  unfold decodePage1D
  simp only [op_eq_iff, BitVec.reduceToNat]
  cases iset with
  | a =>
    simp
    omega
  | b =>
    simp only [reduceCtorEq, false_and, iff_false]
    split_ifs <;> exact not_false

/-- The ranges of words that are no instruction of a part (R79, R81): those of every part, those of the pair where the
part has not the pair, and those of each set. -/
def unassignedRanges (iset : ISet) (hasDptr : Bool) : List (Nat × Nat) :=
  [(0x0041, 0x004F), (0x0051, 0x0057), (0x0059, 0x005F), (0x0061, 0x007F), (0x0100, 0x013F), (0x0141, 0x017F)]
  ++ (if hasDptr then [] else [(0x0050, 0x0050), (0x0058, 0x0058)])
  ++ (match iset with
    | .a => [(0x1D00, 0x1EFF)]
    | .b => [(0x0001, 0x003F)])

/-- A word in one of the ranges, written out. -/
theorem exists_unassignedRanges_iff (iset : ISet) (hasDptr : Bool) (n : Nat) :
    (∃ r ∈ unassignedRanges iset hasDptr, r.1 ≤ n ∧ n ≤ r.2) ↔
      (0x40 < n ∧ n < 0x80 ∧ n ≠ 0x60 ∧ (hasDptr = true → n ≠ 0x50 ∧ n ≠ 0x58))
      ∨ (0x100 ≤ n ∧ n < 0x180 ∧ n ≠ 0x140)
      ∨ (iset = .a ∧ 0x1D00 ≤ n ∧ n < 0x1F00)
      ∨ (iset = .b ∧ 0x00 < n ∧ n < 0x40) := by
  cases iset <;> cases hasDptr <;> simp [unassignedRanges] <;> omega

theorem decode_eq_error_iff (iset : ISet) (hasDptr : Bool) (w : ProgWord) :
    decode iset hasDptr w = .error (.unassigned w) ↔
      ∃ r ∈ unassignedRanges iset hasDptr, r.1 ≤ w.toNat ∧ w.toNat ≤ r.2 := by
  rw [exists_unassignedRanges_iff]
  rcases decode_pages iset hasDptr w with
    ⟨hpage, hdec⟩ | ⟨hpage, hdec⟩ | ⟨hlow, hhigh, hdec⟩ | ⟨hlow, hhigh, i, hdec, -⟩
  · rw [hdec, decodePage00_eq_error_iff iset hasDptr hpage]
    grind
  · rw [hdec, decodePage01_eq_error_iff hpage]
    omega
  · rw [hdec, decodePage1D_eq_error_iff iset hlow hhigh]
    grind
  · rw [hdec]
    simp only [reduceCtorEq, false_iff]
    omega

/-- Settles O4: the list of R79, with its closed ranges. -/
theorem unassignedWordsAreTheListedOnes : Obligations.UnassignedWordsAreTheListedOnes := by
  unfold Obligations.UnassignedWordsAreTheListedOnes
  intro w
  simp only [decode_eq_error_iff]
  refine ⟨?setA, ?setB, fun iset => ?without_pair⟩
  case setA => simp [unassignedRanges]
  case setB => simp [unassignedRanges]; omega
  case without_pair => cases iset <;> simp [unassignedRanges] <;> omega

/-- Settles O6: each word is that of the instruction named. -/
theorem specWordsDecodeAsNamed : Obligations.SpecWordsDecodeAsNamed := by
  unfold Obligations.SpecWordsDecodeAsNamed
  exact ⟨decode_encode_of_wellFormed (i := .movlw 0x86) rfl, decode_encode_of_wellFormed (i := .addlw 0x97) rfl,
    decode_encode_of_wellFormed (i := .incfsz 0x7F .file) rfl, decode_encode_of_wellFormed (i := .btfss 0x3F 7) rfl,
    decode_encode_of_wellFormed (i := .movwrB 0x05) rfl, decode_encode_of_wellFormed (i := .sleepA) rfl,
    decode_encode_of_wellFormed (i := .call 0xFFF) rfl⟩

end Sys2Proof
end

section
/-! PROOFS. The opcode table (spec/30_encoding.md R76): which of its rows can match one word, which words they match,
and why the decoder of the opcode maps is the table's. -/

namespace Sys2Proof

/-! ### Two rows that match one word (R76) -/

/-- Where both masks look, the patterns are the same: some word may match both rows. -/
def OpcodeRow.compatible (row row' : OpcodeRow) : Bool := row.pattern &&& row'.mask == row'.pattern &&& row.mask

/-- Rows that match one word are compatible. -/
theorem compatible_of_matchesWord {row row' : OpcodeRow} {w : ProgWord} (h : row.matchesWord w = true)
    (h' : row'.matchesWord w = true) : row.compatible row' = true := by
  simp only [OpcodeRow.matchesWord, beq_iff_eq] at h h'
  rw [OpcodeRow.compatible, beq_iff_eq, ← h, ← h', Nat.and_assoc, Nat.and_assoc, Nat.and_comm row.mask]

/-- The words of which R76 says that two rows of the set match. -/
def TwoRows (iset : ISet) (w : ProgWord) : Prop :=
  (iset = .a ∧ (w = 0x0000 ∨ w = 0x0003 ∨ w = 0x0004)) ∨ (iset = .b ∧ (w = 0x1E03 ∨ w = 0x1E04))

/-- The row is of a fixed pattern, and its word is one that two rows of the set match. -/
def OpcodeRow.isTwoRowsWord (row : OpcodeRow) (iset : ISet) : Bool :=
  row.mask == 0x3FFF && (match iset with
    | .a => [0x0000, 0x0003, 0x0004].contains row.pattern
    | .b => [0x1E03, 0x1E04].contains row.pattern)

/-- The rows of one part are pairwise incompatible, but where one of the two has one of the five words. -/
theorem rows_pairwise (iset : ISet) (hasDptr : Bool) :
    (opcodeRows.filter (OpcodeRow.considered · iset hasDptr)).Pairwise fun row row' =>
      row.compatible row' = true → row.isTwoRowsWord iset = true ∨ row'.isTwoRowsWord iset = true := by
  cases iset <;> cases hasDptr <;> decide

theorem matchingRows_eq (iset : ISet) (hasDptr : Bool) (w : ProgWord) :
    matchingRows iset hasDptr w
      = (opcodeRows.filter (OpcodeRow.considered · iset hasDptr)).filter (OpcodeRow.matchesWord · w) := by
  rw [matchingRows, List.filter_filter]

theorem mem_matchingRows {iset : ISet} {hasDptr : Bool} {w : ProgWord} {row : OpcodeRow} :
    row ∈ matchingRows iset hasDptr w
      ↔ row ∈ opcodeRows ∧ row.matchesWord w = true ∧ row.considered iset hasDptr = true := by
  rw [matchingRows, List.mem_filter, Bool.and_eq_true]

/-- A row of a fixed pattern matches one word alone. -/
theorem eq_of_matchesWord_fixed {row : OpcodeRow} {w : ProgWord} (hmask : row.mask = 0x3FFF)
    (h : row.matchesWord w = true) : w.toNat = row.pattern := by
  rw [OpcodeRow.matchesWord, beq_iff_eq, hmask] at h
  rw [← h, show 0x3FFF = 2 ^ 14 - 1 from rfl, Nat.and_two_pow_sub_one_eq_mod, Nat.mod_eq_of_lt w.isLt]

theorem twoRows_of_matchesWord {row : OpcodeRow} {iset : ISet} {w : ProgWord} (hrow : row.isTwoRowsWord iset = true)
    (h : row.matchesWord w = true) : TwoRows iset w := by
  simp only [OpcodeRow.isTwoRowsWord, Bool.and_eq_true, beq_iff_eq] at hrow
  obtain ⟨hmask, hpat⟩ := hrow
  rw [← eq_of_matchesWord_fixed hmask h] at hpat
  cases iset <;> simpa [TwoRows, ← BitVec.toNat_inj] using hpat

/-- Settles O5: rows that match one word are compatible, which two rows of a part are for the five words alone. -/
theorem twoRowsMatchInExactlyFiveCases : Obligations.TwoRowsMatchInExactlyFiveCases := by
  unfold Obligations.TwoRowsMatchInExactlyFiveCases
  refine fun iset hasDptr w => ⟨fun hlen => ?only, fun h => ?those⟩
  case only =>
    have hmem (row : OpcodeRow) (hrow : row ∈ matchingRows iset hasDptr w) : row.matchesWord w = true :=
      (mem_matchingRows.mp hrow).2.1
    have hpair : (matchingRows iset hasDptr w).Pairwise _ :=
      matchingRows_eq iset hasDptr w ▸ (rows_pairwise iset hasDptr).filter _
    match matchingRows iset hasDptr w, hlen, hmem, hpair with
    | row :: row' :: _, _, hmem, hpair =>
      have h := hmem row (by simp)
      have h' := hmem row' (by simp)
      rcases List.rel_of_pairwise_cons hpair (by simp) (compatible_of_matchesWord h h') with hrow | hrow
      · exact twoRows_of_matchesWord hrow h
      · exact twoRows_of_matchesWord hrow h'
  case those =>
    obtain ⟨rfl, rfl | rfl | rfl⟩ | ⟨rfl, rfl | rfl⟩ := h <;> cases hasDptr <;> decide

/-! ### The words that a row matches, and the words that are no instruction -/

/-- A word is the bits a mask keeps and, below what the mask leaves, the others. -/
theorem toNat_eq_and_add (w m : ProgWord) : w.toNat = (w.toNat &&& m.toNat) + (w &&& ~~~m).toNat := by
  have hdisjoint : (w &&& m) &&& (w &&& ~~~m) = 0#14 := by
    ext i hi
    cases hm : m[i] <;> simp [hm]
  have hsplit : (w &&& m) + (w &&& ~~~m) = w := by
    rw [BitVec.add_eq_or_of_and_eq_zero _ _ hdisjoint]
    ext i hi
    cases hm : m[i] <;> simp [hm]
  rw [← BitVec.toNat_and, ← BitVec.toNat_add_of_and_eq_zero hdisjoint, hsplit]

/-- The words that a row matches lie between its pattern and its pattern with every bit that is not looked at. -/
theorem bounds_of_matchesWord {row : OpcodeRow} {w : ProgWord} (hmask : row.mask ≤ 0x3FFF)
    (h : row.matchesWord w = true) : row.pattern ≤ w.toNat ∧ w.toNat + row.mask ≤ row.pattern + 0x3FFF := by
  rw [OpcodeRow.matchesWord, beq_iff_eq] at h
  have hm : (BitVec.ofNat 14 row.mask).toNat = row.mask := Nat.mod_eq_of_lt (by omega)
  have hsplit := toNat_eq_and_add w (BitVec.ofNat 14 row.mask)
  have hle : (w &&& ~~~(BitVec.ofNat 14 row.mask)).toNat ≤ (~~~(BitVec.ofNat 14 row.mask)).toNat := Nat.and_le_right
  rw [BitVec.toNat_not, hm] at hle
  rw [hm, h] at hsplit
  omega

/-- No row of a part reaches into a range of words that are no instruction of it. -/
theorem rows_avoid_unassignedRanges (iset : ISet) (hasDptr : Bool) :
    ∀ row ∈ opcodeRows.filter (OpcodeRow.considered · iset hasDptr), row.mask ≤ 0x3FFF ∧
      ∀ r ∈ unassignedRanges iset hasDptr, r.2 < row.pattern ∨ row.pattern + 0x3FFF < r.1 + row.mask := by
  cases iset <;> cases hasDptr <;> decide

/-- Where the decoder accepts nothing, it says that the word is unassigned. -/
theorem eq_unassigned_of_decode {iset : ISet} {hasDptr : Bool} {w : ProgWord} {e : DecodeError}
    (h : decode iset hasDptr w = .error e) : e = .unassigned w := by
  rcases decode_pages iset hasDptr w with ⟨-, hdec⟩ | ⟨-, hdec⟩ | ⟨-, -, hdec⟩ | ⟨-, -, i, hdec, -⟩ <;> rw [hdec] at h
  · unfold decodePage00 at h
    cases iset <;> grind
  · unfold decodePage01 at h
    grind
  · unfold decodePage1D at h
    cases iset <;> grind
  · cases h

/-- A word that a row of the part matches is an instruction of it. -/
theorem decode_ok_of_mem_matchingRows {iset : ISet} {hasDptr : Bool} {w : ProgWord} {row : OpcodeRow}
    (hrow : row ∈ matchingRows iset hasDptr w) : ∃ i, decode iset hasDptr w = .ok i := by
  obtain ⟨hmem, hmatch, hcons⟩ := mem_matchingRows.mp hrow
  cases hdec : decode iset hasDptr w with
  | ok i => exact ⟨i, rfl⟩
  | error e =>
    rw [eq_unassigned_of_decode hdec, decode_eq_error_iff] at hdec
    obtain ⟨r, hr, hlow, hhigh⟩ := hdec
    obtain ⟨hmask, havoid⟩ := rows_avoid_unassignedRanges iset hasDptr row (List.mem_filter.mpr ⟨hmem, hcons⟩)
    have hbounds := bounds_of_matchesWord hmask hmatch
    have hr' := havoid r hr
    omega

/-! ### The row of an instruction -/

/-- Every instruction has a row that reads it from its word. -/
theorem rowMatch (i : Instr) : Laws.RowMatch.Statement i := by
  cases i with
  | addwf f d => exact Laws.RowMatch.addwf f d
  | andwf f d => exact Laws.RowMatch.andwf f d
  | clrf f => exact Laws.RowMatch.clrf f
  | clrw => exact Laws.RowMatch.clrw
  | comf f d => exact Laws.RowMatch.comf f d
  | decf f d => exact Laws.RowMatch.decf f d
  | decfsz f d => exact Laws.RowMatch.decfsz f d
  | incf f d => exact Laws.RowMatch.incf f d
  | incfsz f d => exact Laws.RowMatch.incfsz f d
  | iorwf f d => exact Laws.RowMatch.iorwf f d
  | movfw f => exact Laws.RowMatch.movfw f
  | movwf f => exact Laws.RowMatch.movwf f
  | movwrA r => exact Laws.RowMatch.movwrA r
  | movwrB r => exact Laws.RowMatch.movwrB r
  | rlf f d => exact Laws.RowMatch.rlf f d
  | rrf f d => exact Laws.RowMatch.rrf f d
  | subwf f d => exact Laws.RowMatch.subwf f d
  | movrw r => exact Laws.RowMatch.movrw r
  | swapf f d => exact Laws.RowMatch.swapf f d
  | testz f => exact Laws.RowMatch.testz f
  | xorwf f d => exact Laws.RowMatch.xorwf f d
  | bcf f b => exact Laws.RowMatch.bcf f b
  | bsf f b => exact Laws.RowMatch.bsf f b
  | btfsc f b => exact Laws.RowMatch.btfsc f b
  | btfss f b => exact Laws.RowMatch.btfss f b
  | addlw k => exact Laws.RowMatch.addlw k
  | andlw k => exact Laws.RowMatch.andlw k
  | call k => exact Laws.RowMatch.call k
  | clrwdtA => exact Laws.RowMatch.clrwdtA
  | clrwdtB => exact Laws.RowMatch.clrwdtB
  | goto k => exact Laws.RowMatch.goto k
  | iorlw k => exact Laws.RowMatch.iorlw k
  | movlw k => exact Laws.RowMatch.movlw k
  | nop => exact Laws.RowMatch.nop
  | ret => exact Laws.RowMatch.ret
  | reti => exact Laws.RowMatch.reti
  | retlw k => exact Laws.RowMatch.retlw k
  | tblwl => exact Laws.RowMatch.tblwl
  | tblwh => exact Laws.RowMatch.tblwh
  | sleepA => exact Laws.RowMatch.sleepA
  | sleepB => exact Laws.RowMatch.sleepB
  | xorlwA k => exact Laws.RowMatch.xorlwA k
  | xorlwB k => exact Laws.RowMatch.xorlwB k

/-- A row that reads an instruction of the part is one of the part's. -/
theorem considered_of_wellFormed (iset : ISet) (hasDptr : Bool) (w : ProgWord) :
    ∀ row ∈ opcodeRows, (row.instr w).wellFormed iset hasDptr = true → row.considered iset hasDptr = true := by
  cases iset <;>
    simp [opcodeRows, byteRows, bitRows, literalRows, Instr.wellFormed, OpcodeRow.considered]

/-- What the decoder accepts, a row of the part reads. -/
theorem mem_matchingRows_of_decode {iset : ISet} {hasDptr : Bool} {w : ProgWord} {i : Instr}
    (h : decode iset hasDptr w = .ok i) : ∃ row ∈ matchingRows iset hasDptr w, row.instr w = i := by
  obtain ⟨rfl, hwf⟩ := encode_of_decode h
  obtain ⟨row, hmem, hmatch, hread⟩ := rowMatch i
  refine ⟨row, mem_matchingRows.mpr ⟨hmem, hmatch, ?_⟩, hread⟩
  exact considered_of_wellFormed iset hasDptr _ row hmem (hread.symm ▸ hwf)

/-- The five words that two rows match are the same instruction to the maps and to the table. -/
theorem decode_eq_decodeByTable_of_twoRows {iset : ISet} {w : ProgWord} (hasDptr : Bool) (h : TwoRows iset w) :
    decode iset hasDptr w = decodeByTable iset hasDptr w := by
  obtain ⟨rfl, rfl | rfl | rfl⟩ | ⟨rfl, rfl | rfl⟩ := h <;> cases hasDptr <;> rfl

/-- Settles O3: no row, and the decoder accepts nothing; one row, and it is the one that reads what the decoder accepts;
two rows, and it is one of the five words. -/
theorem decoderAgreesWithOpcodeTable : Obligations.DecoderAgreesWithOpcodeTable := by
  unfold Obligations.DecoderAgreesWithOpcodeTable
  intro iset hasDptr w
  match hrows : matchingRows iset hasDptr w with
  | [] =>
    have htable : decodeByTable iset hasDptr w = .error (.unassigned w) := by rw [decodeByTable, hrows]
    cases hdec : decode iset hasDptr w with
    | ok i =>
      obtain ⟨row, hrow, -⟩ := mem_matchingRows_of_decode hdec
      simp [hrows] at hrow
    | error e => rw [htable, eq_unassigned_of_decode hdec]
  | [row] =>
    have htable : decodeByTable iset hasDptr w = .ok (row.instr w) := by rw [decodeByTable, hrows]
    obtain ⟨i, hdec⟩ := decode_ok_of_mem_matchingRows (hrows ▸ List.mem_singleton_self row)
    obtain ⟨row', hrow', hread⟩ := mem_matchingRows_of_decode hdec
    rw [hrows, List.mem_singleton] at hrow'
    rw [htable, hdec, ← hread, hrow']
  | row :: row' :: rest =>
    refine decode_eq_decodeByTable_of_twoRows hasDptr ((twoRowsMatchInExactlyFiveCases iset hasDptr w).mp ?_)
    simp [hrows]

end Sys2Proof
end

section
/-! PROOFS. The rotations and the exchange of nibbles (spec/40_byte_oriented.md R115, R116, R119): C and the register as
one ring of nine bits, which RLF turns one place up and RRF one place down. -/

namespace Sys2Proof.Machine

/-! ### The byte of a rotation, as a number and bit by bit -/

theorem rlf_byte_toNat (c : Bool) (v : Byte) :
    (v.extractLsb' 0 7 ++ BitVec.ofBool c : Byte).toNat = v.toNat % 128 * 2 + c.toNat := by
  have happend : (v.extractLsb' 0 7 ++ BitVec.ofBool c : Byte).toNat
      = (v.extractLsb' 0 7).toNat * 2 ^ 1 + (BitVec.ofBool c).toNat := toNat_append_eq _ _
  rw [happend, BitVec.extractLsb'_toNat, Nat.shiftRight_zero, BitVec.toNat_ofBool]
  rfl

theorem rrf_byte_toNat (c : Bool) (v : Byte) :
    (BitVec.ofBool c ++ v.extractLsb' 1 7 : Byte).toNat = c.toNat * 128 + v.toNat / 2 := by
  have hv := v.isLt
  have happend : (BitVec.ofBool c ++ v.extractLsb' 1 7 : Byte).toNat
      = (BitVec.ofBool c).toNat * 2 ^ 7 + (v.extractLsb' 1 7).toNat := toNat_append_eq _ _
  rw [happend, BitVec.extractLsb'_toNat, Nat.shiftRight_eq_div_pow, BitVec.toNat_ofBool]
  omega

theorem bit_toNat_of_getLsbD (v : Byte) (n : Nat) : (v.getLsbD n).toNat = v.toNat / 2 ^ n % 2 := by
  rw [BitVec.getLsbD, Nat.toNat_testBit]

theorem rlf_byte_zero (c : Bool) (v : Byte) : (v.extractLsb' 0 7 ++ BitVec.ofBool c : Byte).getLsbD 0 = c := by
  refine (BitVec.getLsbD_append ..).trans ?_
  simp

theorem rlf_byte_succ (c : Bool) (v : Byte) {n : Nat} (hn : n < 7) :
    (v.extractLsb' 0 7 ++ BitVec.ofBool c : Byte).getLsbD (n + 1) = v.getLsbD n := by
  refine (BitVec.getLsbD_append ..).trans ?_
  simp [hn]

theorem rrf_byte_top (c : Bool) (v : Byte) : (BitVec.ofBool c ++ v.extractLsb' 1 7 : Byte).getLsbD 7 = c := by
  refine (BitVec.getLsbD_append ..).trans ?_
  simp

theorem rrf_byte_below (c : Bool) (v : Byte) {n : Nat} (hn : n < 7) :
    (BitVec.ofBool c ++ v.extractLsb' 1 7 : Byte).getLsbD n = v.getLsbD (n + 1) := by
  refine (BitVec.getLsbD_append ..).trans ?_
  simp [hn, Nat.add_comm]

/-- Settles O17: the nine bits of C and the register, as one number, doubled and halved. -/
theorem rotatesGoThroughCarry : Obligations.RotatesGoThroughCarry := by
  unfold Obligations.RotatesGoThroughCarry
  refine fun s f d => ⟨bd_toNat _ _ _, rfl, bd_toNat _ _ _, rfl, fun hf => ⟨?rlf, ?rrf⟩⟩
  case rlf =>
    obtain ⟨t, hexec, hres, hz, hc, hdc, hrest⟩ := State.byteOriented_completes d
      (fun v => v.extractLsb' 0 7 ++ BitVec.ofBool s.c) (fun v => .carry (v.getLsbD 7)) hf
    have hbyte := rlf_byte_toNat s.c (s.f f)
    have hcarry : t.c.toNat = (s.f f).toNat / 2 ^ 7 % 2 := hc ▸ bit_toNat_of_getLsbD _ 7
    have hf' := (s.f f).isLt
    exact ⟨t, _, (exec_rlf f d s).trans hexec, hres, by omega, hz, hdc, hrest⟩
  case rrf =>
    obtain ⟨t, hexec, hres, hz, hc, hdc, hrest⟩ := State.byteOriented_completes d
      (fun v => BitVec.ofBool s.c ++ v.extractLsb' 1 7) (fun v => .carry (v.getLsbD 0)) hf
    have hbyte := rrf_byte_toNat s.c (s.f f)
    have hcarry : t.c.toNat = (s.f f).toNat / 2 ^ 0 % 2 := hc ▸ bit_toNat_of_getLsbD _ 0
    exact ⟨t, _, (exec_rrf f d s).trans hexec, hres, by omega, hz, hdc, hrest⟩

/-! ### An instruction run again and again on a storage register -/

theorem State.stop_of_fOperand_plain {i : Instr} {f : BitVec 7} {s : State} (hi : i.fOperand = some f)
    (hf : s.fClass f = .plain) : s.stop i = none := by
  cases i <;> cases hi <;> exact if_pos hf

@[simp] theorem State.after_fClass (s : State) (i : Instr) (a : BitVec 7) : (s.after i).fClass a = s.fClass a := by
  simp only [State.fClass, State.after_part]

theorem execTimes_of_fOperand_plain {i : Instr} {f : BitVec 7} (hi : i.fOperand = some f) (n : Nat) {s : State}
    (hf : s.fClass f = .plain) : execTimes n i s = .next ((State.after · i)^[n] s) := by
  induction n generalizing s with
  | zero => rfl
  | succ n ih =>
    rw [execTimes, exec_of_not_stopped (State.stop_of_fOperand_plain hi hf)]
    exact ih ((s.after_fClass i f).trans hf)

/-! ### The ring of C and the register (R115, R116) -/

/-- Bit n of the ring, counted on and on: the register's bits 0 to 7, then C, then bit 0 again. -/
def State.ringBit (s : State) (f : BitVec 7) (n : Nat) : Bool :=
  if n % 9 = 8 then s.c else (s.f f).getLsbD (n % 9)

theorem State.ringBit_add_nine (s : State) (f : BitVec 7) (n : Nat) : s.ringBit f (n + 9) = s.ringBit f n := by
  simp only [State.ringBit, Nat.add_mod_right]

/-- The ring is C and the register. -/
theorem State.eq_of_ringBit {s t : State} {f : BitVec 7} (h : ∀ n, t.ringBit f n = s.ringBit f n) :
    t.f f = s.f f ∧ t.c = s.c := by
  refine ⟨BitVec.eq_of_getLsbD_eq fun n hn => ?_, h 8⟩
  have hmod : n % 9 = n := by omega
  have hne : n ≠ 8 := by omega
  simpa only [State.ringBit, hmod, hne, if_false] using h n

/-- RLF turns the ring one place up. -/
theorem State.after_rlf_ringBit (s : State) (f : BitVec 7) (n : Nat) :
    (s.after (.rlf f .file)).ringBit f (n + 1) = s.ringBit f n := by
  have hbyte : (s.after (.rlf f .file)).f f = (s.f f).extractLsb' 0 7 ++ BitVec.ofBool s.c := s.setF_f_self f _
  have hc : (s.after (.rlf f .file)).c = (s.f f).getLsbD 7 := rfl
  have hn : n % 9 = 8 ∨ n % 9 = 7 ∨ n % 9 < 7 := by omega
  rw [State.ringBit, State.ringBit, hbyte, hc]
  rcases hn with hn | hn | hn
  · rw [if_neg (by omega), if_pos hn, show (n + 1) % 9 = 0 by omega, rlf_byte_zero]
  · rw [if_pos (by omega), if_neg (by omega), hn]
  · rw [if_neg (by omega), if_neg (by omega), show (n + 1) % 9 = n % 9 + 1 by omega, rlf_byte_succ _ _ hn]

/-- RRF turns the ring one place down. -/
theorem State.after_rrf_ringBit (s : State) (f : BitVec 7) (n : Nat) :
    (s.after (.rrf f .file)).ringBit f n = s.ringBit f (n + 1) := by
  have hbyte : (s.after (.rrf f .file)).f f = BitVec.ofBool s.c ++ (s.f f).extractLsb' 1 7 := s.setF_f_self f _
  have hc : (s.after (.rrf f .file)).c = (s.f f).getLsbD 0 := rfl
  have hn : n % 9 = 8 ∨ n % 9 = 7 ∨ n % 9 < 7 := by omega
  rw [State.ringBit, State.ringBit, hbyte, hc]
  rcases hn with hn | hn | hn
  · rw [if_pos hn, if_neg (by omega), show (n + 1) % 9 = 0 by omega]
  · rw [if_neg (by omega), if_pos (by omega), hn, rrf_byte_top]
  · rw [if_neg (by omega), if_neg (by omega), show (n + 1) % 9 = n % 9 + 1 by omega, rrf_byte_below _ _ hn]

theorem State.rlf_iterate_ringBit (s : State) (f : BitVec 7) (k n : Nat) :
    ((State.after · (.rlf f .file))^[k] s).ringBit f (n + k) = s.ringBit f n := by
  induction k generalizing s n with
  | zero => rfl
  | succ k ih => rw [Function.iterate_succ_apply, ← Nat.add_assoc, Nat.add_right_comm, ih, s.after_rlf_ringBit]

theorem State.rrf_iterate_ringBit (s : State) (f : BitVec 7) (k n : Nat) :
    ((State.after · (.rrf f .file))^[k] s).ringBit f n = s.ringBit f (n + k) := by
  induction k generalizing s n with
  | zero => rfl
  | succ k ih => rw [Function.iterate_succ_apply, ih, s.after_rrf_ringBit, Nat.add_assoc]

/-- Settles O54: nine places are once around the ring. -/
theorem nineRotationsRestore : Obligations.NineRotationsRestore := by
  unfold Obligations.NineRotationsRestore
  refine fun s f hf => ⟨⟨_, execTimes_of_fOperand_plain rfl 9 hf, State.eq_of_ringBit fun n => ?rlf⟩,
    ⟨_, execTimes_of_fOperand_plain rfl 9 hf, State.eq_of_ringBit fun n => ?rrf⟩⟩
  case rlf => rw [← State.ringBit_add_nine, State.rlf_iterate_ringBit]
  case rrf => rw [State.rrf_iterate_ringBit, State.ringBit_add_nine]

/-! ### A rotation and its inverse -/

/-- Two instructions on the one register f, after which f reads as before, leave both planes as they were. -/
theorem keepsPlanes_after_after {s : State} {i j : Instr} {f : BitVec 7} (hi : i.fStored = some f)
    (hj : j.fStored = some f) (hir : i.rStored = none) (hjr : j.rStored = none)
    (hf : ((s.after i).after j).f f = s.f f) : KeepsPlanes s ((s.after i).after j) := by
  refine ⟨fun a => ?_, fun a => ?_⟩
  · by_cases ha : a = f
    · rw [ha, hf]
    · have hne (k : Instr) (hk : k.fStored = some f) : k.fStored ≠ some a := by simpa [hk] using Ne.symm ha
      rw [State.after_f _ (hne j hj), State.after_f _ (hne i hi)]
  · rw [State.after_r _ (by simp [hjr]), State.after_r _ (by simp [hir])]

theorem swap_nibbles_twice (v : Byte) :
    let w : Byte := v.extractLsb' 0 4 ++ v.extractLsb' 4 4
    (w.extractLsb' 0 4 ++ w.extractLsb' 4 4 : Byte) = v := by
  have hv := v.isLt
  apply BitVec.eq_of_toNat_eq
  rw [swap_nibbles_toNat, swap_nibbles_toNat]
  omega

theorem State.after_swapf_f (s : State) (f : BitVec 7) :
    (s.after (.swapf f .file)).f f = (s.f f).extractLsb' 0 4 ++ (s.f f).extractLsb' 4 4 := s.setF_f_self f _

/-- Settles O55: one place up and one place down the ring, and the nibbles exchanged twice. -/
theorem rotatesAndSwapsAreUndone : Obligations.RotatesAndSwapsAreUndone := by
  unfold Obligations.RotatesAndSwapsAreUndone
  intro s f hf
  have hexec {i : Instr} (hi : i.fOperand = some f) : exec i s = .next (s.after i) :=
    exec_of_not_stopped (State.stop_of_fOperand_plain hi hf)
  have hexec' {i j : Instr} (hj : j.fOperand = some f) : exec j (s.after i) = .next ((s.after i).after j) :=
    exec_of_not_stopped (State.stop_of_fOperand_plain hj ((s.after_fClass i f).trans hf))
  refine ⟨?up_down, ?down_up, ?swap⟩
  case up_down =>
    obtain ⟨hbyte, hc⟩ := State.eq_of_ringBit (s := s) (t := (s.after (.rlf f .file)).after (.rrf f .file)) (f := f)
      fun n => by rw [State.after_rrf_ringBit, State.after_rlf_ringBit]
    exact ⟨_, _, hexec rfl, hexec' rfl, keepsPlanes_after_after rfl rfl rfl rfl hbyte, hc⟩
  case down_up =>
    obtain ⟨hbyte, hc⟩ := State.eq_of_ringBit (s := s) (t := (s.after (.rrf f .file)).after (.rlf f .file)) (f := f)
      fun n => by
        rw [← State.ringBit_add_nine, State.after_rlf_ringBit, State.after_rrf_ringBit, State.ringBit_add_nine]
    exact ⟨_, _, hexec rfl, hexec' rfl, keepsPlanes_after_after rfl rfl rfl rfl hbyte, hc⟩
  case swap =>
    have hbyte : ((s.after (.swapf f .file)).after (.swapf f .file)).f f = s.f f := by
      rw [State.after_swapf_f, State.after_swapf_f]
      exact swap_nibbles_twice _
    have htwice : execTimes 2 (.swapf f .file) s = .next ((s.after (.swapf f .file)).after (.swapf f .file)) :=
      execTimes_of_fOperand_plain rfl 2 hf
    exact ⟨_, htwice, keepsPlanes_after_after rfl rfl rfl rfl hbyte, (State.after_z _ rfl).trans (s.after_z rfl),
      (State.after_c _ rfl).trans (s.after_c rfl), (State.after_dc _ rfl).trans (s.after_dc rfl)⟩

end Sys2Proof.Machine
end

section
/-! PROOFS. The other instructions with an operand of their own kind (spec/40_byte_oriented.md R118, R120;
spec/41_bit_oriented.md R141, R142; spec/42_literal_control.md R153, R155, R159 to R161, R164). -/

namespace Sys2Proof.Machine

/-! ### Reading a register: MOVRW and TESTZ (R118, R120) -/

/-- Settles O16: a read of storage, into W. -/
theorem movrwReadsRPlane : Obligations.MovrwReadsRPlane := by
  unfold Obligations.MovrwReadsRPlane
  refine fun s r => ⟨toNat_append_eq _ _, rfl, fun hr => ?_⟩
  rw [exec_movrw, State.rRead_plain _ hr]
  exact ⟨_, rfl, rfl, ⟨fun _ => rfl, fun _ => rfl⟩, by simp [KeepsFlags], pcPlus_of_pc_eq rfl, by simp [KeepsSystem]⟩

/-- Settles O19: a read of storage, of which Z alone is written. -/
theorem testzWritesZOnly : Obligations.TestzWritesZOnly := by
  unfold Obligations.TestzWritesZOnly
  refine fun s f => ⟨toNat_append_eq _ _, rfl, fun hf => ?_⟩
  rw [exec_testz, State.fRead_plain _ hf]
  exact ⟨_, rfl, fun hzero => beq_iff_eq.mpr hzero, fun hne => beq_eq_false_iff_ne.mpr hne, rfl,
    ⟨fun _ => rfl, fun _ => rfl⟩, rfl, rfl, pcPlus_of_pc_eq rfl, by simp [KeepsSystem]⟩

/-! ### One bit of a register: BCF and BSF (R141, R142) -/

theorem bitMask_getLsbD (b : BitVec 3) {n : Nat} (hn : n < 8) : (bitMask b).getLsbD n = decide (n = b.toNat) := by
  have hb := b.isLt
  rw [bitMask, BitVec.getLsbD_shiftLeft, BitVec.getLsbD_one, Bool.eq_iff_iff]
  simp
  omega

theorem clear_bit_getLsbD (v : Byte) (b : BitVec 3) {n : Nat} (hn : n < 8) :
    (v &&& ~~~(bitMask b)).getLsbD n = if n = b.toNat then false else v.getLsbD n := by
  rw [BitVec.getLsbD_and, BitVec.getLsbD_not, bitMask_getLsbD b hn]
  by_cases hb : n = b.toNat <;> simp [hb, hn]

theorem set_bit_getLsbD (v : Byte) (b : BitVec 3) {n : Nat} (hn : n < 8) :
    (v ||| bitMask b).getLsbD n = if n = b.toNat then true else v.getLsbD n := by
  rw [BitVec.getLsbD_or, bitMask_getLsbD b hn]
  by_cases hb : n = b.toNat <;> simp [hb]

theorem bitAddr_toNat (f : BitVec 6) : (bitAddr f).toNat = f.toNat := by
  simp [bitAddr]
  omega

/-- BCF and BSF on a storage register complete with the one byte stored (R56, R141, R142). -/
theorem State.bitWrite_completes {s : State} {f : BitVec 6} (op : Byte → Byte) (hf : s.fClass (bitAddr f) = .plain) :
    ∃ t, s.bitWrite f op = .next t ∧ t.w = s.w ∧ StoresF s t (bitAddr f) (op (s.f (bitAddr f)))
      ∧ KeepsFlags s t ∧ PcPlus s t 1 ∧ KeepsSystem s t :=
  ⟨_, State.bitWrite_plain op hf, rfl, storesF_setF s _ _, by simp [KeepsFlags], pcPlus_of_pc_eq rfl,
    by simp [KeepsSystem]⟩

/-- Settles O20: the mask has the one bit b. -/
theorem bcfAndBsfWriteOneBit : Obligations.BcfAndBsfWriteOneBit := by
  unfold Obligations.BcfAndBsfWriteOneBit
  refine fun s f b => ⟨bit_toNat _ _ _, rfl, bit_toNat _ _ _, rfl, bitAddr_toNat f, fun hf => ⟨?bcf, ?bsf⟩⟩
  case bcf =>
    obtain ⟨t, hexec, hw, hstore, hrest⟩ := State.bitWrite_completes (fun v => v &&& ~~~(bitMask b)) hf
    exact ⟨t, _, (exec_bcf f b s).trans hexec, hw, hstore, fun n hn => clear_bit_getLsbD _ b hn, hrest⟩
  case bsf =>
    obtain ⟨t, hexec, hw, hstore, hrest⟩ := State.bitWrite_completes (fun v => v ||| bitMask b) hf
    exact ⟨t, _, (exec_bsf f b s).trans hexec, hw, hstore, fun n hn => set_bit_getLsbD _ b hn, hrest⟩

/-! ### Jumps (R153, R155, D3) -/

/-- The bits above k that the target of a jump has (D3, log 12). -/
def State.jumpHigh (s : State) (k : BitVec 12) : BitVec 4 :=
  (s.part.pcHighOnJump.lookup (s.pc, k)).getD (s.pc.extractLsb' 12 4)

theorem State.jumpTarget_toNat (s : State) (k : BitVec 12) :
    (s.jumpTarget k).toNat = ((s.jumpHigh k).toNat * 4096 + k.toNat) % 2 ^ s.part.pcw.bits :=
  (s.toPAddr_toNat _).trans (congrArg (· % _) (toNat_append_eq (s.jumpHigh k) k))

theorem pc_high_toNat (pc : PAddr) : (pc.extractLsb' 12 4).toNat = pc.toNat / 4096 := by
  have hpc := pc.isLt
  rw [BitVec.extractLsb'_toNat, Nat.shiftRight_eq_div_pow]
  omega

/-- Settles O24: k below PC_HIGH_ON_JUMP, cut to the bits of PC. -/
theorem callAndGotoLoadPc : Obligations.CallAndGotoLoadPc := by
  unfold Obligations.CallAndGotoLoadPc
  refine fun s k => ⟨toNat_append_eq _ _, rfl, toNat_append_eq _ _, rfl, s.jumpTarget k, fun hpcw => ?narrow,
    fun hnone => ?kept, fun h hsome => ?stated, exec_goto k s, fun hroom => ⟨s.pcPlus 1, s.pcPlus_toNat 1, ?call⟩⟩
  case narrow =>
    have hk := k.isLt
    rw [s.jumpTarget_toNat, hpcw]
    simp only [PcWidth.bits]
    omega
  case kept => rw [s.jumpTarget_toNat, State.jumpHigh, hnone, Option.getD_none, pc_high_toNat]
  case stated => rw [s.jumpTarget_toNat, State.jumpHigh, hsome, Option.getD_some]
  case call =>
    rw [exec_call, State.push_room _ _ hroom]
    rfl

/-! ### Returns and SLEEP (R159 to R161, R164) -/

/-- A return on a stack that is not empty (R159). -/
theorem State.popPc_cons {s : State} {a : PAddr} {rest : List PAddr} (k : State → State) (h : s.stk = a :: rest) :
    s.popPc k = .next (k { s with pc := a, stk := rest }) :=
  State.pop_cons _ h

/-- Settles O28: the three returns are the one pop, and what else each does. -/
theorem returnsPopIntoPc : Obligations.ReturnsPopIntoPc := by
  unfold Obligations.ReturnsPopIntoPc
  exact fun s k a rest hs => ⟨(exec_ret s).trans (State.popPc_cons _ hs), (exec_reti s).trans (State.popPc_cons _ hs),
    (exec_retlw k s).trans (State.popPc_cons _ hs), rfl, rfl, toNat_append_eq _ _, rfl, rfl, rfl⟩

/-- Settles O30: both codes are the one instruction, which writes TO, PD, the mode and PC. -/
theorem sleepStopsTheCore : Obligations.SleepStopsTheCore := by
  unfold Obligations.SleepStopsTheCore
  exact fun s => ⟨rfl, rfl, rfl, rfl, _, exec_sleepA s, exec_sleepB s, rfl, pcPlus_of_pc_eq rfl⟩

end Sys2Proof.Machine
end

section
/-! PROOFS. What each boundary leads to (spec/60_exceptions.md R186 to R194; spec/70_reset_and_hazards.md R210, R215),
the fetch of the instruction at PC, a word placed where it reads, and a statement that omits an operand. -/

namespace Sys2Proof.Machine

/-! ### The state as it arrives at a boundary (log 7, log 8) -/

theorem State.arrive_of_not_counted {s : State} (h : s.input.wdtCount = none) :
    s.arrive = { s with env := s.env.tail } := by
  simp [State.arrive, h]

theorem State.arrive_of_counted {s : State} {n : Nat} (h : s.input.wdtCount = some n) :
    s.arrive = { s with env := s.env.tail, wdt := n % 2 ^ s.part.wdtw } := by
  simp [State.arrive, h]

/-! ### The boundary's other cases (R190) -/

theorem State.boundary_of_reset {s : State} (hreset : s.input.reset = true) :
    s.boundary = .event (.next s.arrive.resetEvent) := by
  simp [State.boundary, hreset]

theorem State.boundary_of_watchdog {s : State} (hreset : s.input.reset = false) (hdog : s.input.watchdog = true)
    (hen : s.part.wdtEnabled = true) : s.boundary = .event (.next s.arrive.watchdogEvent) := by
  simp [State.boundary, hreset, hdog, hen]

theorem State.boundary_of_wake {s : State} (hmode : s.mode = .sleep) (hreset : s.input.reset = false)
    (hdog : (s.input.watchdog && s.part.wdtEnabled) = false) (hwake : s.input.wake = true) :
    s.boundary = .event (.next (s.arrive.wakeEvent s.input)) := by
  simp [State.boundary, hreset, hdog, hmode, hwake]

theorem State.boundary_of_request {s : State} (hmode : s.mode = .run) (hreset : s.input.reset = false)
    (hdog : (s.input.watchdog && s.part.wdtEnabled) = false) (hgie : s.gie = true) (hirq : s.input.irq = true) :
    s.boundary = .event (interruptEntry s.arrive) := by
  simp [State.boundary, hreset, hdog, hmode, hgie, hirq]

theorem step_eq_of_boundary_eq {s t : State} (h : s.boundary = t.boundary) : step s = step t := by
  rw [step, step, h]

theorem step_of_fetch_error {s t : State} {e : Fault} (h : s.boundary = .runs t) (hfetch : t.fetch = .error e) :
    step s = .fault e := by
  simp [step, h, hfetch]

/-! ### The fetch (R52, R76, R79) -/

theorem State.fetch_of_decode {s : State} {i : Instr} (hpc : s.pc.toNat < s.part.romSize)
    (hdec : decode s.part.iset s.part.hasDptr (s.romWord s.pc) = .ok i) : s.fetch = .ok i := by
  simp [State.fetch, hpc, hdec]

theorem State.fetch_outside {s : State} (hpc : s.part.romSize ≤ s.pc.toNat) :
    s.fetch = .error (.fetchOutOfRange s.pc) := by
  simp [State.fetch, Nat.not_lt.mpr hpc]

theorem State.fetch_unassigned {s : State} {e : DecodeError} (hpc : s.pc.toNat < s.part.romSize)
    (hdec : decode s.part.iset s.part.hasDptr (s.romWord s.pc) = .error e) :
    s.fetch = .error (.illegalInstruction s.pc (s.romWord s.pc)) := by
  simp [State.fetch, hpc, hdec]

/-- Settles O39: no event, and the fetch finds the instruction. -/
theorem stepRunsTheDecodedInstruction : Obligations.StepRunsTheDecodedInstruction := by
  unfold Obligations.StepRunsTheDecodedInstruction
  intro s i hmode hreset hdog hirq hpc hdec
  have hfetch : s.arrive.fetch = .ok i := (s.arrive_fetch).trans (State.fetch_of_decode hpc hdec)
  exact ⟨step_of_fetch (s.boundary_of_run hmode hreset hdog hirq) hfetch, State.arrive_of_not_counted,
    fun _ => State.arrive_of_counted⟩

/-- Settles O44: no event, and the fetch fails in one of its two ways. -/
theorem fetchFaultsAreNamed : Obligations.FetchFaultsAreNamed := by
  unfold Obligations.FetchFaultsAreNamed
  intro s hmode hreset hdog hirq
  have hruns := s.boundary_of_run hmode hreset hdog hirq
  exact ⟨fun hpc => step_of_fetch_error hruns ((s.arrive_fetch).trans (State.fetch_outside hpc)),
    fun hpc _ hdec => step_of_fetch_error hruns ((s.arrive_fetch).trans (State.fetch_unassigned hpc hdec))⟩

/-! ### Interrupts (R187, R189) -/

theorem interruptEntry_room {s : State} (h : s.stk.length < s.part.stackDepth) :
    interruptEntry s = .next (((s.setStk (s.pc :: s.stk)).setGie false).setPc s.part.intVector) :=
  State.push_room _ _ h

/-- Settles O45: the boundary is interrupt entry, whose push finds room. -/
theorem interruptEntrySavesPcAndClearsGie : Obligations.InterruptEntrySavesPcAndClearsGie := by
  unfold Obligations.InterruptEntrySavesPcAndClearsGie
  intro s hmode hreset hdog hgie hirq hroom
  have hstep : step s = interruptEntry s.arrive := step_of_event (s.boundary_of_request hmode hreset hdog hgie hirq)
  exact ⟨_, hstep.trans (interruptEntry_room hroom), rfl, rfl, rfl, rfl, State.arrive_of_not_counted,
    fun _ => State.arrive_of_counted⟩

/-- Settles O46: entry leaves PC on top of the stack, where RETI finds it. -/
theorem retiUndoesInterruptEntry : Obligations.RetiUndoesInterruptEntry := by
  unfold Obligations.RetiUndoesInterruptEntry
  intro s t h hentry hstk
  obtain ⟨-, rfl⟩ := interruptEntry_next hentry
  exact (exec_reti h).trans (State.popPc_cons _ hstk)

theorem State.boundary_of_gie_clear {s : State} (hmode : s.mode = .run) (hgie : s.gie = false) :
    s.boundary = if s.input.reset then .event (.next s.arrive.resetEvent)
      else if s.input.watchdog && s.part.wdtEnabled then .event (.next s.arrive.watchdogEvent) else .runs s.arrive := by
  simp [State.boundary, hmode, hgie]

/-- Settles O47: the boundary looks at the request only where GIE is set. -/
theorem requestsAreIgnoredWhileGieIsClear : Obligations.RequestsAreIgnoredWhileGieIsClear := by
  unfold Obligations.RequestsAreIgnoredWhileGieIsClear
  intro s request hmode hgie
  apply step_eq_of_boundary_eq
  rw [State.boundary_of_gie_clear hmode hgie]
  exact (State.boundary_of_gie_clear
    (s := { s with env := { s.input with irq := request } :: s.env.tail }) hmode hgie).symm

/-! ### Resets, and the order of events (R190, R192, R210) -/

theorem State.resetEvent_f (s : State) (a : BitVec 7) :
    s.resetEvent.f a = Config.freeByte s.resetCount (.fplane a) := by
  have hplane : s.resetEvent.fplane
      = Memory.ofFun (fun n => Config.freeByte s.resetCount (.fplane (BitVec.ofNat 7 n))) 0 128 := rfl
  rw [State.f, hplane, Memory.read_ofFun _ 0 128 a.toNat (Nat.zero_le _) (by omega), BitVec.ofNat_toNat,
    BitVec.setWidth_eq]

theorem State.resetEvent_r (s : State) (a : BitVec 8) :
    s.resetEvent.r a = Config.freeByte s.resetCount (.rplane a) := by
  have hplane : s.resetEvent.rplane
      = Memory.ofFun (fun n => Config.freeByte s.resetCount (.rplane (BitVec.ofNat 8 n))) 0 256 := rfl
  rw [State.r, hplane, Memory.read_ofFun _ 0 256 a.toNat (Nat.zero_le _) (by omega), BitVec.ofNat_toNat,
    BitVec.setWidth_eq]

theorem State.resetEvent_gie (s : State) :
    s.resetEvent.gie = s.part.gieReset.getD (Config.freeBit s.resetCount .gie) := rfl

/-- Settles O49: the state of the reset event, field by field. -/
theorem resetEventRestartsTheCore : Obligations.ResetEventRestartsTheCore := by
  unfold Obligations.ResetEventRestartsTheCore
  intro s hreset
  refine ⟨_, step_of_event (State.boundary_of_reset hreset), rfl, rfl, rfl, fun b hb => ?fixed, fun hnone => ?free,
    rfl, rfl, rfl, rfl, rfl, rfl, rfl, State.resetEvent_f _, State.resetEvent_r _, rfl, rfl, rfl, rfl⟩
  case fixed => rw [State.resetEvent_gie, State.arrive_part, hb, Option.getD_some]
  case free => rw [State.resetEvent_gie, State.arrive_part, hnone, Option.getD_none, State.arrive_resetCount]

/-- Settles O50: a reset leaves nothing of the boundary's input, and the watchdog event is a reset. -/
theorem eventsComeInOrder : Obligations.EventsComeInOrder := by
  unfold Obligations.EventsComeInOrder
  refine fun s => ⟨fun hreset i hi => ?reset, fun hreset hdog hen => ?watchdog,
    fun hreset hdog hmode hgie hirq => ?request⟩
  case reset =>
    have hother : State.boundary { s with env := i :: s.env.tail } = .event (.next s.arrive.resetEvent) :=
      State.boundary_of_reset hi
    rw [step_of_event (State.boundary_of_reset hreset), step_of_event hother]
  case watchdog =>
    have hother : State.boundary { s with env := { s.input with reset := true } :: s.env.tail }
        = .event (.next s.arrive.resetEvent) := State.boundary_of_reset rfl
    rw [step_of_event (State.boundary_of_watchdog hreset hdog hen), step_of_event hother]
    rfl
  case request => exact step_of_event (State.boundary_of_request hmode hreset hdog hgie hirq)

/-- Settles O42: the part of the reset state is in range, and its memories hold nothing. -/
theorem resetStateIsWellFormed : Obligations.ResetStateIsWellFormed := by
  unfold Obligations.ResetStateIsWellFormed
  exact ⟨by decide, rfl, rfl, rfl⟩

/-! ### Sleep and wake-up (R29, R194), and the end of a run (R215) -/

/-- Settles O51: asleep without an event, the state arrives at the boundary and stays. -/
theorem sleepingCoreKeepsItsState : Obligations.SleepingCoreKeepsItsState := by
  unfold Obligations.SleepingCoreKeepsItsState
  intro s hmode hreset hdog hwake
  exact ⟨step_of_event (s.boundary_of_sleep hmode hreset hdog hwake), State.arrive_of_not_counted,
    fun _ => State.arrive_of_counted⟩

/-- Settles O52: the wake-up leaves the boundary without itself, where the request, or else the instruction at PC, comes
next. -/
theorem wakeUpResumesAfterSleep : Obligations.WakeUpResumesAfterSleep := by
  unfold Obligations.WakeUpResumesAfterSleep
  intro s hmode hreset hdog hwake
  refine ⟨s.arrive.wakeEvent s.input, step_of_event (State.boundary_of_wake hmode hreset hdog hwake), rfl,
    State.arrive_of_not_counted, fun _ => State.arrive_of_counted, fun hgie hirq => ?request,
    fun hirq i hfetch => ?instr⟩
  case request => exact step_of_event (State.boundary_of_request rfl hreset hdog hgie hirq)
  case instr => exact step_of_fetch (State.boundary_of_run rfl hreset hdog hirq) hfetch

/-- Settles O53: a run at such a GOTO has ended, and a quiet boundary leaves the state as it arrives. -/
theorem selfJumpIsAFixedPoint : Obligations.SelfJumpIsAFixedPoint := by
  unfold Obligations.SelfJumpIsAFixedPoint
  intro s hmode hquiet hself
  have hstep : step s = .next s.arrive := And.left <|
    step_of_ended_run hmode (by rw [s.ended_of_run hmode, hself]) (by rw [hquiet]; rfl) (by rw [hquiet]; rfl)
      (by rw [hquiet]; exact Bool.and_false _)
  rw [hstep, State.arrive_of_not_counted (by rw [hquiet]; rfl)]

/-! ### A word placed where the next fetch reads it (log 23) -/

/-- A word of an instruction decodes to it on every part that has the pair if the word is of the pair. -/
theorem decode_of_decode_true {iset : ISet} {hasDptr : Bool} {w : ProgWord} {i : Instr}
    (h : decode iset true w = .ok i) (hpair : isTableReadWord w = true → hasDptr = true) :
    decode iset hasDptr w = .ok i := by
  obtain ⟨rfl, hwf⟩ := encode_of_decode h
  apply decode_encode_of_wellFormed
  cases i with
  | tblwl | tblwh => exact hpair rfl
  | _ => exact hwf

/-- Settles O40: the placed word is at PC, on a part that has its instruction, and no event comes first. -/
theorem placedWordIsTheNextInstruction : Obligations.PlacedWordIsTheNextInstruction := by
  unfold Obligations.PlacedWordIsTheNextInstruction
  intro s nbits w i hw hdec
  have hruns : (s.withFetchWord nbits w).boundary = .runs (s.withFetchWord nbits w) :=
    State.boundary_of_run rfl rfl rfl (Bool.and_false _)
  have hword : (s.withFetchWord nbits w).romWord s.pc = BitVec.ofNat 14 w := Memory.read_write_self _ _ _
  refine step_of_fetch hruns (State.fetch_of_decode (Nat.lt_of_lt_of_le (Nat.lt_succ_self _) (le_max_right _ _)) ?_)
  refine (congrArg _ hword).trans (decode_of_decode_true hdec fun hpair => ?_)
  exact (congrArg _ hpair).trans (Bool.or_true _)

/-! ### A statement without d or b (R84, D23) -/

/-- The mnemonics with a d or a b are of a form with two operands. -/
theorem exists_form_of_two_operands :
    ∀ m ∈ ["ADDWF", "ANDWF", "COMF", "DECF", "DECFSZ", "INCF", "INCFSZ", "IORWF", "RLF", "RRF", "SUBWF", "SWAPF", "XORWF",
      "BCF", "BSF", "BTFSC", "BTFSS"],
    ∃ row ∈ commonForms, row.1 = m ∧ row.2.fieldRanges.length = 2 := by
  decide

theorem AsmForm.build_singleton_of_two_operands {form : AsmForm} (h : form.fieldRanges.length = 2) (a : Nat) :
    form.build [a] = none := by
  cases form with
  | fd mk | fb mk => rfl
  | _ => cases h

/-- Settles O58: one operand is one too few for these mnemonics, and no form fills it in. -/
theorem omittedOperandsAreRefused : Obligations.OmittedOperandsAreRefused := by
  unfold Obligations.OmittedOperandsAreRefused
  intro iset hasDptr a m hm
  obtain ⟨row, hrow, rfl, htwo⟩ := exists_form_of_two_operands m hm
  rw [assembleInstr, formOf_of_mem (List.mem_append_left _ hrow)]
  simp only [AsmForm.build_singleton_of_two_operands htwo]

end Sys2Proof.Machine
end
